-- ==== Sys2Proof/Word.lean ====
section
/-! DEFINITION. The word types of AJRX: the widths that 10_state.md and 30_encoding.md give. -/

namespace Sys2Proof

/-- A byte of the sample stream or of a byte buffer (20_memory R50). -/
abbrev Byte := BitVec 8

/-- A beat of the sample byte port, in_last above in_data[7:0] (R81). -/
abbrev Beat := BitVec 9

/-- A command word (R82). -/
abbrev CommandWord := BitVec 144

/-- A response word (R84). -/
abbrev ResponseWord := BitVec 184

/-- Field D of a command and field R of a response: 14 bytes, byte i at bits 111-8i to 104-8i (R53). -/
abbrev Wide := BitVec 112

/-- A status register, a timestamp or the word of XTRU and TBIT. -/
abbrev Word64 := BitVec 64

/-- A 16-bit sample word (R87). -/
abbrev SampleWord := BitVec 16

/-- A decoded sample, 12 bits in two's complement (R25). -/
abbrev Sample := BitVec 12

/-- A power value, unsigned and below 2^27 (R26). -/
abbrev Power := BitVec 27

/-- A CRC-24 register (R192). -/
abbrev Crc := BitVec 24

end Sys2Proof
end

