-- ==== Sys2Proof/Syntax.lean ====
section
/-! DEFINITION. The operations of AJRX: the ten commands of R90 and the two stream beats of R81, one constructor per row of
spec/opcode_table.json. Operands are those that R83 says a command reads; small operands are unsigned numbers used as they
are. -/

namespace Sys2Proof

inductive Instr where
  /-- XTRU value, start, size (R212). -/
  | xtru (start size : Nat) (value : Word64)
  /-- TBIT value, index (R213). -/
  | tbit (index : Nat) (value : Word64)
  /-- BLEN buf (R216): N bytes of the buffer. -/
  | blen (n : Nat) (buf : Wide)
  /-- BAT buf, index (R217). -/
  | bat (index n : Nat) (buf : Wide)
  /-- BRNG buf, from, to (R218): the half-open range from `lower` to `upper`. -/
  | brng (lower upper n : Nat) (buf : Wide)
  /-- CRC buf (R197). -/
  | crc (n : Nat) (buf : Wide)
  /-- CPRD xze, yze, xzo, yzo, p (R248): `p` is true when the odd report is the more recent (R230). -/
  | cprd (xze yze xzo yzo : Nat) (p : Bool)
  /-- POPF (R272). -/
  | popf
  /-- WGET i (R274). -/
  | wget (i : Nat)
  /-- RDSR n (R276). -/
  | rdsr (n : Nat)
  /-- IN.BYTE d (R121). -/
  | inByte (d : Byte)
  /-- IN.LAST (R128). -/
  | inLast
  deriving DecidableEq, Repr

/-- What carries an operation: a command word on the command port (R82) or a beat on the sample byte port (R81). -/
inductive Encoding where
  | command (w : CommandWord)
  | beat (b : Beat)
  deriving DecidableEq, Repr

/-- Why a word is no operation. -/
inductive DecodeError where
  /-- R91: OP is 0x00 or 0x0B to 0xFF. The machine answers such a command with ERR_ILLEGAL_OP. -/
  | reservedOpcode (op : Byte)
  deriving DecidableEq, Repr

end Sys2Proof
end

