-- ==== Sys2Proof/WellFormed.lean ====
section
/-! DEFINITION. The operands an encoding can carry: each fits its field of the command word (R82, R83, R106). A value that a
command refuses (an index of 200, a length of 15) is well formed: D6 keeps it expressible, and the command answers
ERR_ARG. -/

namespace Sys2Proof

/-- An operand of one of the 8-bit fields A, B and C (R82). -/
def fitsByte (n : Nat) : Bool := decide (n < 256)

/-- A CPR coordinate of the operand pack (R106). -/
def fitsCpr (n : Nat) : Bool := decide (n < 131072)

/-- WGET's index, D[15:0] (R83). -/
def fitsIndex (n : Nat) : Bool := decide (n < 65536)

/-- Every operand fits the field that carries it. -/
def Instr.wellFormed : Instr → Bool
  | .xtru start size _ => fitsByte start && fitsByte size
  | .tbit index _ => fitsByte index
  | .blen n _ => fitsByte n
  | .bat index n _ => fitsByte index && fitsByte n
  | .brng lower upper n _ => fitsByte lower && fitsByte upper && fitsByte n
  | .crc n _ => fitsByte n
  | .cprd xze yze xzo yzo _ => fitsCpr xze && fitsCpr yze && fitsCpr xzo && fitsCpr yzo
  | .popf => true
  | .wget i => fitsIndex i
  | .rdsr n => fitsByte n
  | .inByte _ => true
  | .inLast => true

/-- The operation travels on the command port (format C), not on the sample byte port (format S). -/
def Instr.isCommand : Instr → Bool
  | .inByte _ => false
  | .inLast => false
  | .xtru _ _ _ => true
  | .tbit _ _ => true
  | .blen _ _ => true
  | .bat _ _ _ => true
  | .brng _ _ _ _ => true
  | .crc _ _ => true
  | .cprd _ _ _ _ _ => true
  | .popf => true
  | .wget _ => true
  | .rdsr _ => true

/-- The seven commands whose response is a function of their operands alone (R37, R342). -/
def Instr.isPure : Instr → Bool
  | .xtru _ _ _ => true
  | .tbit _ _ => true
  | .blen _ _ => true
  | .bat _ _ _ => true
  | .brng _ _ _ _ => true
  | .crc _ _ => true
  | .cprd _ _ _ _ _ => true
  | .popf => false
  | .wget _ => false
  | .rdsr _ => false
  | .inByte _ => false
  | .inLast => false

end Sys2Proof
end

