-- ==== Sys2Proof/Decode.lean ====
section
/-! DEFINITION. Decoding and encoding (30_encoding.md R81 to R83, R90 to R92, R95, R106). Decoding is total: a beat always
decodes, and a command word decodes unless its opcode is reserved. -/

namespace Sys2Proof

/-! ### The fields of a command word (R82) -/

def cmdOp (w : CommandWord) : Byte := w.extractLsb' 136 8
def cmdA (w : CommandWord) : Byte := w.extractLsb' 128 8
def cmdB (w : CommandWord) : Byte := w.extractLsb' 120 8
def cmdC (w : CommandWord) : Byte := w.extractLsb' 112 8
def cmdD (w : CommandWord) : Wide := w.extractLsb' 0 112

/-! ### What field D carries for each command (R83, R106) -/

/-- The 64-bit word of XTRU and TBIT, D[63:0]. -/
def dValue (d : Wide) : Word64 := d.extractLsb' 0 64

/-- WGET's index, D[15:0]. -/
def dIndex (d : Wide) : Nat := (d.extractLsb' 0 16).toNat

/-- The CPR operand pack: XZe, YZe, XZo, YZo from the lowest bit up, then p. -/
def dXze (d : Wide) : Nat := (d.extractLsb' 0 17).toNat
def dYze (d : Wide) : Nat := (d.extractLsb' 17 17).toNat
def dXzo (d : Wide) : Nat := (d.extractLsb' 34 17).toNat
def dYzo (d : Wide) : Nat := (d.extractLsb' 51 17).toNat
def dParity (d : Wide) : Bool := d.getLsbD 68

/-- The command a word selects (R90), its operands read as R83 says. R91: every other opcode is reserved. -/
def decodeCommand (w : CommandWord) : Except DecodeError Instr :=
  match (cmdOp w).toNat with
  | 1 => .ok (.xtru (cmdA w).toNat (cmdB w).toNat (dValue (cmdD w)))
  | 2 => .ok (.tbit (cmdA w).toNat (dValue (cmdD w)))
  | 3 => .ok (.blen (cmdC w).toNat (cmdD w))
  | 4 => .ok (.bat (cmdA w).toNat (cmdC w).toNat (cmdD w))
  | 5 => .ok (.brng (cmdA w).toNat (cmdB w).toNat (cmdC w).toNat (cmdD w))
  | 6 => .ok (.crc (cmdC w).toNat (cmdD w))
  | 7 => .ok (.cprd (dXze (cmdD w)) (dYze (cmdD w)) (dXzo (cmdD w)) (dYzo (cmdD w)) (dParity (cmdD w)))
  | 8 => .ok .popf
  | 9 => .ok (.wget (dIndex (cmdD w)))
  | 10 => .ok (.rdsr (cmdA w).toNat)
  | _ => .error (.reservedOpcode (cmdOp w))

/-- The beat's operation (R81): bit 8 is in_last, bits 7:0 are in_data. -/
def decodeBeat (b : Beat) : Instr :=
  if b.getLsbD 8 then .inLast else .inByte (b.extractLsb' 0 8)

def decode : Encoding → Except DecodeError Instr
  | .command w => decodeCommand w
  | .beat b => .ok (decodeBeat b)

/-! ### Encoding -/

/-- A command word from its fields (R82). -/
def commandWord (op a b c : Nat) (d : Wide) : CommandWord :=
  BitVec.ofNat 8 op ++ BitVec.ofNat 8 a ++ BitVec.ofNat 8 b ++ BitVec.ofNat 8 c ++ d

/-- The CPR operand pack (R106). -/
def packCpr (xze yze xzo yzo : Nat) (p : Bool) : Wide :=
  BitVec.setWidth 112
    (BitVec.ofBool p ++ BitVec.ofNat 17 yzo ++ BitVec.ofNat 17 xzo ++ BitVec.ofNat 17 yze ++ BitVec.ofNat 17 xze)

/-- The words of an operation, the fields a command does not read written as zeros (R95). -/
def encode : Instr → Encoding
  | .xtru start size value => .command (commandWord 1 start size 0 (value.setWidth 112))
  | .tbit index value => .command (commandWord 2 index 0 0 (value.setWidth 112))
  | .blen n buf => .command (commandWord 3 0 0 n buf)
  | .bat index n buf => .command (commandWord 4 index 0 n buf)
  | .brng lower upper n buf => .command (commandWord 5 lower upper n buf)
  | .crc n buf => .command (commandWord 6 0 0 n buf)
  | .cprd xze yze xzo yzo p => .command (commandWord 7 0 0 0 (packCpr xze yze xzo yzo p))
  | .popf => .command (commandWord 8 0 0 0 0)
  | .wget i => .command (commandWord 9 0 0 0 (BitVec.ofNat 112 (i % 65536)))
  | .rdsr n => .command (commandWord 10 n 0 0 0)
  | .inByte d => .beat (d.setWidth 9)
  | .inLast => .beat 0x100

/-! ### The words of spec/opcode_table.json -/

/-- The carrier of an opcode-table word: a row of at most 16 bits is a beat (the table gives the beats 9 bits, 16 in whole
bytes), any other a command word. Log 12. -/
def tableWord (nbits w : Nat) : Encoding :=
  if nbits ≤ 16 then .beat (BitVec.ofNat 9 w) else .command (BitVec.ofNat 144 w)

/-- The operation the decoder reads from an opcode-table word of `nbits` bits. -/
def decodeTableWord (nbits w : Nat) : Option Instr :=
  match decode (tableWord nbits w) with
  | .ok i => some i
  | .error _ => none

/-! ### The bits a command reads (R83, R92) -/

/-- The bits of a command word that the command of opcode `op` reads; R92 says that the others have no effect. Field D is
counted as read whole by the byte-buffer commands BLEN, BAT, BRNG and CRC: they carry it as an operand, and ignore its bytes
at positions N and above (BLEN all of them) when they run. -/
def readMask (op : Nat) : CommandWord :=
  match op with
  | 1 => 0xFFFFFF00000000000000FFFFFFFFFFFFFFFF
  | 2 => 0xFFFF0000000000000000FFFFFFFFFFFFFFFF
  | 3 => 0xFF0000FFFFFFFFFFFFFFFFFFFFFFFFFFFFFF
  | 4 => 0xFFFF00FFFFFFFFFFFFFFFFFFFFFFFFFFFFFF
  | 5 => 0xFFFFFFFFFFFFFFFFFFFFFFFFFFFFFFFFFFFF
  | 6 => 0xFF0000FFFFFFFFFFFFFFFFFFFFFFFFFFFFFF
  | 7 => 0xFF00000000000000001FFFFFFFFFFFFFFFFF
  | 8 => 0xFF0000000000000000000000000000000000
  | 9 => 0xFF000000000000000000000000000000FFFF
  | 10 => 0xFFFF00000000000000000000000000000000
  | _ => 0xFF0000000000000000000000000000000000

end Sys2Proof
end

