-- ==== Sys2Proof/Config.lean ====
section
/-! DEFINITION. The constants of rule R4 and R5, and what the spec leaves open: its four open parameters,
the interleaving of the agents' steps, and the response lines while no response is present. Every open value is an
opaque constant, so a claim holds for each of its admissible values. -/

namespace Sys2Proof

namespace Config

/-- SAMPLE_BIAS (R4). -/
abbrev sampleBias : Nat := 2048

/-- WINDOW_SIZE (R5, D15) and FRAME_POSITIONS (R4): the window's size and the skip after an accepted frame. -/
abbrev windowSize : Nat := 1200

/-- WINDOW_MAX (R4, R141): the upper bound on any window size. -/
abbrev windowMax : Nat := 65536

/-- The window size that AJRX uses is within the bound (R141). -/
theorem windowSize_le_windowMax : windowSize ≤ windowMax := by decide

/-- BUF_CAP (R5) and FRAME_BYTES (R4). -/
abbrev bufCap : Nat := 14

/-- FRAME_BITS (R4): payload bits sliced per frame. -/
abbrev frameBits : Nat := 112

/-- MAX_FIELD_BITS (R4). -/
abbrev maxFieldBits : Nat := 31

/-- WORD_BITS (R4). -/
abbrev wordBits : Nat := 64

/-- MAX_RANGE_BYTES (R4). -/
abbrev maxRangeBytes : Nat := 7

/-- DF_ADSB (R4). -/
abbrev dfAdsb : Nat := 17

/-- NS_PER_POSITION (R4). -/
abbrev nsPerPosition : Nat := 100

/-- CRC_GENERATOR (R4): the low 24 bits of the degree-24 generator polynomial (R191). -/
abbrev crcGenerator : Crc := 0xFFF409

/-- The identification constant of SR5 (R2, R33). -/
abbrev idConstant : Word64 := 0x414A525800000100

/-- S of 45_cpr.md: 2 to the power CPR_BITS (R4, R230). -/
abbrev cprScale : Int := 131072

end Config

/-- FIFO_DEPTH's domain (R5): none is an unbounded queue. -/
abbrev FifoDepth := Option { n : Nat // 1 ≤ n }

/-- CPR_ROUND_TIE's domain (R5, R233). -/
inductive RoundTie where
  | halfUp
  | halfEven
  | halfAway
  deriving DecidableEq, Repr, Inhabited

/-- NL_EQ's domain (R5, R241): the zone count at latitude exactly 0. -/
inductive NlEq where
  | fiftyNine
  | sixty
  deriving DecidableEq, Repr, Inhabited

/-- NL_87's domain (R5, R241): the zone count at latitude exactly 87 degrees on the even grid. -/
inductive Nl87 where
  | one
  | two
  deriving DecidableEq, Repr, Inhabited

/-- The three parameters that CPRD reads. -/
structure CprParams where
  tie : RoundTie
  nlEq : NlEq
  nl87 : Nl87
  deriving DecidableEq, Repr, Inhabited

/-- Whose step comes next: one of the three agents of R9, or a reset (R320, which calls it a fourth kind of step). -/
inductive Turn where
  | src
  | cor
  | host
  | rst
  deriving DecidableEq, Repr, Inhabited

/-- FIFO_DEPTH (R5, U1), fixed by the implementation and left open by the spec. Log 3. -/
opaque Config.fifoDepth : FifoDepth

/-- CPR_ROUND_TIE, NL_EQ and NL_87 (R5, U2 to U4), fixed by the implementation and left open by the spec. Log 4. -/
opaque Config.cprParams : CprParams

/-- The agent that moves when the environment has named none: R68 lets any enabled step be taken next, so the
choice is free. Log 1. -/
opaque Config.freeTurn : Nat → Turn

/-- What the 184 response lines carry while rsp_valid = 0 (U24: any value). Log 6. -/
opaque Config.idleResponse : Nat → ResponseWord

end Sys2Proof
end

