-- ==== Sys2Proof/Machine/State.lean ====
section
/-! DEFINITION. The state of AJRX (10_state.md), its reset values (R38), and the reasons a step could stop. -/

namespace Sys2Proof.Machine

/-- H[0..7] (R25): `h0` is the most recently decoded sample. -/
structure History where
  h0 : Sample
  h1 : Sample
  h2 : Sample
  h3 : Sample
  h4 : Sample
  h5 : Sample
  h6 : Sample
  h7 : Sample
  deriving DecidableEq, Repr

/-- An entry of the frame FIFO (R30, R88): a timestamp in nanoseconds and 14 bytes, F[i] at bits 111-8i to 104-8i of `frame`
(R273). -/
structure FrameEntry where
  ts : Word64
  frame : Wide
  deriving DecidableEq, Repr

/-- The status codes of R290; no other code is ever produced. -/
inductive Status where
  | ok
  | errIllegalOp
  | errArg
  | errEmpty
  | errNotAvail
  | cprBand
  | cprLat
  deriving DecidableEq, Repr

/-- The fields of a response word (R84). -/
structure Response where
  status : Status
  t : Word64
  r : Wide
  deriving DecidableEq, Repr

/-- The state of AJRX: everything the spec gives it to remember (10_state.md), with the response it presents (R80), and nothing
else (R39). COUNT is the length of `w` and FCNT the length of `fifo` (log 9). -/
structure Ajrx where
  /-- POS (R22). -/
  pos : Word64
  /-- LO (R23). -/
  lo : Byte
  /-- BPH (R23). -/
  bph : Bool
  /-- SPH (R24). -/
  sph : Bool
  /-- H[0..7] (R25). -/
  h : History
  /-- W[0..COUNT) (R26). -/
  w : List Power
  /-- PREV (R28). -/
  prev : BitVec 29
  /-- EOS (R29). -/
  eos : Bool
  /-- SRNG (R31). -/
  srng : Bool
  /-- The frame FIFO (R30), oldest entry first. -/
  fifo : List FrameEntry
  /-- The response to the last accepted command, if it is present (R80): rsp_valid and rsp. -/
  rsp : Option Response
  deriving DecidableEq, Repr

/-- The inputs of the model (R39): what comes in from outside, no part of AJRX's state. A meaning neither reads nor writes them;
only the taking of a turn and the ports' transfers do. -/
structure Inputs where
  /-- What is left of the sample byte stream: the beats on offer at the sample byte port, in stream order. Log 2. -/
  beats : List Beat
  /-- What is left of the sequence of host commands: those on offer at the command port, in order. Log 2. -/
  cmds : List CommandWord
  /-- Whose steps come next; the choice is free once the list is empty. Log 1. -/
  turns : List Turn
  /-- The model's own count of steps, to which the free values of Config are applied. Log 1. -/
  tick : Nat
  deriving DecidableEq, Repr

/-- What one step starts from and ends in: AJRX's state `toAjrx`, and beside it, as `toInputs`, the inputs that are still to come,
which a step as a function of one argument has to be given along with the state (log 2). -/
structure State extends Ajrx, Inputs where
  deriving DecidableEq, Repr

/-- The reasons the machine could stop with a fault: none. R298: SRC beats and COR evaluations never fail; R296: a failing
command ends with a status code in a next state; R292: every opcode, operand, stream byte and state has a defined outcome.
So nothing raises a fault, which is safe: there is nothing the hardware does that the model stops at. Log 11. -/
inductive Fault where
  deriving DecidableEq, Repr

/-- The reasons the model could give an instruction no meaning. -/
inductive Refusal where
  /-- Raised by an arm of exec whose instruction has no meaning yet. No arm raises it; raising it would be safe. -/
  | notModelled (mnemonic : String)
  deriving DecidableEq, Repr

/-- AJRX right after reset (R38, R320). -/
def Ajrx.reset : Ajrx where
  pos := 0
  lo := 0
  bph := false
  sph := false
  h := ⟨0, 0, 0, 0, 0, 0, 0, 0⟩
  w := []
  prev := 0
  eos := false
  srng := false
  fifo := []
  rsp := none

/-- No input: nothing on offer at either port (log 2). -/
def Inputs.none : Inputs where
  beats := []
  cmds := []
  turns := []
  tick := 0

/-- The machine right after reset (R38, R320), with no input yet. -/
def State.reset : State where
  toAjrx := Ajrx.reset
  toInputs := Inputs.none

end Sys2Proof.Machine
end

