-- ==== Sys2Proof/Machine/Ops.lean ====
section
/-! DEFINITION. The shared operations over the state: answering a command, refusing one, resetting, the enabling conditions
of the agents, and the frame FIFO. -/

namespace Sys2Proof.Machine

/-! ### Responses (R84, R290, R296) -/

/-- The status codes (R290). -/
def statusCode : Status → Byte
  | .ok => 0x00
  | .errIllegalOp => 0x01
  | .errArg => 0x02
  | .errEmpty => 0x03
  | .errNotAvail => 0x04
  | .cprBand => 0x10
  | .cprLat => 0x11

/-- The response word (R84): STATUS[183:176], T[175:112], R[111:0]. -/
def responseWord (r : Response) : ResponseWord := statusCode r.status ++ r.t ++ r.r

/-- `respond(T, R)` (R8): the command ends with status OK. -/
def respond (t : Word64) (r : Wide) (s : State) : State := { s with rsp := some ⟨.ok, t, r⟩ }

/-- `raise <Status>` (R8, R296), AJRX's one form of exception: the command ends with that status, T = 0, R = 0, and no state
changes. There is nothing saved, no handler and no return (R297). -/
def raise (status : Status) (s : State) : State := { s with rsp := some ⟨status, 0, 0⟩ }

/-! ### Counters and enabling conditions (R68) -/

/-- COUNT (R26). -/
abbrev count (s : State) : Nat := s.w.length

/-- FCNT (R30). -/
abbrev fcnt (s : State) : Nat := s.fifo.length

/-- The window is full: `isFull()` (R143). -/
def isFull (s : State) : Bool := decide (count s = Config.windowSize)

/-- SRC's enabling condition, also `in_ready` (R80, R121). -/
def srcReady (s : State) : Bool := !s.eos && decide (count s < Config.windowSize)

/-- FCNT < FIFO_DEPTH (R161); an unbounded queue always has room (R173). -/
def fifoHasRoom (depth : FifoDepth) (n : Nat) : Bool :=
  match depth with
  | none => true
  | some d => decide (n < d.val)

/-- FCNT = FIFO_DEPTH, FFULL of R32; never of an unbounded queue. -/
def fifoIsFull (depth : FifoDepth) (n : Nat) : Bool :=
  match depth with
  | none => false
  | some d => decide (n = d.val)

/-- COR's enabling condition for a given FIFO_DEPTH (R161). -/
def corReadyAt (depth : FifoDepth) (s : State) : Bool := isFull s && fifoHasRoom depth (fcnt s)

/-- COR's enabling condition (R161). -/
def corReady (s : State) : Bool := corReadyAt Config.fifoDepth s

/-! ### The frame FIFO (R30) -/

/-- `emit(ts, F)` (R8): append an entry at the tail. -/
def emit (ts : Word64) (frame : Wide) (s : State) : State := { s with fifo := s.fifo ++ [⟨ts, frame⟩] }

/-- Remove the head entry (R272). -/
def dropFrame (s : State) : State := { s with fifo := s.fifo.tail }

/-! ### Reset -/

/-- A reset (R320): every piece of AJRX's state takes its reset value and a response not yet taken is dropped. The inputs are no
part of it: what the environment still has on offer stays on offer (log 20). -/
def resetState (s : State) : State := { s with toAjrx := Ajrx.reset }

end Sys2Proof.Machine
end

