-- ==== Sys2Proof/Machine/Operands.lean ====
section
/-! DEFINITION. The operand forms of the commands: the 64-bit word and its fields, the byte buffer and its big-endian ranges
(20_memory.md R53 to R56, 44_bitfield_bytes.md R210 to R215), and the packing of bytes into a 112-bit field. -/

namespace Sys2Proof.Machine

/-- A field is valid (R211): size in the open interval (0,32) and the range inside the 64-bit word. -/
def validField (start size : Nat) : Bool :=
  decide (1 ≤ size) && decide (size ≤ Config.maxFieldBits) && decide (start + size ≤ Config.wordBits)

/-- `extract(v, start, size) = v[start+size-1 : start]` (R210). -/
def extractField (v : Word64) (start size : Nat) : BitVec size := v.extractLsb' start size

/-- `byte(i)` of a byte buffer, `D[111-8i : 104-8i]` (R53). Used only with i below 14. -/
def byteAt (buf : Wide) (i : Nat) : Byte := buf.extractLsb' (104 - 8 * i) 8

/-- The N bytes of a byte buffer, byte 0 first (R215). -/
def bufBytes (n : Nat) (buf : Wide) : List Byte := (List.range n).map (byteAt buf)

/-- Bytes as a big-endian number: the first byte is the most significant (R56). -/
def bigEndian (bytes : List Byte) : Nat := bytes.foldl (fun acc b => acc * 256 + b.toNat) 0

/-- `MemRead(addr, n)` (R8): the big-endian number formed by n bytes of the buffer from `addr` on. -/
def memRead (buf : Wide) (addr n : Nat) : Nat := bigEndian ((List.range n).map fun j => byteAt buf (addr + j))

/-- A byte buffer's length is one that a command can carry (R215). -/
def validLength (n : Nat) : Bool := decide (n ≤ Config.bufCap)

/-- A byte range is valid (R218): `from <= to <= N` and a span of at most 7 bytes. -/
def validRange (lower upper n : Nat) : Bool :=
  decide (lower ≤ upper) && decide (upper ≤ n) && decide (upper - lower ≤ Config.maxRangeBytes)

/-- Up to 14 bytes as field D: byte i at bits 111-8i to 104-8i, the rest zeros (R53, R95). -/
def packBytes (bytes : List Byte) : Wide :=
  BitVec.ofNat 112 (bigEndian bytes * 256 ^ (Config.bufCap - bytes.length))

end Sys2Proof.Machine
end

