-- ==== Sys2Proof/Machine/Bfx.lean ====
section
/-! DEFINITION. The bit-field extractor and big-endian byte decoder (44_bitfield_bytes.md): XTRU, TBIT, BLEN, BAT, BRNG. Each
reads only its operands and writes only its response. -/

namespace Sys2Proof.Machine

/-- XTRU value, start, size (R212). -/
def execXtru (start size : Nat) (value : Word64) (s : State) : Host.Outcome State Fault Refusal :=
  if validField start size then .next (respond 0 ((extractField value start size).setWidth 112) s)
  else .next (raise .errArg s)

/-- TBIT value, index (R213). -/
def execTbit (index : Nat) (value : Word64) (s : State) : Host.Outcome State Fault Refusal :=
  if index < Config.wordBits then .next (respond 0 ((BitVec.ofBool (value.getLsbD index)).setWidth 112) s)
  else .next (raise .errArg s)

/-- BLEN buf (R216). -/
def execBlen (n : Nat) (_buf : Wide) (s : State) : Host.Outcome State Fault Refusal :=
  if validLength n then .next (respond 0 (BitVec.ofNat 112 n) s) else .next (raise .errArg s)

/-- BAT buf, index (R217). -/
def execBat (index n : Nat) (buf : Wide) (s : State) : Host.Outcome State Fault Refusal :=
  if validLength n && decide (index < n) then .next (respond 0 ((byteAt buf index).setWidth 112) s)
  else .next (raise .errArg s)

/-- BRNG buf, from, to (R218). -/
def execBrng (lower upper n : Nat) (buf : Wide) (s : State) : Host.Outcome State Fault Refusal :=
  if validLength n && validRange lower upper n then
    .next (respond 0 (BitVec.ofNat 112 (memRead buf lower (upper - lower))) s)
  else .next (raise .errArg s)

end Sys2Proof.Machine
end

