-- ==== Sys2Proof/Machine/Cpr.lean ====
section
/-! DEFINITION. The CPR position decoder (45_cpr.md), in the exact integer arithmetic that the spec gives it, and the command
CPRD. The functions take the spec's open parameters as arguments; CPRD applies them to the constants of Config. -/

namespace Sys2Proof.Machine

/-- S = 2^17 (R230). -/
abbrev cprS : Int := Config.cprScale

/-! ### Rounding -/

/-- `round_tie(num, den)` for a positive `den` (R233). Lean's `/` and `%` on integers are, for a positive divisor, the floor and
the remainder in [0, den). -/
def roundTie (tie : RoundTie) (num den : Int) : Int :=
  let q := num / den
  let r := num % den
  if 2 * r < den then q
  else if den < 2 * r then q + 1
  else
    match tie with
    | .halfUp => q + 1
    | .halfEven => if q % 2 = 0 then q else q + 1
    | .halfAway => if 0 ≤ num then q + 1 else q

/-- `round_nearest(num, den) = floor((2*num + den) / (2*den))` (R246). -/
def roundNearest (num den : Int) : Int := (2 * num + den) / (2 * den)

/-! ### The zone procedure shared by latitude and longitude (R236 to R238, R244, R245) -/

/-- "Add back the respective zone count if negative" (R236, R244). One addition is made. -/
def addBack (z zones : Int) : Int := if z < 0 then z + zones else z

/-- Recentering: a value above half a turn is shifted by one turn; the comparison is strict (R238, R245). -/
def recenter (v zones : Int) : Int := if zones * cprS < 2 * v then v - zones * cprS else v

/-- `width * (zone + normalizedValue)` on the grid of `zones`, recentered. -/
def zonePosition (z zones value : Int) : Int := recenter (addBack z zones * cprS + value) zones

/-! ### Latitude -/

/-- The common zone index (R235). -/
def latZoneIndex (p : CprParams) (yze yzo : Nat) : Int := roundTie p.tie (59 * yze - 60 * yzo) cprS

/-- The even-derived latitude (R236 to R238). -/
def latEven (p : CprParams) (yze yzo : Nat) : Int := zonePosition (latZoneIndex p yze yzo) 60 yze

/-- The odd-derived latitude (R236 to R238). -/
def latOdd (p : CprParams) (yze yzo : Nat) : Int := zonePosition (latZoneIndex p yze yzo) 59 yzo

/-! ### The number of longitude zones -/

/-- TE[2..59] (R240), a constant of AJRX (R35). -/
def teTable : List Int :=
  [1900544, 1890394, 1873355, 1854486, 1834827, 1814735, 1794366, 1773797, 1753071, 1732210,
   1711226, 1690127, 1668914, 1647587, 1626143, 1604578, 1582887, 1561064, 1539102, 1516992,
   1494728, 1472298, 1449693, 1426903, 1403915, 1380718, 1357297, 1333639, 1309728, 1285546,
   1261075, 1236297, 1211187, 1185724, 1159881, 1133629, 1106935, 1079765, 1052079, 1023832,
   994973, 965444, 935179, 904102, 872121, 839132, 805006, 769589, 732691, 694072,
   653423, 610336, 564248, 514349, 459394, 397284, 323926, 228730]

/-- TO[2..59] (R240), a constant of AJRX (R35). -/
def toTable : List Int :=
  [1868868, 1858887, 1842133, 1823578, 1804247, 1784489, 1764460, 1744234, 1723853, 1703339,
   1682706, 1661958, 1641099, 1620127, 1599040, 1577835, 1556506, 1535046, 1513450, 1491709,
   1469815, 1447759, 1425532, 1403121, 1380517, 1357706, 1334676, 1311412, 1287899, 1264120,
   1240057, 1215692, 1191001, 1165962, 1140550, 1114735, 1088486, 1061769, 1034545, 1006768,
   978390, 949353, 919593, 889033, 857586, 825146, 791589, 756762, 720479, 682504,
   642533, 600164, 554844, 505776, 451737, 390663, 318527, 224918]

/-- T[k] for k in 2 to 59. -/
def threshold (table : List Int) (k : Nat) : Int := table.getD (k - 2) (-1)

/-- The largest k in 2 to 59 with `a <= T[k]`, and 1 if there is none (R240), found by scanning down from 59. -/
def largestZone (table : List Int) (a : Int) : Nat :=
  (((List.range 58).map fun j => 59 - j).find? fun k => decide (a ≤ threshold table k)).getD 1

def nlEqCount : NlEq → Nat
  | .fiftyNine => 59
  | .sixty => 60

def nl87Count : Nl87 → Nat
  | .one => 1
  | .two => 2

/-- The latitude folded about a quarter turn (R240); half a turn is `Z*(S/2)`. -/
def foldLatitude (l zones : Int) : Int :=
  if zones * cprS < 4 * |l| then zones * (cprS / 2) - |l| else |l|

/-- `NLgrid(L, Z, T)` (R240, R241). -/
def nlGrid (p : CprParams) (l zones : Int) (table : List Int) : Nat :=
  let a := foldLatitude l zones
  if a = 0 then nlEqCount p.nlEq
  else if 4 * a = zones * cprS then 1
  else if zones = 60 ∧ a = 1900544 then nl87Count p.nl87
  else largestZone table a

/-- `NL_E(L)` (R240). -/
def nlEven (p : CprParams) (l : Int) : Nat := nlGrid p l 60 teTable

/-- `NL_O(L)` (R240). -/
def nlOdd (p : CprParams) (l : Int) : Nat := nlGrid p l 59 toTable

/-! ### Longitude (R243 to R245) -/

/-- `n_e` (R243, R244). -/
def lonZonesEven (nl : Nat) : Int := if nl = 1 then 1 else nl

/-- `n_o` (R243, R244). -/
def lonZonesOdd (nl : Nat) : Int := if nl = 1 then 1 else nl - 1

/-- The common longitude zone index `m` (R244). -/
def lonZoneIndex (p : CprParams) (nl xze xzo : Nat) : Int := roundTie p.tie (xze * (nl - 1) - xzo * nl) cprS

/-- The even-derived longitude (R243 to R245). -/
def lonEven (p : CprParams) (nl xze xzo : Nat) : Int :=
  if nl = 1 then recenter xze 1 else zonePosition (lonZoneIndex p nl xze xzo) (lonZonesEven nl) xze

/-- The odd-derived longitude (R243 to R245). -/
def lonOdd (p : CprParams) (nl xze xzo : Nat) : Int :=
  if nl = 1 then recenter xzo 1 else zonePosition (lonZoneIndex p nl xze xzo) (lonZonesOdd nl) xzo

/-! ### Selection and output (R246, R247) -/

/-- An angle of `v / (zones * S)` turns as a T32 number (R246). -/
def toT32 (v zones : Int) : Int := roundNearest (v * 32768) zones

/-- The wrap of a longitude into [-2^31, 2^31) (R246). -/
def wrap32 (v : Int) : Int := (v + 2147483648) % 4294967296 - 2147483648

/-- What CPRD comes to: a position in T32 units, or one of the two validation failures (R250). -/
inductive CprOutcome where
  | position (lat32 lon32 : Int)
  | band
  | latitude
  deriving DecidableEq, Repr

/-- The latitude test (R247): `4*|L| > Z*S` is outside 90 degrees. -/
def latitudeOutside (l zones : Int) : Bool := decide (zones * cprS < 4 * |l|)

/-- The whole procedure of R248, for given parameters. -/
def cprDecode (p : CprParams) (xze yze xzo yzo : Nat) (odd : Bool) : CprOutcome :=
  let le := latEven p yze yzo
  let lo := latOdd p yze yzo
  let nl := nlEven p le
  if nl ≠ nlOdd p lo then .band
  else if odd then
    if latitudeOutside lo 59 then .latitude
    else .position (toT32 lo 59) (wrap32 (toT32 (lonOdd p nl xze xzo) (lonZonesOdd nl)))
  else if latitudeOutside le 60 then .latitude
  else .position (toT32 le 60) (wrap32 (toT32 (lonEven p nl xze xzo) (lonZonesEven nl)))

/-- The CPR result pack (R107): latitude in R[31:0], longitude in R[63:32], two's complement. -/
def packPosition (lat32 lon32 : Int) : Wide := (BitVec.ofInt 32 lon32 ++ BitVec.ofInt 32 lat32).setWidth 112

/-- What CPRD answers for what it comes to (R248, R250). -/
def answerCpr (outcome : CprOutcome) (s : State) : State :=
  match outcome with
  | .position lat32 lon32 => respond 0 (packPosition lat32 lon32) s
  | .band => raise .cprBand s
  | .latitude => raise .cprLat s

/-- CPRD for given parameters (R248). -/
def cprdAt (p : CprParams) (xze yze xzo yzo : Nat) (odd : Bool) (s : State) : State :=
  answerCpr (cprDecode p xze yze xzo yzo odd) s

/-- CPRD xze, yze, xzo, yzo, p (R248). -/
def execCprd (xze yze xzo yzo : Nat) (odd : Bool) (s : State) : Host.Outcome State Fault Refusal :=
  .next (cprdAt Config.cprParams xze yze xzo yzo odd s)

end Sys2Proof.Machine
end

