-- ==== Sys2Proof/Machine/Crc.lean ====
section
/-! DEFINITION. The CRC-24 unit (43_crc24.md): the bit-by-bit function that the machine uses, the byte-at-a-time algorithm with
its 256-entry table, and the command CRC. -/

namespace Sys2Proof.Machine

/-- One iteration of the inner loop of R192: shift the bit in and reduce if a one was shifted out. -/
def crcBit (crc : Crc) (b : Bool) : Crc :=
  let shifted := (crc <<< 1) ||| (BitVec.ofBool b).setWidth 24
  if crc.getLsbD 23 then shifted ^^^ Config.crcGenerator else shifted

/-- The bits of a byte, most significant first (R57, R192). -/
def byteBits (b : Byte) : List Bool := [7, 6, 5, 4, 3, 2, 1, 0].map b.getLsbD

/-- The inner loop of R192 over the eight bits of a byte. -/
def crcByte (crc : Crc) (b : Byte) : Crc := (byteBits b).foldl crcBit crc

/-- The augmentation: the message followed by CRC_AUGMENT_BYTES zero bytes (R4, R192). -/
def augment (bytes : List Byte) : List Byte := bytes ++ [0, 0, 0]

/-- `crc24(bytes)`, the bit-by-bit reference algorithm (R192). -/
def crc24 (bytes : List Byte) : Crc := (augment bytes).foldl crcByte 0

/-- Entries 0x0 to 0x3f of CRC_TABLE (R195). -/
def crcTable0 : List Crc :=
  [0x000000, 0xFFF409, 0x001C1B, 0xFFE812, 0x003836, 0xFFCC3F, 0x00242D, 0xFFD024,
   0x00706C, 0xFF8465, 0x006C77, 0xFF987E, 0x00485A, 0xFFBC53, 0x005441, 0xFFA048,
   0x00E0D8, 0xFF14D1, 0x00FCC3, 0xFF08CA, 0x00D8EE, 0xFF2CE7, 0x00C4F5, 0xFF30FC,
   0x0090B4, 0xFF64BD, 0x008CAF, 0xFF78A6, 0x00A882, 0xFF5C8B, 0x00B499, 0xFF4090,
   0x01C1B0, 0xFE35B9, 0x01DDAB, 0xFE29A2, 0x01F986, 0xFE0D8F, 0x01E59D, 0xFE1194,
   0x01B1DC, 0xFE45D5, 0x01ADC7, 0xFE59CE, 0x0189EA, 0xFE7DE3, 0x0195F1, 0xFE61F8,
   0x012168, 0xFED561, 0x013D73, 0xFEC97A, 0x01195E, 0xFEED57, 0x010545, 0xFEF14C,
   0x015104, 0xFEA50D, 0x014D1F, 0xFEB916, 0x016932, 0xFE9D3B, 0x017529, 0xFE8120]

/-- Entries 0x40 to 0x7f of CRC_TABLE (R195). -/
def crcTable1 : List Crc :=
  [0x038360, 0xFC7769, 0x039F7B, 0xFC6B72, 0x03BB56, 0xFC4F5F, 0x03A74D, 0xFC5344,
   0x03F30C, 0xFC0705, 0x03EF17, 0xFC1B1E, 0x03CB3A, 0xFC3F33, 0x03D721, 0xFC2328,
   0x0363B8, 0xFC97B1, 0x037FA3, 0xFC8BAA, 0x035B8E, 0xFCAF87, 0x034795, 0xFCB39C,
   0x0313D4, 0xFCE7DD, 0x030FCF, 0xFCFBC6, 0x032BE2, 0xFCDFEB, 0x0337F9, 0xFCC3F0,
   0x0242D0, 0xFDB6D9, 0x025ECB, 0xFDAAC2, 0x027AE6, 0xFD8EEF, 0x0266FD, 0xFD92F4,
   0x0232BC, 0xFDC6B5, 0x022EA7, 0xFDDAAE, 0x020A8A, 0xFDFE83, 0x021691, 0xFDE298,
   0x02A208, 0xFD5601, 0x02BE13, 0xFD4A1A, 0x029A3E, 0xFD6E37, 0x028625, 0xFD722C,
   0x02D264, 0xFD266D, 0x02CE7F, 0xFD3A76, 0x02EA52, 0xFD1E5B, 0x02F649, 0xFD0240]

/-- Entries 0x80 to 0xbf of CRC_TABLE (R195). -/
def crcTable2 : List Crc :=
  [0x0706C0, 0xF8F2C9, 0x071ADB, 0xF8EED2, 0x073EF6, 0xF8CAFF, 0x0722ED, 0xF8D6E4,
   0x0776AC, 0xF882A5, 0x076AB7, 0xF89EBE, 0x074E9A, 0xF8BA93, 0x075281, 0xF8A688,
   0x07E618, 0xF81211, 0x07FA03, 0xF80E0A, 0x07DE2E, 0xF82A27, 0x07C235, 0xF8363C,
   0x079674, 0xF8627D, 0x078A6F, 0xF87E66, 0x07AE42, 0xF85A4B, 0x07B259, 0xF84650,
   0x06C770, 0xF93379, 0x06DB6B, 0xF92F62, 0x06FF46, 0xF90B4F, 0x06E35D, 0xF91754,
   0x06B71C, 0xF94315, 0x06AB07, 0xF95F0E, 0x068F2A, 0xF97B23, 0x069331, 0xF96738,
   0x0627A8, 0xF9D3A1, 0x063BB3, 0xF9CFBA, 0x061F9E, 0xF9EB97, 0x060385, 0xF9F78C,
   0x0657C4, 0xF9A3CD, 0x064BDF, 0xF9BFD6, 0x066FF2, 0xF99BFB, 0x0673E9, 0xF987E0]

/-- Entries 0xc0 to 0xff of CRC_TABLE (R195). -/
def crcTable3 : List Crc :=
  [0x0485A0, 0xFB71A9, 0x0499BB, 0xFB6DB2, 0x04BD96, 0xFB499F, 0x04A18D, 0xFB5584,
   0x04F5CC, 0xFB01C5, 0x04E9D7, 0xFB1DDE, 0x04CDFA, 0xFB39F3, 0x04D1E1, 0xFB25E8,
   0x046578, 0xFB9171, 0x047963, 0xFB8D6A, 0x045D4E, 0xFBA947, 0x044155, 0xFBB55C,
   0x041514, 0xFBE11D, 0x04090F, 0xFBFD06, 0x042D22, 0xFBD92B, 0x043139, 0xFBC530,
   0x054410, 0xFAB019, 0x05580B, 0xFAAC02, 0x057C26, 0xFA882F, 0x05603D, 0xFA9434,
   0x05347C, 0xFAC075, 0x052867, 0xFADC6E, 0x050C4A, 0xFAF843, 0x051051, 0xFAE458,
   0x05A4C8, 0xFA50C1, 0x05B8D3, 0xFA4CDA, 0x059CFE, 0xFA68F7, 0x0580E5, 0xFA74EC,
   0x05D4A4, 0xFA20AD, 0x05C8BF, 0xFA3CB6, 0x05EC92, 0xFA189B, 0x05F089, 0xFA0480]

/-- CRC_TABLE (R195), a constant of AJRX and not state (R35). -/
def crcTable : List Crc := crcTable0 ++ crcTable1 ++ crcTable2 ++ crcTable3

/-- One iteration of the loop of R194: `(((crc << 8) | b) mod 2^24) ^ CRC_TABLE[crc[23:16]]`. -/
def crcByteByTable (crc : Crc) (b : Byte) : Crc :=
  ((crc <<< 8) ||| b.setWidth 24) ^^^ crcTable.getD (crc.extractLsb' 16 8).toNat 0

/-- The table-driven algorithm (R194). AJRX may implement either; they are the same function (log 14). -/
def crc24ByTable (bytes : List Byte) : Crc := (augment bytes).foldl crcByteByTable 0

/-- CRC buf (R197): the CRC of the N bytes, with status OK whether or not it is zero (R198). -/
def execCrc (n : Nat) (buf : Wide) (s : State) : Host.Outcome State Fault Refusal :=
  if validLength n then .next (respond 0 ((crc24 (bufBytes n buf)).setWidth 112) s) else .next (raise .errArg s)

end Sys2Proof.Machine
end

