-- ==== Sys2Proof/Machine/Flags.lean ====
section
/-! DEFINITION. The flags of STATUS, the six status registers and the output ports (10_state.md R32 to R34, 30_encoding.md R80,
60_exceptions.md R305). All are functions of the state. -/

namespace Sys2Proof.Machine

/-- DONE (R29): the stream has ended and the window can no longer be filled. -/
def doneFlag (s : State) : Bool := s.eos && decide (count s < Config.windowSize)

/-- FNE (R32): the frame FIFO is not empty. -/
def fneFlag (s : State) : Bool := decide (0 < fcnt s)

/-- FFULL (R32) for a given FIFO_DEPTH. -/
def ffullFlagAt (depth : FifoDepth) (s : State) : Bool := fifoIsFull depth (fcnt s)

/-- SR0, STATUS (R32) for a given FIFO_DEPTH: EOS is bit 0; bits 63:7 read as 0. -/
def statusWordAt (depth : FifoDepth) (s : State) : Word64 :=
  BitVec.setWidth 64
    (BitVec.ofBool s.sph ++ BitVec.ofBool s.bph ++ BitVec.ofBool (ffullFlagAt depth s) ++ BitVec.ofBool (fneFlag s) ++
      BitVec.ofBool s.srng ++ BitVec.ofBool (doneFlag s) ++ BitVec.ofBool s.eos)

/-- SR0, STATUS (R32). -/
def statusWord (s : State) : Word64 := statusWordAt Config.fifoDepth s

/-- SR0 to SR5 (R32, R33); other numbers do not exist and RDSR never reads them. -/
def statusRegister (n : Nat) (s : State) : Option Word64 :=
  match n with
  | 0 => some (statusWord s)
  | 1 => some s.pos
  | 2 => some (BitVec.ofNat 64 (count s))
  | 3 => some (s.prev.setWidth 64)
  | 4 => some (BitVec.ofNat 64 (fcnt s))
  | 5 => some Config.idConstant
  | _ => none

/-! ### The ports (R80) -/

/-- `in_valid`, an input: a beat is offered. -/
def inValid (s : State) : Bool := !s.beats.isEmpty

/-- `in_ready` (R80). -/
def inReady (s : State) : Bool := srcReady s

/-- `cmd_valid`, an input: a command is offered. -/
def cmdValid (s : State) : Bool := !s.cmds.isEmpty

/-- `cmd_ready`, always 1 (R80). -/
def cmdReady (_ : State) : Bool := true

/-- `rsp_valid` (R80). -/
def rspValid (s : State) : Bool := s.rsp.isSome

/-- `rsp` (R80): the response word, and any value at all while no response is present (U24, log 6). -/
def rspLines (s : State) : ResponseWord :=
  match s.rsp with
  | some r => responseWord r
  | none => Config.idleResponse s.tick

/-- `frame_irq`, equal to STATUS.FNE (R305). -/
def frameIrq (s : State) : Bool := fneFlag s

/-- `done`, equal to STATUS.DONE (R305). -/
def donePort (s : State) : Bool := doneFlag s

end Sys2Proof.Machine
end

