-- ==== Sys2Proof/Machine/Window.lean ====
section
/-! DEFINITION. The sliding window (41_window.md): the five operations of R142 to R146 and SRC's append (R125). -/

namespace Sys2Proof.Machine

/-- `position()` (R142). -/
def position (s : State) : Word64 := s.pos

/-- `get(i)` as a number (R144), precondition `i < COUNT`. The value outside it is never read: COR reads only when
`COUNT = 1200` and only below 1196, and WGET checks both bounds (log 10). -/
def windowGet (s : State) (i : Nat) : Nat := (s.w.getD i 0).toNat

/-- `advance()` (R145), precondition `1 <= COUNT`. DESIGN CHOICE on an empty window, where the spec is silent: the window stays
empty and POS still moves on by one. No step calls it there: COR advances a full window only (log 10). -/
def advance (s : State) : State := { s with w := s.w.tail, pos := s.pos + 1 }

/-- `advanceBy(n)` (R146), precondition `1 <= n <= COUNT`. DESIGN CHOICE outside it, where the spec is silent (N14): n = 0 changes
nothing, and n above COUNT empties the window; POS moves on by n either way. No step calls it there: COR calls it with n = 1200
and COUNT = 1200 only (log 10). -/
def advanceBy (n : Nat) (s : State) : State := { s with w := s.w.drop n, pos := s.pos + BitVec.ofNat 64 n }

/-- `W[COUNT] <- p; COUNT <- COUNT + 1` (R125). -/
def appendPower (p : Power) (s : State) : State := { s with w := s.w ++ [p] }

end Sys2Proof.Machine
end

