-- ==== Sys2Proof/Machine/HostCmds.lean ====
section
/-! DEFINITION. The three commands that touch AJRX's state: POPF, WGET and RDSR (46_host_system.md). -/

namespace Sys2Proof.Machine

/-- POPF (R272): the head entry is removed and returned in one step; an empty FIFO is ERR_EMPTY. -/
def execPopf (s : State) : Host.Outcome State Fault Refusal :=
  match s.fifo with
  | [] => .next (raise .errEmpty s)
  | e :: _ => .next (respond e.ts e.frame (dropFrame s))

/-- WGET i (R274): ERR_ARG outside the window size, ERR_NOT_AVAIL where no value stands yet. -/
def execWget (i : Nat) (s : State) : Host.Outcome State Fault Refusal :=
  if Config.windowSize ≤ i then .next (raise .errArg s)
  else if count s ≤ i then .next (raise .errNotAvail s)
  else .next (respond 0 (BitVec.ofNat 112 (windowGet s i)) s)

/-- RDSR n (R276): a register's value, ERR_ARG for a number that does not exist. -/
def execRdsr (n : Nat) (s : State) : Host.Outcome State Fault Refusal :=
  match statusRegister n s with
  | some v => .next (respond 0 (v.setWidth 112) s)
  | none => .next (raise .errArg s)

end Sys2Proof.Machine
end

