-- ==== Sys2Proof/Machine/Stream.lean ====
section
/-! DEFINITION. The sample byte port: sample decode, the quadrature power filter, IN.BYTE and IN.LAST (40_sample_power.md). -/

namespace Sys2Proof.Machine

/-- The sample of a word (R120): `w[11:0] - 2048`, a signed number in [-2048, 2047]. -/
def sampleOf (w : SampleWord) : Sample := BitVec.ofInt 12 ((w.extractLsb' 0 12).toNat - Config.sampleBias)

/-- The word is above 4095 (R122): `w[15:12] != 0`. -/
def outOfRange (w : SampleWord) : Bool := w.extractLsb' 12 4 != 0

/-- The shift of H (R123). -/
def shiftHistory (x : Sample) (h : History) : History := ⟨x, h.h0, h.h1, h.h2, h.h3, h.h4, h.h5, h.h6⟩

/-- The sum `a` of R125, over the history after the shift. -/
def sumA (h : History) : Int := h.h0.toInt - h.h2.toInt + h.h4.toInt - h.h6.toInt

/-- The sum `b` of R125. -/
def sumB (h : History) : Int := h.h1.toInt - h.h3.toInt + h.h5.toInt - h.h7.toInt

/-- `a*a + b*b` (R125); R126 shows that it fits 27 bits. -/
def powerOf (h : History) : Power := BitVec.ofNat 27 (sumA h * sumA h + sumB h * sumB h).toNat

/-- `push_power()` (R125). -/
def pushPower (s : State) : State := appendPower (powerOf s.h) s

/-- The sample word check (R122): the sticky flag SRNG. -/
def checkRange (w : SampleWord) (s : State) : State := { s with srng := s.srng || outOfRange w }

/-- The history shift (R123). -/
def shiftSample (x : Sample) (s : State) : State := { s with h := shiftHistory x s.h }

/-- The pair phase (R123): the second sample of a pair produces a power value from the shifted history. -/
def pairPhase (s : State) : State :=
  if s.sph then pushPower { s with sph := false } else { s with sph := true }

/-- `decode_and_filter(w)` (R122, R123, R125). -/
def decodeAndFilter (w : SampleWord) (s : State) : State := pairPhase (shiftSample (sampleOf w) (checkRange w s))

/-- The effect of an accepted IN.BYTE (R121): the first byte of a word is kept in LO, the second completes the word as its
high byte (R55). -/
def acceptByte (d : Byte) (s : State) : State :=
  if s.bph then decodeAndFilter (d ++ s.lo) { s with bph := false } else { s with lo := d, bph := true }

/-- IN.BYTE d (R121). While SRC is held the byte waits and nothing changes (log 7). -/
def execInByte (d : Byte) (s : State) : Host.Outcome State Fault Refusal :=
  if srcReady s then .next (acceptByte d s) else .next s

/-- IN.LAST (R128): EOS is set and nothing else changes. While SRC is held the beat waits (log 7). -/
def execInLast (s : State) : Host.Outcome State Fault Refusal :=
  if srcReady s then .next { s with eos := true } else .next s

end Sys2Proof.Machine
end

