-- ==== Sys2Proof/Machine/Dispatch.lean ====
section
/-! DEFINITION. One arm per operation, each a call of its meaning. -/

namespace Sys2Proof.Machine

def exec (i : Instr) (s : State) : Host.Outcome State Fault Refusal :=
  match i with
  | .xtru start size value => Sys2Proof.Machine.execXtru start size value s
  | .tbit index value => Sys2Proof.Machine.execTbit index value s
  | .blen n buf => Sys2Proof.Machine.execBlen n buf s
  | .bat index n buf => Sys2Proof.Machine.execBat index n buf s
  | .brng lower upper n buf => Sys2Proof.Machine.execBrng lower upper n buf s
  | .crc n buf => Sys2Proof.Machine.execCrc n buf s
  | .cprd xze yze xzo yzo odd => Sys2Proof.Machine.execCprd xze yze xzo yzo odd s
  | .popf => Sys2Proof.Machine.execPopf s
  | .wget k => Sys2Proof.Machine.execWget k s
  | .rdsr n => Sys2Proof.Machine.execRdsr n s
  | .inByte d => Sys2Proof.Machine.execInByte d s
  | .inLast => Sys2Proof.Machine.execInLast s

end Sys2Proof.Machine
end

