-- ==== Sys2Proof/Machine/Frame.lean ====
section
/-! DEFINITION. The data formats of a frame and of an airborne-position message (30_encoding.md R100 to R105): what the host reads
out of a popped frame with the byte and bit commands. AJRX itself looks only at DF (R104, U33). -/

namespace Sys2Proof.Machine

/-- DF, the downlink format of a frame's byte 0 (R100): `byte(0) >> 3`. -/
def frameDf (frame : Wide) : Nat := (byteAt frame 0).toNat / 8

/-- CA (R100): `byte(0) & 7`. -/
def frameCa (frame : Wide) : Nat := (byteAt frame 0).toNat % 8

/-- The ICAO address (R100): bytes 1 to 3. -/
def frameIcao (frame : Wide) : Nat := memRead frame 1 3

/-- The ME payload (R100): bytes 4 to 10. -/
def frameMe (frame : Wide) : Word64 := BitVec.ofNat 64 (memRead frame 4 7)

/-- The parity/CRC field (R100): bytes 11 to 13. -/
def framePi (frame : Wide) : Nat := memRead frame 11 3

/-- The type code of a ME payload (R102): ME[55:51]. -/
def meTypeCode (me : Word64) : Nat := (extractField me 51 5).toNat

/-- The variants of the type-code dispatch table (R104). -/
inductive MessageKind where
  | identification
  | airbornePosition
  | airborneVelocity
  | none
  deriving DecidableEq, Repr

/-- The type-code dispatch table (R104). AJRX does not enforce it. -/
def messageKind (typeCode : Nat) : MessageKind :=
  if 1 ≤ typeCode ∧ typeCode ≤ 4 then .identification
  else if (9 ≤ typeCode ∧ typeCode ≤ 18) ∨ (20 ≤ typeCode ∧ typeCode ≤ 22) then .airbornePosition
  else if typeCode = 19 then .airborneVelocity
  else .none

/-- CPR longitude of a position message, ME[16:0] (R105). -/
def meCprX (me : Word64) : Nat := (extractField me 0 17).toNat

/-- CPR latitude, ME[33:17] (R105). -/
def meCprY (me : Word64) : Nat := (extractField me 17 17).toNat

/-- The parity bit, ME[34] (R105): true is odd. -/
def meCprOdd (me : Word64) : Bool := me.getLsbD 34

/-- The altitude field, ME[47:36] (R105); its decoding is out of scope. -/
def meAltitudeField (me : Word64) : Nat := (extractField me 36 12).toNat

end Sys2Proof.Machine
end

