-- ==== Sys2Proof/Machine/Pcs.lean ====
section
/-! DEFINITION. The preamble correlator and payload bit slicer (42_correlator_slicer.md): COR.EVAL, the one operation of COR. What
it decides is a function of the window's entries and PREV, so it is given over any window `get : Nat -> Nat`. -/

namespace Sys2Proof.Machine

/-- The sum of the four peak slots at offset `o` (R162): `sumP` at 0, `sumPn` at 1. -/
def peakSum (get : Nat → Nat) (o : Nat) : Nat := get o + get (o + 10) + get (o + 35) + get (o + 45)

/-- The sum of the six valley slots (R162). -/
def valleySum (get : Nat → Nat) : Nat := get 5 + get 15 + get 20 + get 25 + get 30 + get 40

/-- The preamble test (R164). -/
def preambleTest (get : Nat → Nat) (prev : Nat) : Bool :=
  decide (2 * valleySum get ≤ peakSum get 0) && decide (prev < peakSum get 0) && decide (peakSum get 1 < peakSum get 0)

/-- Payload bit k (R166): 0 if the first half is smaller, else 1. -/
def slicedBit (get : Nat → Nat) (k : Nat) : Bool := !decide (get (80 + 10 * k) < get (85 + 10 * k))

/-- Frame byte j (R167): the first bit sliced is the most significant. -/
def slicedByte (get : Nat → Nat) (j : Nat) : Byte :=
  BitVec.ofNat 8 ((List.range 8).foldl (fun acc i => 2 * acc + (slicedBit get (8 * j + i)).toNat) 0)

/-- The 14 bytes F[0..13] (R161). -/
def slicedBytes (get : Nat → Nat) : List Byte := (List.range Config.bufCap).map (slicedByte get)

/-- The frame at a window position, if the preamble test, the DF gate (R168) and the CRC gate (R169) all pass. -/
def candidateFrame (get : Nat → Nat) (prev : Nat) : Option Wide :=
  if preambleTest get prev then
    if (slicedByte get 0).toNat / 8 = Config.dfAdsb then
      if crc24 (slicedBytes get) = 0 then some (packBytes (slicedBytes get)) else none
    else none
  else none

/-- The timestamp of a frame found now (R169): `(POS * 100) mod 2^64`. -/
def timestampNow (s : State) : Word64 := s.pos * BitVec.ofNat 64 Config.nsPerPosition

/-- Rejection (R170): one position on, PREV takes the peak-sum of the rejected position. -/
def rejectPosition (s : State) : State :=
  { advance s with prev := BitVec.ofNat 29 (peakSum (windowGet s) 0) }

/-- Acceptance (R169, R171): the frame is queued, the window skips 1200 positions and PREV is 0. -/
def acceptFrame (frame : Wide) (s : State) : State :=
  { advanceBy Config.windowSize (emit (timestampNow s) frame s) with prev := 0 }

/-- COR.EVAL (R161), where it is enabled. It never fails (R298). -/
def corEval (s : State) : State :=
  match candidateFrame (windowGet s) s.prev.toNat with
  | some frame => acceptFrame frame s
  | none => rejectPosition s

/-- COR's turn for a given FIFO_DEPTH: one evaluation where it is enabled (R161), nothing while it is held (R173). -/
def corTurnAt (depth : FifoDepth) (s : State) : State := if corReadyAt depth s then corEval s else s

end Sys2Proof.Machine
end

