-- ==== Sys2Proof/Machine/Agents.lean ====
section
/-! DEFINITION. The agents' steps: whose turn it is, the fetch of a beat or a command from its port, and what each agent does
with it (00_scope.md R9, 20_memory.md R68, R69, 30_encoding.md R80, R86). -/

namespace Sys2Proof.Machine

/-- Whose step comes next, and the state with that turn taken: the environment's list of turns, and past its end a free
choice, since R68 lets any enabled step be taken next (log 1). -/
def takeTurn (s : State) : Turn × State :=
  match s.turns with
  | [] => (Config.freeTurn s.tick, { s with tick := s.tick + 1 })
  | t :: rest => (t, { s with turns := rest, tick := s.tick + 1 })

/-- The beat on offer at the sample byte port and the state after the port's transfer. A transfer happens when in_valid and
in_ready are both 1 (R80): while SRC is held the beat stays on offer (R121, U13). -/
def fetchBeat (s : State) : Option (Instr × State) :=
  match s.beats with
  | [] => none
  | b :: rest => some (decodeBeat b, if srcReady s then { s with beats := rest } else s)

/-- The command on offer at the command port, decoded, and the state after its transfer: cmd_ready is always 1 (R80). -/
def fetchCommand (s : State) : Option (Except DecodeError Instr × State) :=
  match s.cmds with
  | [] => none
  | c :: rest => some (decodeCommand c, { s with cmds := rest })

/-- SRC's turn: one beat, if one is on offer (R130: a source may offer nothing). -/
def srcTurn (s : State) : Host.Outcome State Fault Refusal :=
  match fetchBeat s with
  | none => .next s
  | some (i, s') => exec i s'

/-- HOST's turn: one command with its response, if one is on offer (R86). A reserved opcode is answered ERR_ILLEGAL_OP before
anything else is looked at (R91, R294). -/
def hostTurn (s : State) : Host.Outcome State Fault Refusal :=
  match fetchCommand s with
  | none => .next s
  | some (.error _, s') => .next (raise .errIllegalOp s')
  | some (.ok i, s') => exec i s'

/-- The step of the agent whose turn it is. -/
def turnStep (t : Turn) (s : State) : Host.Outcome State Fault Refusal :=
  match t with
  | .src => srcTurn s
  | .cor => .next (corTurnAt Config.fifoDepth s)
  | .host => hostTurn s
  | .rst => .next (resetState s)

/-- An operation put first in line at its port, and its agent's turn put first: a beat for SRC, a command for HOST. -/
def offer (e : Encoding) (s : State) : State :=
  match e with
  | .beat b => { s with beats := b :: s.beats, turns := .src :: s.turns }
  | .command c => { s with cmds := c :: s.cmds, turns := .host :: s.turns }

end Sys2Proof.Machine
end

