-- ==== Sys2Proof/Machine/Step.lean ====
section
/-! DEFINITION. One step of AJRX (R9): the agent whose turn it is takes its step. -/

namespace Sys2Proof.Machine

/-- One step: exactly one of SRC, COR and HOST moves, or the block is reset (R9, R320). -/
def step (s : State) : Host.Outcome State Fault Refusal := turnStep (takeTurn s).1 (takeTurn s).2

/-- `s` with an opcode-table word placed where the very next step takes it: on offer first at its port, its agent's turn
first (log 2, log 12). -/
def State.withFetchWord (s : State) (nbits w : Nat) : State := offer (tableWord nbits w) s

end Sys2Proof.Machine
end

