-- ==== Sys2Proof/Machine/Assembler.lean ====
section
/-! DEFINITION. The assembler (30_encoding.md R95, R97): byte-buffer literals, the operands of a line and their tokens, the command
lines and the words they assemble to, and the pseudo-commands with their expansions. -/

namespace Sys2Proof.Machine

/-! ### Byte-buffer literals (R95) -/

/-- The value of a hexadecimal digit. -/
def hexDigit (c : Char) : Option Nat :=
  if '0' ≤ c ∧ c ≤ '9' then some (c.toNat - 48)
  else if 'A' ≤ c ∧ c ≤ 'F' then some (c.toNat - 55)
  else if 'a' ≤ c ∧ c ≤ 'f' then some (c.toNat - 87)
  else none

/-- The bytes of a literal's digits, two digits a byte, byte 0 first; an odd number of digits is no literal. -/
def hexBytes : List Char → Option (List Byte)
  | [] => some []
  | [_] => none
  | c :: d :: rest =>
    match hexDigit c, hexDigit d, hexBytes rest with
    | some x, some y, some bytes => some (BitVec.ofNat 8 (16 * x + y) :: bytes)
    | _, _, _ => none

/-- A byte-buffer literal of a command: at most 28 digits (R95). A `.feed` literal has no such limit (R96). -/
def bufferLiteral (digits : List Char) : Option (List Byte) :=
  match hexBytes digits with
  | some bytes => if bytes.length ≤ Config.bufCap then some bytes else none
  | none => none

/-! ### Operands (R95) -/

/-- What the tokens stand for at a line; none while there is nothing that a token could stand for (log 17). -/
structure Tokens where
  /-- `$`: R[63:0] of the most recent response. -/
  dollar : Option Word64
  /-- `$T`: its T field. -/
  dollarT : Option Word64
  /-- `$F`: the frame of the last successful POPF. -/
  dollarF : Option Wide
  deriving DecidableEq, Repr

/-- A number of a line. -/
inductive NumberOperand where
  | lit (n : Nat)
  | dollar
  | dollarT
  deriving DecidableEq, Repr

/-- A byte buffer of a line. -/
inductive BufferOperand where
  | lit (bytes : List Byte)
  | dollarF
  deriving DecidableEq, Repr

def NumberOperand.value (k : Tokens) : NumberOperand → Option Nat
  | .lit n => some n
  | .dollar => k.dollar.map BitVec.toNat
  | .dollarT => k.dollarT.map BitVec.toNat

/-- A buffer as its length N and field D: byte i at bits 111-8i to 104-8i, the rest zeros. `$F` is a 14-byte buffer in that
layout (R273). -/
def BufferOperand.field (k : Tokens) : BufferOperand → Option (Nat × Wide)
  | .lit bytes => if bytes.length ≤ Config.bufCap then some (bytes.length, packBytes bytes) else none
  | .dollarF => k.dollarF.map fun frame => (Config.bufCap, frame)

/-! ### Command lines (R95) -/

/-- The command lines, operands in the order they are written. -/
inductive Command where
  | xtru (value start size : NumberOperand)
  | tbit (value index : NumberOperand)
  | blen (buf : BufferOperand)
  | bat (buf : BufferOperand) (index : NumberOperand)
  | brng (buf : BufferOperand) (lower upper : NumberOperand)
  | crc (buf : BufferOperand)
  | cprd (xe ye xo yo p : NumberOperand)
  | popf
  | wget (i : NumberOperand)
  | rdsr (n : NumberOperand)
  deriving DecidableEq, Repr

/-- What a line puts into the five fields of a command word. -/
structure CommandFields where
  op : Nat
  a : Nat
  b : Nat
  c : Nat
  d : Nat
  deriving DecidableEq, Repr

/-- Each number fits its field: 8 bits for OP, A, B and C, 112 bits for D (R82). -/
def CommandFields.fit (f : CommandFields) : Bool :=
  decide (f.op < 256) && decide (f.a < 256) && decide (f.b < 256) && decide (f.c < 256) && decide (f.d < 2 ^ 112)

def CommandFields.word (f : CommandFields) : CommandWord := commandWord f.op f.a f.b f.c (BitVec.ofNat 112 f.d)

/-- The fields of a command line, its tokens replaced by what they stand for: R95's table, row by row. A number that goes into D
takes as many of its 112 bits as it needs; which of them the command reads is R83's business. -/
def Command.fields (k : Tokens) : Command → Option CommandFields
  | .xtru value start size => do return ⟨1, ← start.value k, ← size.value k, 0, ← value.value k⟩
  | .tbit value index => do return ⟨2, ← index.value k, 0, 0, ← value.value k⟩
  | .blen buf => do
    let (n, d) ← buf.field k
    return ⟨3, 0, 0, n, d.toNat⟩
  | .bat buf index => do
    let (n, d) ← buf.field k
    return ⟨4, ← index.value k, 0, n, d.toNat⟩
  | .brng buf lower upper => do
    let (n, d) ← buf.field k
    return ⟨5, ← lower.value k, ← upper.value k, n, d.toNat⟩
  | .crc buf => do
    let (n, d) ← buf.field k
    return ⟨6, 0, 0, n, d.toNat⟩
  | .cprd xe ye xo yo p => do
    return ⟨7, 0, 0, 0, (← xe.value k) ||| (← ye.value k) <<< 17 ||| (← xo.value k) <<< 34 ||| (← yo.value k) <<< 51 |||
      (← p.value k) <<< 68⟩
  | .popf => some ⟨8, 0, 0, 0, 0⟩
  | .wget i => do return ⟨9, 0, 0, 0, ← i.value k⟩
  | .rdsr n => do return ⟨10, ← n.value k, 0, 0, 0⟩

/-- The command word a line assembles to (R95). A line with a number that does not fit its field of the word, or with a token that
stands for nothing, assembles to nothing (log 17). -/
def Command.assemble (k : Tokens) (c : Command) : Option CommandWord :=
  match c.fields k with
  | some f => if f.fit then some f.word else none
  | none => none

/-! ### Pseudo-commands (R97) -/

/-- The pseudo-commands: `buf` is a byte buffer, `m` a ME payload; `parityField` is PI. -/
inductive Pseudo where
  | df (buf : BufferOperand)
  | ca (buf : BufferOperand)
  | icao (buf : BufferOperand)
  | me (buf : BufferOperand)
  | parityField (buf : BufferOperand)
  | tc (buf : BufferOperand)
  | fvalid (buf : BufferOperand)
  | cprx (m : NumberOperand)
  | cpry (m : NumberOperand)
  | cprf (m : NumberOperand)
  | altf (m : NumberOperand)
  deriving DecidableEq, Repr

/-- The expansion of a pseudo-command, row by row as R97 has it. -/
def Pseudo.expansion : Pseudo → List Command
  | .df buf => [.bat buf (.lit 0), .xtru .dollar (.lit 3) (.lit 5)]
  | .ca buf => [.bat buf (.lit 0), .xtru .dollar (.lit 0) (.lit 3)]
  | .icao buf => [.brng buf (.lit 1) (.lit 4)]
  | .me buf => [.brng buf (.lit 4) (.lit 11)]
  | .parityField buf => [.brng buf (.lit 11) (.lit 14)]
  | .tc buf => [.brng buf (.lit 4) (.lit 11), .xtru .dollar (.lit 51) (.lit 5)]
  | .fvalid buf => [.crc buf]
  | .cprx m => [.xtru m (.lit 0) (.lit 17)]
  | .cpry m => [.xtru m (.lit 17) (.lit 17)]
  | .cprf m => [.tbit m (.lit 34)]
  | .altf m => [.xtru m (.lit 36) (.lit 12)]

end Sys2Proof.Machine
end

