-- ==== Sys2Proof/Machine/Bench.lean ====
section
/-! DEFINITION. The test bench that runs a program's lines on AJRX (30_encoding.md R95 to R97): what it remembers, the stream
directives, and the lines in order. Everything it does to the machine is a step of the machine. -/

namespace Sys2Proof.Machine

/-- A program under way: the machine, and the frame that `$F` stands for. -/
structure Bench where
  machine : State
  /-- The frame of the last successful POPF; none before the first (R95). -/
  popped : Option Wide
  deriving DecidableEq, Repr

/-- A program starts from the reset state (95_test_vectors.md section 8). -/
def Bench.start : Bench := ⟨State.reset, none⟩

/-- What the tokens stand for now (R95). -/
def Bench.tokens (b : Bench) : Tokens where
  dollar := b.machine.rsp.map fun r => r.r.extractLsb' 0 64
  dollarT := b.machine.rsp.map fun r => r.t
  dollarF := b.popped

/-- The state after a step, which no step lacks (log 11). -/
def nextState : Host.Outcome State Fault Refusal → Option State
  | .next t => some t
  | .fault _ => none
  | .refused _ => none

/-! ### Stream directives (R96) -/

/-- One enabled step of COR or SRC, as a step of the machine in which that agent has the turn; none when neither has one. The two
are never enabled together (R70), so their order is no choice. -/
def quietStep (s : State) : Option State :=
  if corReady s then nextState (step { s with turns := .cor :: s.turns })
  else if srcReady s && inValid s then nextState (step { s with turns := .src :: s.turns })
  else none

/-- At most `fuel` steps of SRC and COR, for as long as `goOn` holds and one of them is enabled. -/
def runWhile (goOn : State → Bool) : Nat → State → State
  | 0, s => s
  | fuel + 1, s =>
    if goOn s then
      match quietStep s with
      | some t => runWhile goOn fuel t
      | none => s
    else s

/-- More steps than SRC and COR can take: a step of SRC uses up a beat and adds at most one window entry, a step of COR uses up at
least one entry. -/
def quietBound (s : State) : Nat := 2 * s.beats.length + count s

/-- `.settle`: SRC and COR take steps until neither has an enabled step (R96). -/
def settle (s : State) : State := runWhile (fun _ => true) (quietBound s) s

/-- SRC presents beats: they go on offer behind those that wait, and SRC transfers them in order, COR stepping where a full window
holds SRC. It ends when none is on offer any more, or when neither SRC nor COR has an enabled step; what is left then stays on
offer (log 18). -/
def presentBeats (beats : List Beat) (s : State) : State :=
  let t : State := { s with beats := s.beats ++ beats }
  runWhile inValid (quietBound t) t

/-- `.feed`: the bytes in order as IN.BYTE beats (R96). -/
def feed (bytes : List Byte) (s : State) : State := presentBeats (bytes.map fun d => d.setWidth 9) s

/-- `.last`: one IN.LAST beat (R96). -/
def feedLast (s : State) : State := presentBeats [0x100] s

/-! ### Commands -/

/-- What `$F` stands for after the command word `w` is answered by `answer`: the popped frame if that was a POPF with status OK,
and what it stood for before if not (R95, R273). -/
def poppedFrame (w : CommandWord) (answer : Option Response) (old : Option Wide) : Option Wide :=
  match decodeCommand w, answer with
  | .ok .popf, some ⟨.ok, _, frame⟩ => some frame
  | _, _ => old

/-- The host presents a command word and it is executed: the word is offered and HOST has the turn (R86). -/
def presentWord (w : CommandWord) (b : Bench) : Option Bench :=
  match nextState (step (offer (.command w) b.machine)) with
  | some t => some ⟨t, poppedFrame w t.rsp b.popped⟩
  | none => none

/-- A command line: assembled with what its tokens stand for now, and presented. -/
def runCommand (c : Command) (b : Bench) : Option Bench :=
  match c.assemble b.tokens with
  | some w => presentWord w b
  | none => none

/-- Command lines one after another, each assembled after the ones before it have been answered. -/
def runCommands : List Command → Bench → Option Bench
  | [], b => some b
  | c :: rest, b =>
    match runCommand c b with
    | some b' => runCommands rest b'
    | none => none

/-! ### Programs -/

/-- A program line (R95 to R97). `raw` is a command word written out, as 95_test_vectors.md uses them. -/
inductive Line where
  | command (c : Command)
  | raw (w : CommandWord)
  | pseudo (p : Pseudo)
  | feed (bytes : List Byte)
  | last
  | settle
  | comment
  deriving DecidableEq, Repr

/-- One line; none if it does not assemble (log 17). -/
def runLine (line : Line) (b : Bench) : Option Bench :=
  match line with
  | .command c => runCommand c b
  | .raw w => presentWord w b
  | .pseudo p => runCommands p.expansion b
  | .feed bytes => some { b with machine := feed bytes b.machine }
  | .last => some { b with machine := feedLast b.machine }
  | .settle => some { b with machine := settle b.machine }
  | .comment => some b

/-- The lines in order. -/
def runLines : List Line → Bench → Option Bench
  | [], b => some b
  | line :: rest, b =>
    match runLine line b with
    | some b' => runLines rest b'
    | none => none

/-- A program from reset to its end state, which is stated after an implicit `.settle` (R96). -/
def runProgram (lines : List Line) : Option Bench := runLines (lines ++ [.settle]) Bench.start

end Sys2Proof.Machine
end

