-- ==== Sys2Proof/Machine/Reference.lean ====
section
/-! DEFINITION. The stream pipeline as functions of the byte stream: the power sequence (R124) and the demodulator as one loop over
it (R174). They share no state with the machine; the machine's SRC and COR steps are held against them. -/

namespace Sys2Proof.Machine

/-- `x[k]` (R124): the sample decoded from stream bytes 2k and 2k+1, and 0 for a negative k. -/
def streamSample (bytes : List Byte) (k : Int) : Int :=
  if k < 0 then 0
  else
    (((bytes.getD (2 * k.toNat) 0).toNat + 256 * (bytes.getD (2 * k.toNat + 1) 0).toNat) % 4096 : Nat) - 2048

/-- `a(n)` (R124). -/
def filterA (bytes : List Byte) (n : Nat) : Int :=
  streamSample bytes (2 * n + 1) - streamSample bytes (2 * n - 1) + streamSample bytes (2 * n - 3) -
    streamSample bytes (2 * n - 5)

/-- `b(n)` (R124). -/
def filterB (bytes : List Byte) (n : Nat) : Int :=
  streamSample bytes (2 * n) - streamSample bytes (2 * n - 2) + streamSample bytes (2 * n - 4) -
    streamSample bytes (2 * n - 6)

/-- `P[n]` (R124). -/
def powerAt (bytes : List Byte) (n : Nat) : Nat :=
  (filterA bytes n * filterA bytes n + filterB bytes n * filterB bytes n).toNat

/-- The power sequence P[0..M) of a stream, M the number of complete pairs (R124, R174). -/
def powerSeq (bytes : List Byte) : List Nat := (List.range (bytes.length / 4)).map (powerAt bytes)

/-- The variables of R174's loop. -/
structure DemodState where
  out : List FrameEntry
  p : Nat
  prev : Nat
  deriving DecidableEq, Repr

def demodStart : DemodState := ⟨[], 0, 0⟩

/-- The window at position p of a power sequence. -/
def windowAt (powers : List Nat) (p i : Nat) : Nat := powers.getD (p + i) 0

/-- The body of R174's loop. Timestamps are taken modulo 2^64 as R169 says. -/
def demodStep (powers : List Nat) (d : DemodState) : DemodState :=
  match candidateFrame (windowAt powers d.p) d.prev with
  | some frame =>
    ⟨d.out ++ [⟨BitVec.ofNat 64 (d.p * Config.nsPerPosition), frame⟩], d.p + Config.windowSize, 0⟩
  | none => ⟨d.out, d.p + 1, peakSum (windowAt powers d.p) 0⟩

/-- At most `k` iterations of R174's loop. -/
def demodLoop : Nat → List Nat → DemodState → DemodState
  | 0, _, d => d
  | k + 1, powers, d =>
    if d.p + Config.windowSize ≤ powers.length then demodLoop k powers (demodStep powers d) else d

/-- `demod(P, M)` (R174). Every iteration moves p on by at least one, so M iterations are enough. -/
def demod (powers : List Nat) : DemodState := demodLoop powers.length powers demodStart

end Sys2Proof.Machine
end

