-- ==== Sys2Proof/Safety.lean ====
section
/-! DEFINITION. What counts as a good state of AJRX and as a good run: the invariants that the spec's rules give, the part of the
environment's history that they speak of, and the host's obligations before a CPRD (R333). -/

namespace Sys2Proof.Machine

/-! ### Good states -/

/-- FCNT is within FIFO_DEPTH (R30). -/
def fifoWithin (depth : FifoDepth) (n : Nat) : Prop :=
  match depth with
  | none => True
  | some d => n ≤ d.val

/-- The RawFrame invariant of a FIFO entry (R30, R271): downlink format 17 and a zero CRC-24. -/
def validFrame (frame : Wide) : Prop := frameDf frame = 17 ∧ crc24 (bufBytes 14 frame) = 0

/-- The states that AJRX's rules keep to. -/
structure GoodState (s : State) : Prop where
  /-- R26: COUNT is at most 1200. -/
  windowFits : s.w.length ≤ 1200
  /-- R128, D38: the stream ends only while the window has room, and then stays so. -/
  endedNotFull : s.eos = true → s.w.length < 1200
  /-- R30: the FIFO holds at most FIFO_DEPTH entries. -/
  fifoFits : fifoWithin Config.fifoDepth s.fifo.length
  /-- R30: every entry is a frame of downlink format 17 with a zero CRC. -/
  framesValid : ∀ e ∈ s.fifo, validFrame e.frame
  /-- R126: every power value is at most 134 152 200. -/
  powersBounded : ∀ p ∈ s.w, p.toNat ≤ 134152200
  /-- R163: PREV holds a former peak-sum, at most 536 608 800. -/
  prevBounded : s.prev.toNat ≤ 536608800

/-! ### The history of a run -/

/-- The stream bytes accepted since the last reset, after the step that `s` takes, given those accepted before it. -/
def streamAfter (s : State) (bytes : List Byte) : List Byte :=
  match (takeTurn s).1 with
  | .rst => []
  | .src =>
    match s.beats with
    | [] => bytes
    | b :: _ => if srcReady s && !b.getLsbD 8 then bytes ++ [b.extractLsb' 0 8] else bytes
  | .cor => bytes
  | .host => bytes

/-- The entries returned by successful POPF commands since the last reset, after the step that `s` takes. -/
def poppedAfter (s : State) (popped : List FrameEntry) : List FrameEntry :=
  match (takeTurn s).1 with
  | .rst => []
  | .host =>
    match s.cmds with
    | [] => popped
    | c :: _ => if decodeCommand c = .ok .popf then popped ++ s.fifo.take 1 else popped
  | .src => popped
  | .cor => popped

/-- H as a list, H[0] first. -/
def historyList (h : History) : List Sample := [h.h0, h.h1, h.h2, h.h3, h.h4, h.h5, h.h6, h.h7]

/-- The word and pair registers hold what the accepted bytes leave in them (R23 to R25, R61). -/
structure FilterTracks (bytes : List Byte) (s : State) : Prop where
  bytePhase : s.bph = decide (bytes.length % 2 = 1)
  lowByte : s.bph = true → bytes.getLast? = some s.lo
  samplePhase : s.sph = decide (bytes.length / 2 % 2 = 1)
  history : ∀ j : Nat, j < 8 →
    ((historyList s.h).getD j 0).toInt = streamSample bytes (((bytes.length / 2 : Nat) : Int) - 1 - (j : Int))

/-- R27: POS + COUNT is the number of power values produced, and W[i] = P[POS + i]. -/
structure WindowTracks (bytes : List Byte) (s : State) : Prop where
  filter : FilterTracks bytes s
  inRange : s.w.length ≤ (powerSeq bytes).length
  position : s.pos = BitVec.ofNat 64 ((powerSeq bytes).length - s.w.length)
  contents : s.w.map BitVec.toNat = (powerSeq bytes).drop ((powerSeq bytes).length - s.w.length)

/-- The machine stands where R174's loop stands after some number of its iterations: what was popped and what is queued are
together what the loop has put out. -/
structure PipelineTracks (bytes : List Byte) (popped : List FrameEntry) (s : State) : Prop where
  window : WindowTracks bytes s
  loop : ∃ k : Nat,
    popped ++ s.fifo = (demodLoop k (powerSeq bytes) demodStart).out ∧
    (powerSeq bytes).length - s.w.length = (demodLoop k (powerSeq bytes) demodStart).p ∧
    s.prev.toNat = (demodLoop k (powerSeq bytes) demodStart).prev

/-- R271: the queued timestamps are 100 times window positions that lie at least 1200 below POS, and each is at least 120 000 ns
after the one before. -/
structure TimestampsOrdered (s : State) : Prop where
  belowPosition : ∀ e ∈ s.fifo, e.ts.toNat % 100 = 0 ∧ e.ts.toNat + 120000 ≤ 100 * s.pos.toNat
  spaced : s.fifo.Pairwise fun e f => e.ts.toNat + 120000 ≤ f.ts.toNat

/-! ### The host's obligations before CPRD (R333) -/

/-- Items 1, 2, 3, 5 and 6 of R333 for an even report `e` and an odd report `o`. That each is the latest of its parity (item 4)
and what the host does with a failure (item 7) concern the host's own memory. AJRX checks none of them. -/
structure CprPairEligible (e o : FrameEntry) (odd : Bool) : Prop where
  sameAircraft : frameIcao e.frame = frameIcao o.frame
  evenPosition : messageKind (meTypeCode (frameMe e.frame)) = .airbornePosition
  oddPosition : messageKind (meTypeCode (frameMe o.frame)) = .airbornePosition
  evenParity : meCprOdd (frameMe e.frame) = false
  oddParity : meCprOdd (frameMe o.frame) = true
  within10s : e.ts.toNat ≤ o.ts.toNat + 10000000000 ∧ o.ts.toNat ≤ e.ts.toNat + 10000000000
  laterParity : (odd = true → e.ts.toNat ≤ o.ts.toNat) ∧ (odd = false → o.ts.toNat ≤ e.ts.toNat)

/-- The CPRD a host issues for an even and an odd report (R105, R106, R277). -/
def cprdOf (e o : FrameEntry) (odd : Bool) : Instr :=
  .cprd (meCprX (frameMe e.frame)) (meCprY (frameMe e.frame)) (meCprX (frameMe o.frame)) (meCprY (frameMe o.frame)) odd

end Sys2Proof.Machine
end

