-- ==== Sys2Proof/Certificates/Slice0/Obligations.lean ====
section
/-! DEFINITION. The statements for the provers: what the spec's numbered rules say AJRX does. -/

open Sys2Proof Sys2Proof.Machine

/-! ### Encoding -/

/-- Every well-formed operation is what its own encoding decodes to (R81 to R83, R90, R95, R106). -/
def Obligations.DecodeOfEncodeIsIdentity : Prop :=
  ∀ i : Instr, i.wellFormed = true → decode (encode i) = .ok i

/-- A decoded operation is well formed, and encoding a decoded command gives back the bits that the command reads, zeros in the
others (R83, R92, R95). -/
def Obligations.EncodeOfDecodeKeepsReadBits : Prop :=
  (∀ (e : Encoding) (i : Instr), decode e = .ok i → i.wellFormed = true) ∧
  (∀ (c : CommandWord) (i : Instr),
    decodeCommand c = .ok i → encode i = .command (c &&& readMask (cmdOp c).toNat))

/-- R92: two command words that agree on the bits their command reads decode alike, and a byte-buffer command answers alike for
two buffers that agree on the bytes at positions below N. -/
def Obligations.IgnoredFieldsHaveNoEffect : Prop :=
  (∀ c c' : CommandWord,
    c &&& readMask (cmdOp c).toNat = c' &&& readMask (cmdOp c).toNat → decodeCommand c = decodeCommand c') ∧
  (∀ (n : Nat) (buf buf' : Wide) (s : State),
    (∀ j : Nat, j < n → byteAt buf j = byteAt buf' j) →
      exec (.blen n buf) s = exec (.blen n buf') s ∧
      (∀ index : Nat, exec (.bat index n buf) s = exec (.bat index n buf') s) ∧
      (∀ lower upper : Nat, exec (.brng lower upper n buf) s = exec (.brng lower upper n buf') s) ∧
      exec (.crc n buf) s = exec (.crc n buf') s)

/-- Words written out from R81, R82 and R90 decode to the operations they stand for. -/
def Obligations.SampleWordsDecode : Prop :=
  decodeCommand 0x01040800000000000000FEDCBA9876543210 = .ok (.xtru 4 8 0xFEDCBA9876543210) ∧
  decodeCommand 0x05040B0E8D4840D6202CC371C32CE0576098 = .ok (.brng 4 11 14 0x8D4840D6202CC371C32CE0576098) ∧
  decodeCommand 0x070000000000000000190D73104AD690C8AC = .ok (.cprd 51372 93000 50194 74158 true) ∧
  decodeCommand 0x0900000000000000000000000000000004AF = .ok (.wget 1199) ∧
  decodeBeat 0x064 = .inByte 0x64 ∧
  decodeBeat 0x1AB = .inLast

/-! ### The step -/

/-- R9, R86, R121: in HOST's turn a step runs the operation that the offered command word decodes to, in SRC's turn the one that
the offered beat decodes to. The command is taken from its port; the beat is taken if SRC is ready and waits otherwise. -/
def Obligations.StepRunsTheDecodedOperation : Prop :=
  (∀ (s : State) (c : CommandWord) (cs : List CommandWord) (ts : List Turn) (i : Instr),
    s.turns = .host :: ts → s.cmds = c :: cs → decodeCommand c = .ok i →
      step s = exec i { s with turns := ts, tick := s.tick + 1, cmds := cs }) ∧
  (∀ (s : State) (b : Beat) (bs : List Beat) (ts : List Turn),
    s.turns = .src :: ts → s.beats = b :: bs →
      step s = exec (decodeBeat b)
        { s with turns := ts, tick := s.tick + 1, beats := if srcReady s then bs else b :: bs })

/-- R91: opcodes 0x00 and 0x0B to 0xFF, and no others, select no command; a command with one is answered ERR_ILLEGAL_OP and
nothing else changes. -/
def Obligations.ReservedOpcodeAnswersIllegalOp : Prop :=
  (∀ c : CommandWord, (∃ i : Instr, decodeCommand c = .ok i) ↔ 1 ≤ (cmdOp c).toNat ∧ (cmdOp c).toNat ≤ 10) ∧
  (∀ (s : State) (c : CommandWord) (cs : List CommandWord) (ts : List Turn),
    s.turns = .host :: ts → s.cmds = c :: cs → ((cmdOp c).toNat = 0 ∨ 11 ≤ (cmdOp c).toNat) →
      step s = .next { s with turns := ts, tick := s.tick + 1, cmds := cs, rsp := some ⟨.errIllegalOp, 0, 0⟩ })

/-- R292, R298: every operation in every state and every step has a next state; nothing stops the machine. -/
def Obligations.EveryStepHasANextState : Prop :=
  (∀ (i : Instr) (s : State), ∃ t : State, exec i s = .next t) ∧ ∀ s : State, ∃ t : State, step s = .next t

/-- R320, R38: a reset gives every piece of state its reset value, whatever the state was; the outputs follow, and STATUS reads 0
for AJRX's FIFO_DEPTH. What it does to the model's own queues of offers (log 20) is not part of this. -/
def Obligations.ResetRestoresEveryField : Prop :=
  ∀ (s : State) (ts : List Turn), s.turns = .rst :: ts →
    ∃ t : State, step s = .next t ∧
      t.pos = 0 ∧ t.lo = 0 ∧ t.bph = false ∧ t.sph = false ∧ t.h = ⟨0, 0, 0, 0, 0, 0, 0, 0⟩ ∧ t.w = [] ∧ t.prev = 0 ∧
      t.eos = false ∧ t.srng = false ∧ t.fifo = [] ∧ t.rsp = none ∧
      frameIrq t = false ∧ donePort t = false ∧ inReady t = true ∧ cmdReady t = true ∧ rspValid t = false ∧
      statusWord t = 0

/-! ### The bit-field extractor and the byte buffer -/

/-- R212: opcode 1 is XTRU; it answers the `size`-bit field of the word from bit `start` up where the field is valid and ERR_ARG
where it is not, and writes nothing else. -/
def Obligations.XtruAnswersTheField : Prop :=
  (∀ c : CommandWord, c.extractLsb' 136 8 = 0x01 →
    decodeCommand c = .ok (.xtru (c.extractLsb' 128 8).toNat (c.extractLsb' 120 8).toNat (c.extractLsb' 0 64))) ∧
  ∀ (start size : Nat) (value : Word64) (s : State),
    (1 ≤ size → size ≤ 31 → start + size ≤ 64 →
      exec (.xtru start size value) s =
        .next { s with rsp := some ⟨.ok, 0, BitVec.ofNat 112 (value.toNat / 2 ^ start % 2 ^ size)⟩ }) ∧
    (size = 0 ∨ 32 ≤ size ∨ 64 < start + size →
      exec (.xtru start size value) s = .next { s with rsp := some ⟨.errArg, 0, 0⟩ })

/-- R213: opcode 2 is TBIT; it answers one bit, as XTRU of one bit does, and ERR_ARG for an index of 64 or more. -/
def Obligations.TbitAnswersTheBit : Prop :=
  (∀ c : CommandWord, c.extractLsb' 136 8 = 0x02 →
    decodeCommand c = .ok (.tbit (c.extractLsb' 128 8).toNat (c.extractLsb' 0 64))) ∧
  ∀ (index : Nat) (value : Word64) (s : State),
    (index < 64 →
      exec (.tbit index value) s =
        .next { s with rsp := some ⟨.ok, 0, BitVec.ofNat 112 (value.toNat / 2 ^ index % 2)⟩ } ∧
      exec (.tbit index value) s = exec (.xtru index 1 value) s) ∧
    (64 ≤ index → exec (.tbit index value) s = .next { s with rsp := some ⟨.errArg, 0, 0⟩ })

/-- R216: opcode 3 is BLEN; it answers the buffer's length, and ERR_ARG for one above 14. -/
def Obligations.BlenAnswersTheLength : Prop :=
  (∀ c : CommandWord, c.extractLsb' 136 8 = 0x03 →
    decodeCommand c = .ok (.blen (c.extractLsb' 112 8).toNat (c.extractLsb' 0 112))) ∧
  ∀ (n : Nat) (buf : Wide) (s : State),
    (n ≤ 14 → exec (.blen n buf) s = .next { s with rsp := some ⟨.ok, 0, BitVec.ofNat 112 n⟩ }) ∧
    (14 < n → exec (.blen n buf) s = .next { s with rsp := some ⟨.errArg, 0, 0⟩ })

/-- R217: opcode 4 is BAT; it answers the unsigned byte at the index, byte 0 the most significant of D, and ERR_ARG for a length
above 14 or an index not below the length. -/
def Obligations.BatAnswersTheByte : Prop :=
  (∀ c : CommandWord, c.extractLsb' 136 8 = 0x04 →
    decodeCommand c =
      .ok (.bat (c.extractLsb' 128 8).toNat (c.extractLsb' 112 8).toNat (c.extractLsb' 0 112))) ∧
  ∀ (index n : Nat) (buf : Wide) (s : State),
    (n ≤ 14 → index < n →
      exec (.bat index n buf) s =
        .next { s with rsp := some ⟨.ok, 0, BitVec.ofNat 112 (buf.toNat / 2 ^ (104 - 8 * index) % 256)⟩ }) ∧
    (14 < n ∨ n ≤ index → exec (.bat index n buf) s = .next { s with rsp := some ⟨.errArg, 0, 0⟩ })

/-- R218: opcode 5 is BRNG; it answers the big-endian number of the bytes from `lower` to `upper - 1`, 0 for an empty range, and
ERR_ARG for a length above 14 or a range that is reversed, outside the buffer or longer than 7. -/
def Obligations.BrngAnswersTheBigEndianRange : Prop :=
  (∀ c : CommandWord, c.extractLsb' 136 8 = 0x05 →
    decodeCommand c =
      .ok (.brng (c.extractLsb' 128 8).toNat (c.extractLsb' 120 8).toNat (c.extractLsb' 112 8).toNat
        (c.extractLsb' 0 112))) ∧
  ∀ (lower upper n : Nat) (buf : Wide) (s : State),
    (n ≤ 14 → lower ≤ upper → upper ≤ n → upper - lower ≤ 7 →
      exec (.brng lower upper n buf) s =
        .next { s with rsp := some ⟨.ok, 0, BitVec.ofNat 112
          (∑ j ∈ Finset.range (upper - lower),
            (buf.toNat / 2 ^ (104 - 8 * (lower + j)) % 256) * 2 ^ (8 * (upper - lower - 1 - j)))⟩ }) ∧
    (14 < n ∨ upper < lower ∨ n < upper ∨ 7 < upper - lower →
      exec (.brng lower upper n buf) s = .next { s with rsp := some ⟨.errArg, 0, 0⟩ })

/-- R59: the value BRNG answers is the big-endian assembly of what BAT answers for the bytes of the range. -/
def Obligations.BrngIsBatAssembled : Prop :=
  ∀ (lower upper n : Nat) (buf : Wide) (s : State), n ≤ 14 → lower ≤ upper → upper ≤ n → upper - lower ≤ 7 →
    ∃ value : Nat → Nat,
      (∀ j : Nat, lower ≤ j → j < upper →
        value j < 256 ∧ exec (.bat j n buf) s = .next { s with rsp := some ⟨.ok, 0, BitVec.ofNat 112 (value j)⟩ }) ∧
      exec (.brng lower upper n buf) s =
        .next { s with rsp := some ⟨.ok, 0, BitVec.ofNat 112
          (∑ j ∈ Finset.range (upper - lower), value (lower + j) * 256 ^ (upper - lower - 1 - j))⟩ }

/-- R214: an extracted field, shifted back, reproduces the bits of the word. -/
def Obligations.FieldReassembles : Prop :=
  ∀ (v : Word64) (start size : Nat), 1 ≤ size → size ≤ 31 → start + size ≤ 64 →
    (extractField v start size).toNat < 2 ^ size ∧
    ((extractField v start size).setWidth 64 <<< start : Word64) = v &&& (BitVec.ofNat 64 (2 ^ size - 1) <<< start)

/-- R291: exactly when each command answers ERR_ARG; CPRD and POPF never do. -/
def Obligations.ErrArgConditions : Prop :=
  ∀ s : State,
    let errArg : State := { s with rsp := some ⟨.errArg, 0, 0⟩ }
    (∀ (start size : Nat) (v : Word64),
      exec (.xtru start size v) s = .next errArg ↔ size = 0 ∨ 32 ≤ size ∨ 64 < start + size) ∧
    (∀ (index : Nat) (v : Word64), exec (.tbit index v) s = .next errArg ↔ 64 ≤ index) ∧
    (∀ (n : Nat) (buf : Wide), exec (.blen n buf) s = .next errArg ↔ 14 < n) ∧
    (∀ (index n : Nat) (buf : Wide), exec (.bat index n buf) s = .next errArg ↔ 14 < n ∨ n ≤ index) ∧
    (∀ (lower upper n : Nat) (buf : Wide),
      exec (.brng lower upper n buf) s = .next errArg ↔ 14 < n ∨ upper < lower ∨ n < upper ∨ 7 < upper - lower) ∧
    (∀ (n : Nat) (buf : Wide), exec (.crc n buf) s = .next errArg ↔ 14 < n) ∧
    (∀ i : Nat, exec (.wget i) s = .next errArg ↔ 1200 ≤ i) ∧
    (∀ n : Nat, exec (.rdsr n) s = .next errArg ↔ 6 ≤ n) ∧
    (∀ (xze yze xzo yzo : Nat) (odd : Bool), exec (.cprd xze yze xzo yzo odd) s ≠ .next errArg) ∧
    exec .popf s ≠ .next errArg

/-! ### CRC-24 -/

/-- R197: opcode 6 is CRC; it answers the CRC-24 of the N bytes with status OK whatever it is, 0 for an empty buffer or one of
zeros, and ERR_ARG for a length above 14. -/
def Obligations.CrcAnswersTheRemainder : Prop :=
  (∀ c : CommandWord, c.extractLsb' 136 8 = 0x06 →
    decodeCommand c = .ok (.crc (c.extractLsb' 112 8).toNat (c.extractLsb' 0 112))) ∧
  ∀ (n : Nat) (buf : Wide) (s : State),
    (n ≤ 14 →
      exec (.crc n buf) s =
        .next { s with rsp := some ⟨.ok, 0, BitVec.ofNat 112 (crc24 ((List.range n).map (byteAt buf))).toNat⟩ } ∧
      ((∀ j : Nat, j < n → byteAt buf j = 0) →
        exec (.crc n buf) s = .next { s with rsp := some ⟨.ok, 0, 0⟩ })) ∧
    (14 < n → exec (.crc n buf) s = .next { s with rsp := some ⟨.errArg, 0, 0⟩ })

/-- R194: the table-driven algorithm, with the table that R195 prints, returns the bit-by-bit algorithm's value on every
input. -/
def Obligations.CrcTableAlgorithmAgrees : Prop :=
  ∀ bytes : List Byte, crc24ByTable bytes = crc24 bytes

/-- R192: `crc24(m)` is the remainder of `M(x) * x^24` divided by `G(x)` over GF(2), the bits of m as coefficients, the first bit
of the first byte highest. -/
def Obligations.CrcIsPolynomialRemainder : Prop :=
  ∀ bytes : List Byte,
    let bits : List Bool := bytes.flatMap byteBits
    let message : Polynomial (ZMod 2) :=
      ∑ k ∈ Finset.range bits.length, if bits.getD (bits.length - 1 - k) false then Polynomial.X ^ k else 0
    let generator : Polynomial (ZMod 2) :=
      Polynomial.X ^ 24 + ∑ k ∈ Finset.range 24, if Config.crcGenerator.getLsbD k then Polynomial.X ^ k else 0
    let remainder : Polynomial (ZMod 2) :=
      ∑ k ∈ Finset.range 24, if (crc24 bytes).getLsbD k then Polynomial.X ^ k else 0
    ∃ quotient : Polynomial (ZMod 2), message * Polynomial.X ^ 24 = quotient * generator + remainder

/-- R193, items 1 and 2: an all-zero sequence has CRC 0, and the CRC is linear for sequences of equal length. -/
def Obligations.CrcIsLinear : Prop :=
  (∀ n : Nat, crc24 (List.replicate n 0) = 0) ∧
  ∀ a b : List Byte, a.length = b.length → crc24 (List.zipWith (fun x y => x ^^^ y) a b) = crc24 a ^^^ crc24 b

/-- R193, item 3: a sequence followed by its own CRC, high byte first, has CRC 0. -/
def Obligations.CrcOfMessageWithItsCrcIsZero : Prop :=
  ∀ m : List Byte,
    crc24 (m ++ [(crc24 m).extractLsb' 16 8, (crc24 m).extractLsb' 8 8, (crc24 m).extractLsb' 0 8]) = 0

/-- R193, item 5: flipping any one bit of a sequence whose CRC is 0 gives a sequence whose CRC is not 0. -/
def Obligations.CrcDetectsSingleBitFlips : Prop :=
  ∀ (m : List Byte) (j k : Nat), j < m.length → k < 8 → crc24 m = 0 →
    crc24 (m.set j (m.getD j 0 ^^^ (1 <<< k))) ≠ 0

/-! ### The CPR decoder -/

/-- R248, R106: opcode 7 is CPRD; it answers the position, latitude in R[31:0] and longitude in R[63:32], when the two zone counts agree and the
selected latitude is within 90 degrees. The pseudocode of R248 is written out, for whatever values the open parameters have. -/
def Obligations.CprdAnswersThePosition : Prop :=
  (∀ c : CommandWord, c.extractLsb' 136 8 = 0x07 →
    decodeCommand c =
      .ok (.cprd (c.extractLsb' 0 17).toNat (c.extractLsb' 17 17).toNat (c.extractLsb' 34 17).toNat
        (c.extractLsb' 51 17).toNat (c.getLsbD 68))) ∧
  ∀ (xze yze xzo yzo : Nat) (odd : Bool) (s : State),
    let z : Int := roundTie Config.cprParams.tie (59 * yze - 60 * yzo) 131072
    let le0 : Int := (if z < 0 then z + 60 else z) * 131072 + yze
    let lo0 : Int := (if z < 0 then z + 59 else z) * 131072 + yzo
    let le : Int := if 2 * le0 > 60 * 131072 then le0 - 60 * 131072 else le0
    let lo : Int := if 2 * lo0 > 59 * 131072 then lo0 - 59 * 131072 else lo0
    let nl : Nat := nlEven Config.cprParams le
    let ne : Int := if nl = 1 then 1 else nl
    let no : Int := if nl = 1 then 1 else nl - 1
    let m : Int := roundTie Config.cprParams.tie (xze * (nl - 1) - xzo * nl) 131072
    let me0 : Int := if nl = 1 then xze else (if m < 0 then m + ne else m) * 131072 + xze
    let mo0 : Int := if nl = 1 then xzo else (if m < 0 then m + no else m) * 131072 + xzo
    let me : Int := if 2 * me0 > ne * 131072 then me0 - ne * 131072 else me0
    let mo : Int := if 2 * mo0 > no * 131072 then mo0 - no * 131072 else mo0
    let l : Int := if odd then lo else le
    let zones : Int := if odd then 59 else 60
    let v : Int := if odd then mo else me
    let n : Int := if odd then no else ne
    let lat32 : Int := (2 * (l * 2 ^ 15) + zones) / (2 * zones)
    let lon32 : Int := ((2 * (v * 2 ^ 15) + n) / (2 * n) + 2 ^ 31) % 2 ^ 32 - 2 ^ 31
    nlOdd Config.cprParams lo = nl → 4 * |l| ≤ zones * 131072 →
      exec (.cprd xze yze xzo yzo odd) s =
        .next { s with rsp := some ⟨.ok, 0, (BitVec.ofInt 32 lon32 ++ BitVec.ofInt 32 lat32).setWidth 112⟩ }

/-- R242, R247, R294: CPR_BAND when the zone counts of the two derived latitudes differ, whichever report is the more recent; and
else CPR_LAT when the selected latitude is outside 90 degrees. Neither leaves anything behind. -/
def Obligations.CprdRejectsBandAndLatitude : Prop :=
  ∀ (xze yze xzo yzo : Nat) (odd : Bool) (s : State),
    let le : Int := latEven Config.cprParams yze yzo
    let lo : Int := latOdd Config.cprParams yze yzo
    (nlEven Config.cprParams le ≠ nlOdd Config.cprParams lo →
      exec (.cprd xze yze xzo yzo odd) s = .next { s with rsp := some ⟨.cprBand, 0, 0⟩ }) ∧
    (nlEven Config.cprParams le = nlOdd Config.cprParams lo →
      (if odd then 59 * 131072 < 4 * |lo| else 60 * 131072 < 4 * |le|) →
      exec (.cprd xze yze xzo yzo odd) s = .next { s with rsp := some ⟨.cprLat, 0, 0⟩ })

/-- R233: `round_tie` is the nearest integer under each tie rule, and an exact half goes as its rule says: up, to the even
neighbour, or away from zero. -/
def Obligations.RoundTieIsNearest : Prop :=
  ∀ (tie : RoundTie) (num den : Int), 0 < den →
    2 * |den * roundTie tie num den - num| ≤ den ∧
    (2 * (num % den) = den →
      match tie with
      | .halfUp => 2 * den * roundTie tie num den = 2 * num + den
      | .halfEven => roundTie tie num den % 2 = 0
      | .halfAway => |2 * den * roundTie tie num den| = |2 * num| + den)

/-- R235, R236, R238: the ranges of the zone index, of the two normalised indices and of the recentered latitudes, for every
operand the encoding admits and every tie rule. -/
def Obligations.CprLatitudeRanges : Prop :=
  ∀ (p : CprParams) (yze yzo : Nat), yze < 131072 → yzo < 131072 →
    let z : Int := latZoneIndex p yze yzo
    (-60 ≤ z ∧ z ≤ 59) ∧ (0 ≤ addBack z 60 ∧ addBack z 60 ≤ 59) ∧ (-1 ≤ addBack z 59 ∧ addBack z 59 ≤ 59) ∧
    (-60 * 131072 < 2 * latEven p yze yzo ∧ 2 * latEven p yze yzo ≤ 60 * 131072) ∧
    (-59 * 131072 < 2 * latOdd p yze yzo ∧ 2 * latOdd p yze yzo ≤ 59 * 131072)

/-- R240: the zone count on the even and on the odd grid. The latitude is folded about a quarter turn; at the equator the count is
NL_EQ, at the pole 1, at exactly 87 degrees on the even grid NL_87; elsewhere it reaches k exactly when the folded latitude is
at most the table's entry for k, for each k from 2 to 59, and is 1 at least. -/
def Obligations.ZoneCountReadsTheTable : Prop :=
  ∀ (p : CprParams) (l : Int),
    (∀ a : Int, a = (if 60 * 131072 < 4 * |l| then 60 * 65536 - |l| else |l|) →
      (a = 0 → nlEven p l = nlEqCount p.nlEq) ∧
      (4 * a = 60 * 131072 → nlEven p l = 1) ∧
      (a = 1900544 → nlEven p l = nl87Count p.nl87) ∧
      (a ≠ 0 → 4 * a ≠ 60 * 131072 → a ≠ 1900544 →
        1 ≤ nlEven p l ∧ nlEven p l ≤ 59 ∧
          ∀ k : Nat, 2 ≤ k → k ≤ 59 → (k ≤ nlEven p l ↔ a ≤ teTable.getD (k - 2) 0))) ∧
    (∀ a : Int, a = (if 59 * 131072 < 4 * |l| then 59 * 65536 - |l| else |l|) →
      (a = 0 → nlOdd p l = nlEqCount p.nlEq) ∧
      (4 * a = 59 * 131072 → nlOdd p l = 1) ∧
      (a ≠ 0 → 4 * a ≠ 59 * 131072 →
        1 ≤ nlOdd p l ∧ nlOdd p l ≤ 59 ∧
          ∀ k : Nat, 2 ≤ k → k ≤ 59 → (k ≤ nlOdd p l ↔ a ≤ toTable.getD (k - 2) 0)))

/-- R239, facts 1 and 2, on the grids: the zone count is even in the latitude, the same at half a turn less the latitude, and does
not increase from the equator to the pole; it lies between 1 and 60. -/
def Obligations.ZoneCountIsEvenAndFalling : Prop :=
  ∀ p : CprParams,
    (∀ l : Int, nlEven p (-l) = nlEven p l ∧ nlOdd p (-l) = nlOdd p l) ∧
    (∀ l : Int, 0 ≤ l → 2 * l ≤ 60 * 131072 → nlEven p (60 * 65536 - l) = nlEven p l) ∧
    (∀ l : Int, 0 ≤ l → 2 * l ≤ 59 * 131072 → nlOdd p (59 * 65536 - l) = nlOdd p l) ∧
    (∀ a b : Int, 0 ≤ a → a ≤ b → 4 * b ≤ 60 * 131072 → nlEven p b ≤ nlEven p a) ∧
    (∀ a b : Int, 0 ≤ a → a ≤ b → 4 * b ≤ 59 * 131072 → nlOdd p b ≤ nlOdd p a) ∧
    (∀ l : Int, 1 ≤ nlEven p l ∧ nlEven p l ≤ 60 ∧ 1 ≤ nlOdd p l ∧ nlOdd p l ≤ 60)

/-- R246: no tie can occur in the conversion to T32, which is therefore the strictly nearest number for every zone count from 1 to
60. -/
def Obligations.T32ConversionHasNoTie : Prop :=
  ∀ (v zones : Int), 1 ≤ zones → zones ≤ 60 →
    2 * (v * 32768 % zones) ≠ zones ∧ 2 * |zones * toT32 v zones - v * 32768| < zones

/-- R247, R246: the latitude of a decoded position is at most 2^30 in size and the longitude lies in [-2^31, 2^31). -/
def Obligations.DecodedPositionRanges : Prop :=
  ∀ (p : CprParams) (xze yze xzo yzo : Nat) (odd : Bool) (lat32 lon32 : Int),
    cprDecode p xze yze xzo yzo odd = .position lat32 lon32 →
      |lat32| ≤ 2 ^ 30 ∧ -2 ^ 31 ≤ lon32 ∧ lon32 < 2 ^ 31

/-- R245, D28: with one longitude zone, recentering or not gives the same result word. -/
def Obligations.OneZoneRecenteringIsInvisible : Prop :=
  ∀ x : Int, 0 ≤ x → x < 131072 → wrap32 (toT32 (recenter x 1) 1) = wrap32 (toT32 x 1)

/-! ### The sample stream -/

/-- R121, R122, R123, R125: a beat with in_last = 0 is IN.BYTE. Where SRC is enabled, the first byte of a word goes to LO; the
second completes the word, sets SRNG if the word is above 4095, shifts the sample into H and, as the second sample of a pair,
appends a power value. Where SRC is held, R121 gives it no step; that exec of IN.BYTE then answers the unchanged state is the
model's reading of it (log 7, DEDUCED). -/
def Obligations.InByteTakesTheByte : Prop :=
  (∀ b : Beat, b.getLsbD 8 = false → decodeBeat b = .inByte (b.extractLsb' 0 8)) ∧
  ∀ (d : Byte) (s : State),
    (s.eos = true ∨ 1200 ≤ s.w.length → inReady s = false ∧ exec (.inByte d) s = .next s) ∧
    (s.eos = false → s.w.length < 1200 → inReady s = true ∧
      (s.bph = false → exec (.inByte d) s = .next { s with lo := d, bph := true }) ∧
      (s.bph = true →
        let word : Nat := s.lo.toNat + 256 * d.toNat
        let x : Sample := BitVec.ofInt 12 (((word % 4096 : Nat) : Int) - 2048)
        let a : Int := x.toInt - s.h.h1.toInt + s.h.h3.toInt - s.h.h5.toInt
        let b : Int := s.h.h0.toInt - s.h.h2.toInt + s.h.h4.toInt - s.h.h6.toInt
        let t : State :=
          { s with
            bph := false
            srng := s.srng || decide (4096 ≤ word)
            h := ⟨x, s.h.h0, s.h.h1, s.h.h2, s.h.h3, s.h.h4, s.h.h5, s.h.h6⟩ }
        (s.sph = false → exec (.inByte d) s = .next { t with sph := true }) ∧
        (s.sph = true →
          exec (.inByte d) s = .next { t with sph := false, w := s.w ++ [BitVec.ofNat 27 (a * a + b * b).toNat] })))

/-- R120, R126: the sample of a word is its low twelve bits less 2048, in [-2048, 2047], and the whole word less 2048 where SRNG is
not set for it; the two sums are at most 8190 in size, and a power value is the exact sum of their squares, at most
134 152 200: nothing wraps. -/
def Obligations.FilterArithmeticIsExact : Prop :=
  (∀ w : SampleWord,
    (sampleOf w).toInt = ((w.toNat % 4096 : Nat) : Int) - 2048 ∧
    -2048 ≤ (sampleOf w).toInt ∧ (sampleOf w).toInt ≤ 2047 ∧
    (w.toNat < 4096 → (sampleOf w).toInt = (w.toNat : Int) - 2048)) ∧
  ∀ h : History,
    |sumA h| ≤ 8190 ∧ |sumB h| ≤ 8190 ∧
    ((powerOf h).toNat : Int) = sumA h * sumA h + sumB h * sumB h ∧ (powerOf h).toNat ≤ 134152200

/-- R128: a beat with in_last = 1 is IN.LAST, whatever in_data is. Where SRC is enabled it sets EOS and changes nothing else; `done`
rises at once, and neither SRC nor COR has a step then, whatever FIFO_DEPTH is. Where SRC is held, R128 gives it no step; that exec
of IN.LAST then answers the unchanged state is the model's reading of it (log 7, DEDUCED). -/
def Obligations.InLastEndsTheStream : Prop :=
  (∀ b : Beat, b.getLsbD 8 = true → decodeBeat b = .inLast) ∧
  ∀ s : State,
    (s.eos = true ∨ 1200 ≤ s.w.length → exec .inLast s = .next s) ∧
    (s.eos = false → s.w.length < 1200 →
      exec .inLast s = .next { s with eos := true } ∧
      donePort { s with eos := true } = true ∧ srcReady { s with eos := true } = false ∧
      ∀ depth : FifoDepth, corReadyAt depth { s with eos := true } = false)

/-- R121, R128, R29, R310: while EOS is set or the window is full SRC has no step: a beat on offer stays on offer and a step of SRC
changes nothing but the model's own list of turns and count of steps. -/
def Obligations.HeldBeatChangesNothing : Prop :=
  ∀ (s : State) (b : Beat) (bs : List Beat) (ts : List Turn),
    (s.eos = true ∨ 1200 ≤ s.w.length) → s.turns = .src :: ts → s.beats = b :: bs →
      step s = .next { s with turns := ts, tick := s.tick + 1 }

/-! ### The window and the correlator -/

/-- R146: `advanceBy(n)` is n times `advance()`; it moves the entry at n + i to i, lowers COUNT by n and moves POS on by n. -/
def Obligations.AdvanceByIsRepeatedAdvance : Prop :=
  ∀ (n : Nat) (s : State), 1 ≤ n → n ≤ s.w.length →
    advanceBy n s = advance^[n] s ∧
    (∀ i : Nat, i < s.w.length - n → windowGet (advanceBy n s) i = windowGet s (n + i)) ∧
    advanceBy n s = { s with w := (advanceBy n s).w, pos := BitVec.ofNat 64 (s.pos.toNat + n) } ∧
    (advanceBy n s).w.length = s.w.length - n

/-- R161 (with R162, R164, R166 to R171): COR.EVAL is enabled where the window is full and the queue is not. If the preamble test,
the DF gate and the CRC gate pass, the frame is queued with timestamp POS*100, the window empties, POS moves on by 1200 and PREV
is 0; otherwise the window and POS move on by one and PREV takes the peak-sum. Where COR is not enabled (R161, R173) it has no
step; that its turn then passes with nothing changed but the model's own turns and step count, and that a step uses up the turn
at all, is the model's choice (log 1, DESIGN CHOICE). -/
def Obligations.CorEvaluatesOnePosition : Prop :=
  (∀ (s : State) (ts : List Turn),
    s.turns = .cor :: ts → s.w.length = 1200 → (∀ d, Config.fifoDepth = some d → s.fifo.length < d.val) →
      let w : Nat → Nat := fun i => (s.w.getD i 0).toNat
      let sumP : Nat := w 0 + w 10 + w 35 + w 45
      let sumPn : Nat := w 1 + w 11 + w 36 + w 46
      let sumV : Nat := w 5 + w 15 + w 20 + w 25 + w 30 + w 40
      let bit : Nat → Nat := fun k => if w (80 + 10 * k) < w (85 + 10 * k) then 0 else 1
      let f : Nat → Nat := fun j => ∑ i ∈ Finset.range 8, bit (8 * j + i) * 2 ^ (7 - i)
      let bytes : List Byte := (List.range 14).map fun j => BitVec.ofNat 8 (f j)
      let frame : Wide := BitVec.ofNat 112 (∑ j ∈ Finset.range 14, f j * 2 ^ (104 - 8 * j))
      let accepted : Prop := 2 * sumV ≤ sumP ∧ s.prev.toNat < sumP ∧ sumPn < sumP ∧ f 0 / 8 = 17 ∧ crc24 bytes = 0
      (accepted →
        step s = .next { s with
          turns := ts
          tick := s.tick + 1
          w := []
          pos := s.pos + 1200
          prev := 0
          fifo := s.fifo ++ [⟨BitVec.ofNat 64 (s.pos.toNat * 100), frame⟩] }) ∧
      (¬accepted →
        step s = .next { s with
          turns := ts
          tick := s.tick + 1
          w := s.w.tail
          pos := s.pos + 1
          prev := BitVec.ofNat 29 sumP } ∧ sumP < 2 ^ 29)) ∧
  ∀ (s : State) (ts : List Turn),
    s.turns = .cor :: ts → s.w.length ≠ 1200 ∨ (∃ d, Config.fifoDepth = some d ∧ d.val ≤ s.fifo.length) →
      step s = .next { s with turns := ts, tick := s.tick + 1 }

/-- R173, for every FIFO_DEPTH: while the queue is full COR's turn is nothing, even with the window full, and then SRC is held as
well; a POPF lifts the hold. With an unbounded queue the hold never happens. R161: COR's turn is nothing while the window is not
full. That a turn of a held COR passes with nothing changed, and that a step uses up one of the model's own turns, is the model's
choice (log 1, DESIGN CHOICE). -/
def Obligations.CorIsHeldUntilEnabled : Prop :=
  (∀ (s : State) (ts : List Turn), s.turns = .cor :: ts →
    step s = .next (corTurnAt Config.fifoDepth { s with turns := ts, tick := s.tick + 1 })) ∧
  (∀ (depth : FifoDepth) (s : State), s.w.length ≠ 1200 → corTurnAt depth s = s) ∧
  (∀ (d : { n : Nat // 1 ≤ n }) (s : State), s.fifo.length = d.val →
    corTurnAt (some d) s = s ∧
    (s.w.length = 1200 →
      srcReady s = false ∧ ∃ t : State, exec .popf s = .next t ∧ corTurnAt (some d) t = corEval t)) ∧
  (∀ (d : { n : Nat // 1 ≤ n }) (s : State), s.fifo.length < d.val → s.w.length = 1200 →
    corTurnAt (some d) s = corEval s) ∧
  ∀ s : State, s.w.length = 1200 → corTurnAt none s = corEval s

/-- R22, R28, R279: POS and PREV are written by COR alone, and POS only by moving on 1 or 1200. -/
def Obligations.OnlyCorMovesThePosition : Prop :=
  ∀ s t : State, step s = .next t → (takeTurn s).1 ≠ .rst →
    (t.pos = s.pos ∧ t.prev = s.prev) ∨
    ((takeTurn s).1 = .cor ∧ s.w.length = 1200 ∧ (t.pos = s.pos + 1 ∨ (t.pos = s.pos + 1200 ∧ t.prev = 0)))

/-- R29, R31, R34: EOS and SRNG are set by SRC alone and cleared by a reset alone, and EOS only by an IN.LAST beat. -/
def Obligations.StickyFlagsStayUntilReset : Prop :=
  ∀ s t : State, step s = .next t → (takeTurn s).1 ≠ .rst →
    (s.eos = true → t.eos = true) ∧ (s.srng = true → t.srng = true) ∧
    ((takeTurn s).1 ≠ .src → t.eos = s.eos ∧ t.srng = s.srng) ∧
    (s.eos = false → t.eos = true → ∃ b bs, s.beats = b :: bs ∧ decodeBeat b = .inLast)

/-! ### The frame queue, the window read-out and the status registers -/

/-- R272: opcode 8 is POPF; it answers the oldest entry, its timestamp in T and its frame in R, and removes it and nothing else; of
an empty queue it answers ERR_EMPTY and changes nothing. -/
def Obligations.PopfAnswersTheOldestFrame : Prop :=
  (∀ c : CommandWord, c.extractLsb' 136 8 = 0x08 → decodeCommand c = .ok .popf) ∧
  ∀ s : State,
    (∀ (e : FrameEntry) (rest : List FrameEntry), s.fifo = e :: rest →
      exec .popf s = .next { s with fifo := rest, rsp := some ⟨.ok, e.ts, e.frame⟩ }) ∧
    (s.fifo = [] → exec .popf s = .next { s with rsp := some ⟨.errEmpty, 0, 0⟩ })

/-- R274: opcode 9 is WGET; it answers a window entry that is there, ERR_NOT_AVAIL for an index inside the window size that holds
none, and ERR_ARG for an index outside it. -/
def Obligations.WgetAnswersTheEntry : Prop :=
  (∀ c : CommandWord, c.extractLsb' 136 8 = 0x09 → decodeCommand c = .ok (.wget (c.extractLsb' 0 16).toNat)) ∧
  ∀ (s : State) (i : Nat),
    (1200 ≤ i → exec (.wget i) s = .next { s with rsp := some ⟨.errArg, 0, 0⟩ }) ∧
    (i < 1200 → s.w.length ≤ i → exec (.wget i) s = .next { s with rsp := some ⟨.errNotAvail, 0, 0⟩ }) ∧
    (∀ v : Power, i < 1200 → s.w[i]? = some v →
      exec (.wget i) s = .next { s with rsp := some ⟨.ok, 0, BitVec.ofNat 112 v.toNat⟩ })

/-- R276, R33: opcode 10 is RDSR; it answers STATUS (for AJRX's FIFO_DEPTH), POS, COUNT, PREV, FCNT and the identification
constant for the numbers 0 to 5, and ERR_ARG for any other; nothing is cleared by reading. -/
def Obligations.RdsrAnswersTheRegister : Prop :=
  (∀ c : CommandWord, c.extractLsb' 136 8 = 0x0A → decodeCommand c = .ok (.rdsr (c.extractLsb' 128 8).toNat)) ∧
  ∀ s : State,
    exec (.rdsr 0) s = .next { s with rsp := some ⟨.ok, 0, BitVec.ofNat 112 (statusWordAt Config.fifoDepth s).toNat⟩ } ∧
    exec (.rdsr 1) s = .next { s with rsp := some ⟨.ok, 0, BitVec.ofNat 112 s.pos.toNat⟩ } ∧
    exec (.rdsr 2) s = .next { s with rsp := some ⟨.ok, 0, BitVec.ofNat 112 (s.w.length % 2 ^ 64)⟩ } ∧
    exec (.rdsr 3) s = .next { s with rsp := some ⟨.ok, 0, BitVec.ofNat 112 s.prev.toNat⟩ } ∧
    exec (.rdsr 4) s = .next { s with rsp := some ⟨.ok, 0, BitVec.ofNat 112 (s.fifo.length % 2 ^ 64)⟩ } ∧
    exec (.rdsr 5) s = .next { s with rsp := some ⟨.ok, 0, 0x414A525800000100⟩ } ∧
    ∀ n : Nat, 6 ≤ n → exec (.rdsr n) s = .next { s with rsp := some ⟨.errArg, 0, 0⟩ }

/-- R32, R305: for every FIFO_DEPTH the bits of STATUS are EOS, DONE, SRNG, FNE, FFULL, BPH, SPH from bit 0 up, the others 0, and
the outputs `frame_irq` and `done` equal its bits FNE and DONE. -/
def Obligations.StatusBitsAndOutputs : Prop :=
  ∀ (s : State) (depth : FifoDepth),
    let v : Word64 := statusWordAt depth s
    v.getLsbD 0 = s.eos ∧
    v.getLsbD 1 = (s.eos && decide (s.w.length < 1200)) ∧
    v.getLsbD 2 = s.srng ∧
    v.getLsbD 3 = decide (0 < s.fifo.length) ∧
    v.getLsbD 4 = (match depth with
      | some d => decide (s.fifo.length = d.val)
      | none => false) ∧
    v.getLsbD 5 = s.bph ∧
    v.getLsbD 6 = s.sph ∧
    (∀ k : Nat, 7 ≤ k → v.getLsbD k = false) ∧
    frameIrq s = v.getLsbD 3 ∧ donePort s = v.getLsbD 1

/-- R84, R290: the three fields of the response word, and the seven status codes, which are distinct. -/
def Obligations.ResponseWordLayout : Prop :=
  (∀ r : Response,
    (responseWord r).extractLsb' 176 8 = statusCode r.status ∧ (responseWord r).extractLsb' 112 64 = r.t ∧
      (responseWord r).extractLsb' 0 112 = r.r) ∧
  statusCode .ok = 0x00 ∧ statusCode .errIllegalOp = 0x01 ∧ statusCode .errArg = 0x02 ∧ statusCode .errEmpty = 0x03 ∧
  statusCode .errNotAvail = 0x04 ∧ statusCode .cprBand = 0x10 ∧ statusCode .cprLat = 0x11 ∧
  ∀ a b : Status, statusCode a = statusCode b → a = b

/-- R270, R342: no command changes anything but the response and, for POPF, the frame queue; each leaves a response. -/
def Obligations.CommandsDoNotDisturbTheStream : Prop :=
  ∀ (i : Instr) (s t : State), i.isCommand = true → exec i s = .next t →
    t = { s with rsp := t.rsp, fifo := t.fifo } ∧ t.rsp.isSome = true ∧ (i ≠ .popf → t.fifo = s.fifo)

/-- R296: a command that ends with a status other than OK answers T = 0 and R = 0 and changes no state. -/
def Obligations.FailingCommandChangesNothing : Prop :=
  ∀ (i : Instr) (s t : State) (r : Response), i.isCommand = true → exec i s = .next t → t.rsp = some r → r.status ≠ .ok →
    t = { s with rsp := some ⟨r.status, 0, 0⟩ }

/-- R37: the response of the commands XTRU, TBIT, BLEN, BAT, BRNG, CRC and CPRD is a function of their operands alone. -/
def Obligations.PureCommandsIgnoreTheState : Prop :=
  ∀ (i : Instr) (s s' t t' : State), i.isPure = true → exec i s = .next t → exec i s' = .next t' → t.rsp = t'.rsp

/-- R272, R295: where COR and HOST are both enabled and a frame is queued, an evaluation and a POPF may go in either order; both
orders reach the same state, whatever FIFO_DEPTH is. -/
def Obligations.EvaluationAndPopfCommute : Prop :=
  ∀ (depth : FifoDepth) (s t : State), corReadyAt depth s = true → s.fifo ≠ [] → exec .popf s = .next t →
    exec .popf (corTurnAt depth s) = .next (corTurnAt depth t)

/-- R97, R100, R102, R105: the lines of the pseudo-commands on a buffer that is a 14-byte frame (a literal or `$F`) and on a number
that D can hold and whose lowest 64 bits are a ME payload (a literal, `$` or `$T`) answer the fields they name, and leave the rest of the machine (the model's step
count apart) and `$F` as they were. -/
def Obligations.PseudoCommandsAnswerTheFields : Prop :=
  ∀ (frame : Wide) (v : Nat) (buf : BufferOperand) (x : NumberOperand) (b : Bench),
    buf.field b.tokens = some (14, frame) → x.value b.tokens = some v → v < 2 ^ 112 →
    let m : Word64 := BitVec.ofNat 64 v
    let answer : Nat → Nat → Option Bench := fun steps v =>
      some { b with machine :=
        { b.machine with tick := b.machine.tick + steps, rsp := some ⟨.ok, 0, BitVec.ofNat 112 v⟩ } }
    runLine (.pseudo (.df buf)) b = answer 2 (frame.toNat / 2 ^ 107) ∧
    runLine (.pseudo (.ca buf)) b = answer 2 (frame.toNat / 2 ^ 104 % 8) ∧
    runLine (.pseudo (.icao buf)) b = answer 1 (frame.toNat / 2 ^ 80 % 2 ^ 24) ∧
    runLine (.pseudo (.me buf)) b = answer 1 (frame.toNat / 2 ^ 24 % 2 ^ 56) ∧
    runLine (.pseudo (.parityField buf)) b = answer 1 (frame.toNat % 2 ^ 24) ∧
    runLine (.pseudo (.tc buf)) b = answer 2 (frame.toNat / 2 ^ 75 % 32) ∧
    runLine (.pseudo (.fvalid buf)) b = answer 1 (crc24 (bufBytes 14 frame)).toNat ∧
    runLine (.pseudo (.cprx x)) b = answer 1 (meCprX m) ∧
    runLine (.pseudo (.cpry x)) b = answer 1 (meCprY m) ∧
    runLine (.pseudo (.cprf x)) b = answer 1 (meCprOdd m).toNat ∧
    runLine (.pseudo (.altf x)) b = answer 1 (meAltitudeField m)

/-! ### Invariants -/

/-- Every step keeps a good state good: the window within 1200 entries, the stream ended only short of a full window, the FIFO
within its depth and holding frames of DF 17 and CRC 0 only, power values and PREV within their bounds (R26, R30, R126, R128,
R163). -/
def Obligations.StepKeepsGoodState : Prop :=
  ∀ s t : State, GoodState s → step s = .next t → GoodState t

/-- R27: every step keeps POS + COUNT equal to the number of power values produced since reset and `W[i] = P[POS + i]`, with P the
power sequence of R124 over the bytes accepted since reset. -/
def Obligations.StepKeepsWindowOnPowerSequence : Prop :=
  ∀ (bytes : List Byte) (s t : State),
    WindowTracks bytes s → step s = .next t → WindowTracks (streamAfter s bytes) t

/-- R70, R174: every step keeps the machine in step with R174's loop: what has been popped and what is queued are together what
the loop has put out, whatever the interleaving, the FIFO's depth and the commands. -/
def Obligations.StepKeepsPipelineOnDemod : Prop :=
  ∀ (bytes : List Byte) (popped : List FrameEntry) (s t : State),
    PipelineTracks bytes popped s → step s = .next t →
      PipelineTracks (streamAfter s bytes) (poppedAfter s popped) t

/-- The invariants hold right after reset, with nothing accepted and nothing popped (R38). -/
def Obligations.ResetStartsTheInvariants : Prop :=
  GoodState State.reset ∧ TimestampsOrdered State.reset ∧ PipelineTracks [] [] State.reset

/-- R70: the entries returned by successful POPF commands are always a leading part of what R174's function gives for the bytes
accepted so far; and they and the queue are all of it once COR has no window to evaluate. -/
def Obligations.PoppedFramesLeadDemod : Prop :=
  ∀ (bytes : List Byte) (popped : List FrameEntry) (s : State), PipelineTracks bytes popped s →
    popped <+: (demod (powerSeq bytes)).out ∧
    (s.w.length < 1200 →
      popped ++ s.fifo = (demod (powerSeq bytes)).out ∧
      s.pos = BitVec.ofNat 64 (demod (powerSeq bytes)).p ∧
      s.w.length = (powerSeq bytes).length - (demod (powerSeq bytes)).p ∧
      s.prev.toNat = (demod (powerSeq bytes)).prev)

/-- R174: running SRC and COR to quiescence on a stream followed by IN.LAST, from reset and with room in the queue for what comes
out, ends with R174's output queued, POS = p, COUNT = M - p below 1200 and PREV = prev. The run is the test bench's `.feed`,
`.last` and `.settle`, whose order of steps and bound on them are log 18 (DEDUCED). -/
def Obligations.SettledStreamIsDemod : Prop :=
  ∀ bytes : List Byte,
    (∀ d, Config.fifoDepth = some d → (demod (powerSeq bytes)).out.length < d.val) →
      let t : State := settle (feedLast (feed bytes State.reset))
      let d : DemodState := demod (powerSeq bytes)
      t.fifo = d.out ∧ t.pos = BitVec.ofNat 64 d.p ∧ t.w.length = (powerSeq bytes).length - d.p ∧ t.w.length < 1200 ∧
        t.prev.toNat = d.prev ∧ t.eos = true ∧ quietStep t = none

/-- R271: every step keeps the queued timestamps at 100 times a position, each at least 120 000 ns after the one before, as long
as POS*100 does not wrap. -/
def Obligations.StepKeepsTimestampsOrdered : Prop :=
  ∀ s t : State, TimestampsOrdered s → 100 * s.pos.toNat + 120000 < 2 ^ 64 → step s = .next t → TimestampsOrdered t

/-- R273, R95: after a line POPF that answers a frame, in a good state, `$F` is that frame, and it stays so over any further lines
that are no POPF, commands with answers of their own among them: `CRC $F` then answers 0 and changes nothing else (but the
model's step count). -/
def Obligations.PoppedFrameHasZeroCrc : Prop :=
  ∀ (b : Bench) (e : FrameEntry) (rest : List FrameEntry), GoodState b.machine → b.machine.fifo = e :: rest →
    ∃ b' : Bench, runLine (.command .popf) b = some b' ∧ b'.popped = some e.frame ∧
      b'.machine = { b.machine with tick := b.machine.tick + 1, fifo := rest, rsp := some ⟨.ok, e.ts, e.frame⟩ } ∧
      ∀ (lines : List Line) (u : Bench),
        (∀ line ∈ lines, line ≠ .command .popf ∧ ∀ w, line = .raw w → decodeCommand w ≠ .ok .popf) →
        runLines lines b' = some u →
          u.popped = some e.frame ∧
          runLine (.command (.crc .dollarF)) u =
            some { u with machine := { u.machine with tick := u.machine.tick + 1, rsp := some ⟨.ok, 0, 0⟩ } }

/-- R96, in the model's reading of it (log 18, DEDUCED): `.feed` has SRC take the bytes in the order they are listed, with COR's steps
between them where the window is full; bytes that are left stay on offer, and then neither SRC nor COR has a step. Where EOS is 0
and the window cannot fill up, none is left. Neither EOS, the response nor the command port changes, and the machine stays in
step with R174's loop over the bytes that were taken. `.last` ends a stream that SRC is ready for. After `.settle` neither SRC nor COR has a step. -/
def Obligations.StreamDirectivesRunTheStream : Prop :=
  (∀ (bytes : List Byte) (s : State), s.beats = [] →
    let t : State := feed bytes s
    (∃ k : Nat, k ≤ bytes.length ∧ t.beats = (bytes.drop k).map (fun d => d.setWidth 9) ∧
      (k < bytes.length → quietStep t = none) ∧
      (s.eos = false → s.w.length + (bytes.length + 3) / 4 < 1200 → k = bytes.length) ∧
      ∀ (taken : List Byte) (popped : List FrameEntry),
        PipelineTracks taken popped s → PipelineTracks (taken ++ bytes.take k) popped t) ∧
    t.eos = s.eos ∧ t.rsp = s.rsp ∧ t.cmds = s.cmds ∧ t.turns = s.turns) ∧
  (∀ s : State, s.beats = [] → s.eos = false → s.w.length < 1200 →
    feedLast s = { s with eos := true, tick := s.tick + 1 }) ∧
  ∀ s : State, quietStep (settle s) = none

/-- R337, R338: a stream of fewer than 1200 pairs gives no frame, and the frames of any stream are at least 120 000 ns apart (as
long as timestamps do not wrap): no burst that overlaps an accepted one is found. -/
def Obligations.DemodFramesDoNotOverlap : Prop :=
  ∀ powers : List Nat,
    (powers.length < 1200 → (demod powers).out = []) ∧
    (powers.length * 100 < 2 ^ 64 →
      (demod powers).out.Pairwise fun e f => e.ts.toNat + 120000 ≤ f.ts.toNat)
end

