-- ==== Sys2Proof/Laws/State.lean ====
section
/-! SUPPORT. What each shared update of the state does to each field, true by definition: one lemma per field per update, for
simp, so that no later proof unfolds a record update. -/

namespace Sys2Proof.Machine

/-! ### respond -/

section
variable (t : Word64) (r : Wide) (s : State)

@[simp] theorem respond_pos : (respond t r s).pos = s.pos := rfl
@[simp] theorem respond_lo : (respond t r s).lo = s.lo := rfl
@[simp] theorem respond_bph : (respond t r s).bph = s.bph := rfl
@[simp] theorem respond_sph : (respond t r s).sph = s.sph := rfl
@[simp] theorem respond_h : (respond t r s).h = s.h := rfl
@[simp] theorem respond_w : (respond t r s).w = s.w := rfl
@[simp] theorem respond_prev : (respond t r s).prev = s.prev := rfl
@[simp] theorem respond_eos : (respond t r s).eos = s.eos := rfl
@[simp] theorem respond_srng : (respond t r s).srng = s.srng := rfl
@[simp] theorem respond_fifo : (respond t r s).fifo = s.fifo := rfl
@[simp] theorem respond_rsp : (respond t r s).rsp = some ⟨.ok, t, r⟩ := rfl
@[simp] theorem respond_beats : (respond t r s).beats = s.beats := rfl
@[simp] theorem respond_cmds : (respond t r s).cmds = s.cmds := rfl
@[simp] theorem respond_turns : (respond t r s).turns = s.turns := rfl
@[simp] theorem respond_tick : (respond t r s).tick = s.tick := rfl

end

/-! ### raise -/

section
variable (status : Status) (s : State)

@[simp] theorem raise_pos : (raise status s).pos = s.pos := rfl
@[simp] theorem raise_lo : (raise status s).lo = s.lo := rfl
@[simp] theorem raise_bph : (raise status s).bph = s.bph := rfl
@[simp] theorem raise_sph : (raise status s).sph = s.sph := rfl
@[simp] theorem raise_h : (raise status s).h = s.h := rfl
@[simp] theorem raise_w : (raise status s).w = s.w := rfl
@[simp] theorem raise_prev : (raise status s).prev = s.prev := rfl
@[simp] theorem raise_eos : (raise status s).eos = s.eos := rfl
@[simp] theorem raise_srng : (raise status s).srng = s.srng := rfl
@[simp] theorem raise_fifo : (raise status s).fifo = s.fifo := rfl
@[simp] theorem raise_rsp : (raise status s).rsp = some ⟨status, 0, 0⟩ := rfl
@[simp] theorem raise_beats : (raise status s).beats = s.beats := rfl
@[simp] theorem raise_cmds : (raise status s).cmds = s.cmds := rfl
@[simp] theorem raise_turns : (raise status s).turns = s.turns := rfl
@[simp] theorem raise_tick : (raise status s).tick = s.tick := rfl

end

/-! ### emit -/

section
variable (ts : Word64) (f : Wide) (s : State)

@[simp] theorem emit_pos : (emit ts f s).pos = s.pos := rfl
@[simp] theorem emit_lo : (emit ts f s).lo = s.lo := rfl
@[simp] theorem emit_bph : (emit ts f s).bph = s.bph := rfl
@[simp] theorem emit_sph : (emit ts f s).sph = s.sph := rfl
@[simp] theorem emit_h : (emit ts f s).h = s.h := rfl
@[simp] theorem emit_w : (emit ts f s).w = s.w := rfl
@[simp] theorem emit_prev : (emit ts f s).prev = s.prev := rfl
@[simp] theorem emit_eos : (emit ts f s).eos = s.eos := rfl
@[simp] theorem emit_srng : (emit ts f s).srng = s.srng := rfl
@[simp] theorem emit_fifo : (emit ts f s).fifo = s.fifo ++ [⟨ts, f⟩] := rfl
@[simp] theorem emit_rsp : (emit ts f s).rsp = s.rsp := rfl
@[simp] theorem emit_beats : (emit ts f s).beats = s.beats := rfl
@[simp] theorem emit_cmds : (emit ts f s).cmds = s.cmds := rfl
@[simp] theorem emit_turns : (emit ts f s).turns = s.turns := rfl
@[simp] theorem emit_tick : (emit ts f s).tick = s.tick := rfl

end

/-! ### dropFrame -/

section
variable (s : State)

@[simp] theorem dropFrame_pos : (dropFrame s).pos = s.pos := rfl
@[simp] theorem dropFrame_lo : (dropFrame s).lo = s.lo := rfl
@[simp] theorem dropFrame_bph : (dropFrame s).bph = s.bph := rfl
@[simp] theorem dropFrame_sph : (dropFrame s).sph = s.sph := rfl
@[simp] theorem dropFrame_h : (dropFrame s).h = s.h := rfl
@[simp] theorem dropFrame_w : (dropFrame s).w = s.w := rfl
@[simp] theorem dropFrame_prev : (dropFrame s).prev = s.prev := rfl
@[simp] theorem dropFrame_eos : (dropFrame s).eos = s.eos := rfl
@[simp] theorem dropFrame_srng : (dropFrame s).srng = s.srng := rfl
@[simp] theorem dropFrame_fifo : (dropFrame s).fifo = s.fifo.tail := rfl
@[simp] theorem dropFrame_rsp : (dropFrame s).rsp = s.rsp := rfl
@[simp] theorem dropFrame_beats : (dropFrame s).beats = s.beats := rfl
@[simp] theorem dropFrame_cmds : (dropFrame s).cmds = s.cmds := rfl
@[simp] theorem dropFrame_turns : (dropFrame s).turns = s.turns := rfl
@[simp] theorem dropFrame_tick : (dropFrame s).tick = s.tick := rfl

end

/-! ### advance -/

section
variable (s : State)

@[simp] theorem advance_pos : (advance s).pos = s.pos + 1 := rfl
@[simp] theorem advance_lo : (advance s).lo = s.lo := rfl
@[simp] theorem advance_bph : (advance s).bph = s.bph := rfl
@[simp] theorem advance_sph : (advance s).sph = s.sph := rfl
@[simp] theorem advance_h : (advance s).h = s.h := rfl
@[simp] theorem advance_w : (advance s).w = s.w.tail := rfl
@[simp] theorem advance_prev : (advance s).prev = s.prev := rfl
@[simp] theorem advance_eos : (advance s).eos = s.eos := rfl
@[simp] theorem advance_srng : (advance s).srng = s.srng := rfl
@[simp] theorem advance_fifo : (advance s).fifo = s.fifo := rfl
@[simp] theorem advance_rsp : (advance s).rsp = s.rsp := rfl
@[simp] theorem advance_beats : (advance s).beats = s.beats := rfl
@[simp] theorem advance_cmds : (advance s).cmds = s.cmds := rfl
@[simp] theorem advance_turns : (advance s).turns = s.turns := rfl
@[simp] theorem advance_tick : (advance s).tick = s.tick := rfl

end

/-! ### advanceBy -/

section
variable (n : Nat) (s : State)

@[simp] theorem advanceBy_pos : (advanceBy n s).pos = s.pos + BitVec.ofNat 64 n := rfl
@[simp] theorem advanceBy_lo : (advanceBy n s).lo = s.lo := rfl
@[simp] theorem advanceBy_bph : (advanceBy n s).bph = s.bph := rfl
@[simp] theorem advanceBy_sph : (advanceBy n s).sph = s.sph := rfl
@[simp] theorem advanceBy_h : (advanceBy n s).h = s.h := rfl
@[simp] theorem advanceBy_w : (advanceBy n s).w = s.w.drop n := rfl
@[simp] theorem advanceBy_prev : (advanceBy n s).prev = s.prev := rfl
@[simp] theorem advanceBy_eos : (advanceBy n s).eos = s.eos := rfl
@[simp] theorem advanceBy_srng : (advanceBy n s).srng = s.srng := rfl
@[simp] theorem advanceBy_fifo : (advanceBy n s).fifo = s.fifo := rfl
@[simp] theorem advanceBy_rsp : (advanceBy n s).rsp = s.rsp := rfl
@[simp] theorem advanceBy_beats : (advanceBy n s).beats = s.beats := rfl
@[simp] theorem advanceBy_cmds : (advanceBy n s).cmds = s.cmds := rfl
@[simp] theorem advanceBy_turns : (advanceBy n s).turns = s.turns := rfl
@[simp] theorem advanceBy_tick : (advanceBy n s).tick = s.tick := rfl

end

/-! ### appendPower -/

section
variable (p : Power) (s : State)

@[simp] theorem appendPower_pos : (appendPower p s).pos = s.pos := rfl
@[simp] theorem appendPower_lo : (appendPower p s).lo = s.lo := rfl
@[simp] theorem appendPower_bph : (appendPower p s).bph = s.bph := rfl
@[simp] theorem appendPower_sph : (appendPower p s).sph = s.sph := rfl
@[simp] theorem appendPower_h : (appendPower p s).h = s.h := rfl
@[simp] theorem appendPower_w : (appendPower p s).w = s.w ++ [p] := rfl
@[simp] theorem appendPower_prev : (appendPower p s).prev = s.prev := rfl
@[simp] theorem appendPower_eos : (appendPower p s).eos = s.eos := rfl
@[simp] theorem appendPower_srng : (appendPower p s).srng = s.srng := rfl
@[simp] theorem appendPower_fifo : (appendPower p s).fifo = s.fifo := rfl
@[simp] theorem appendPower_rsp : (appendPower p s).rsp = s.rsp := rfl
@[simp] theorem appendPower_beats : (appendPower p s).beats = s.beats := rfl
@[simp] theorem appendPower_cmds : (appendPower p s).cmds = s.cmds := rfl
@[simp] theorem appendPower_turns : (appendPower p s).turns = s.turns := rfl
@[simp] theorem appendPower_tick : (appendPower p s).tick = s.tick := rfl

end

/-! ### pushPower -/

section
variable (s : State)

@[simp] theorem pushPower_pos : (pushPower s).pos = s.pos := rfl
@[simp] theorem pushPower_lo : (pushPower s).lo = s.lo := rfl
@[simp] theorem pushPower_bph : (pushPower s).bph = s.bph := rfl
@[simp] theorem pushPower_sph : (pushPower s).sph = s.sph := rfl
@[simp] theorem pushPower_h : (pushPower s).h = s.h := rfl
@[simp] theorem pushPower_w : (pushPower s).w = s.w ++ [powerOf s.h] := rfl
@[simp] theorem pushPower_prev : (pushPower s).prev = s.prev := rfl
@[simp] theorem pushPower_eos : (pushPower s).eos = s.eos := rfl
@[simp] theorem pushPower_srng : (pushPower s).srng = s.srng := rfl
@[simp] theorem pushPower_fifo : (pushPower s).fifo = s.fifo := rfl
@[simp] theorem pushPower_rsp : (pushPower s).rsp = s.rsp := rfl
@[simp] theorem pushPower_beats : (pushPower s).beats = s.beats := rfl
@[simp] theorem pushPower_cmds : (pushPower s).cmds = s.cmds := rfl
@[simp] theorem pushPower_turns : (pushPower s).turns = s.turns := rfl
@[simp] theorem pushPower_tick : (pushPower s).tick = s.tick := rfl

end

/-! ### checkRange -/

section
variable (x : SampleWord) (s : State)

@[simp] theorem checkRange_pos : (checkRange x s).pos = s.pos := rfl
@[simp] theorem checkRange_lo : (checkRange x s).lo = s.lo := rfl
@[simp] theorem checkRange_bph : (checkRange x s).bph = s.bph := rfl
@[simp] theorem checkRange_sph : (checkRange x s).sph = s.sph := rfl
@[simp] theorem checkRange_h : (checkRange x s).h = s.h := rfl
@[simp] theorem checkRange_w : (checkRange x s).w = s.w := rfl
@[simp] theorem checkRange_prev : (checkRange x s).prev = s.prev := rfl
@[simp] theorem checkRange_eos : (checkRange x s).eos = s.eos := rfl
@[simp] theorem checkRange_srng : (checkRange x s).srng = (s.srng || outOfRange x) := rfl
@[simp] theorem checkRange_fifo : (checkRange x s).fifo = s.fifo := rfl
@[simp] theorem checkRange_rsp : (checkRange x s).rsp = s.rsp := rfl
@[simp] theorem checkRange_beats : (checkRange x s).beats = s.beats := rfl
@[simp] theorem checkRange_cmds : (checkRange x s).cmds = s.cmds := rfl
@[simp] theorem checkRange_turns : (checkRange x s).turns = s.turns := rfl
@[simp] theorem checkRange_tick : (checkRange x s).tick = s.tick := rfl

end

/-! ### shiftSample -/

section
variable (x : Sample) (s : State)

@[simp] theorem shiftSample_pos : (shiftSample x s).pos = s.pos := rfl
@[simp] theorem shiftSample_lo : (shiftSample x s).lo = s.lo := rfl
@[simp] theorem shiftSample_bph : (shiftSample x s).bph = s.bph := rfl
@[simp] theorem shiftSample_sph : (shiftSample x s).sph = s.sph := rfl
@[simp] theorem shiftSample_h : (shiftSample x s).h = shiftHistory x s.h := rfl
@[simp] theorem shiftSample_w : (shiftSample x s).w = s.w := rfl
@[simp] theorem shiftSample_prev : (shiftSample x s).prev = s.prev := rfl
@[simp] theorem shiftSample_eos : (shiftSample x s).eos = s.eos := rfl
@[simp] theorem shiftSample_srng : (shiftSample x s).srng = s.srng := rfl
@[simp] theorem shiftSample_fifo : (shiftSample x s).fifo = s.fifo := rfl
@[simp] theorem shiftSample_rsp : (shiftSample x s).rsp = s.rsp := rfl
@[simp] theorem shiftSample_beats : (shiftSample x s).beats = s.beats := rfl
@[simp] theorem shiftSample_cmds : (shiftSample x s).cmds = s.cmds := rfl
@[simp] theorem shiftSample_turns : (shiftSample x s).turns = s.turns := rfl
@[simp] theorem shiftSample_tick : (shiftSample x s).tick = s.tick := rfl

end

/-! ### rejectPosition -/

section
variable (s : State)

@[simp] theorem rejectPosition_pos : (rejectPosition s).pos = s.pos + 1 := rfl
@[simp] theorem rejectPosition_lo : (rejectPosition s).lo = s.lo := rfl
@[simp] theorem rejectPosition_bph : (rejectPosition s).bph = s.bph := rfl
@[simp] theorem rejectPosition_sph : (rejectPosition s).sph = s.sph := rfl
@[simp] theorem rejectPosition_h : (rejectPosition s).h = s.h := rfl
@[simp] theorem rejectPosition_w : (rejectPosition s).w = s.w.tail := rfl
@[simp] theorem rejectPosition_prev : (rejectPosition s).prev = BitVec.ofNat 29 (peakSum (windowGet s) 0) := rfl
@[simp] theorem rejectPosition_eos : (rejectPosition s).eos = s.eos := rfl
@[simp] theorem rejectPosition_srng : (rejectPosition s).srng = s.srng := rfl
@[simp] theorem rejectPosition_fifo : (rejectPosition s).fifo = s.fifo := rfl
@[simp] theorem rejectPosition_rsp : (rejectPosition s).rsp = s.rsp := rfl
@[simp] theorem rejectPosition_beats : (rejectPosition s).beats = s.beats := rfl
@[simp] theorem rejectPosition_cmds : (rejectPosition s).cmds = s.cmds := rfl
@[simp] theorem rejectPosition_turns : (rejectPosition s).turns = s.turns := rfl
@[simp] theorem rejectPosition_tick : (rejectPosition s).tick = s.tick := rfl

end

/-! ### acceptFrame -/

section
variable (f : Wide) (s : State)

@[simp] theorem acceptFrame_pos : (acceptFrame f s).pos = s.pos + BitVec.ofNat 64 Config.windowSize := by
  simp only [acceptFrame, advanceBy, emit]
@[simp] theorem acceptFrame_lo : (acceptFrame f s).lo = s.lo := by
  simp only [acceptFrame, advanceBy, emit]
@[simp] theorem acceptFrame_bph : (acceptFrame f s).bph = s.bph := by
  simp only [acceptFrame, advanceBy, emit]
@[simp] theorem acceptFrame_sph : (acceptFrame f s).sph = s.sph := by
  simp only [acceptFrame, advanceBy, emit]
@[simp] theorem acceptFrame_h : (acceptFrame f s).h = s.h := by
  simp only [acceptFrame, advanceBy, emit]
@[simp] theorem acceptFrame_w : (acceptFrame f s).w = s.w.drop Config.windowSize := by
  simp only [acceptFrame, advanceBy, emit]
@[simp] theorem acceptFrame_prev : (acceptFrame f s).prev = 0 := by
  simp only [acceptFrame, advanceBy, emit]
@[simp] theorem acceptFrame_eos : (acceptFrame f s).eos = s.eos := by
  simp only [acceptFrame, advanceBy, emit]
@[simp] theorem acceptFrame_srng : (acceptFrame f s).srng = s.srng := by
  simp only [acceptFrame, advanceBy, emit]
@[simp] theorem acceptFrame_fifo : (acceptFrame f s).fifo = s.fifo ++ [⟨timestampNow s, f⟩] := by
  simp only [acceptFrame, advanceBy, emit]
@[simp] theorem acceptFrame_rsp : (acceptFrame f s).rsp = s.rsp := by
  simp only [acceptFrame, advanceBy, emit]
@[simp] theorem acceptFrame_beats : (acceptFrame f s).beats = s.beats := by
  simp only [acceptFrame, advanceBy, emit]
@[simp] theorem acceptFrame_cmds : (acceptFrame f s).cmds = s.cmds := by
  simp only [acceptFrame, advanceBy, emit]
@[simp] theorem acceptFrame_turns : (acceptFrame f s).turns = s.turns := by
  simp only [acceptFrame, advanceBy, emit]
@[simp] theorem acceptFrame_tick : (acceptFrame f s).tick = s.tick := by
  simp only [acceptFrame, advanceBy, emit]

end

/-! ### resetState -/

section
variable (s : State)

@[simp] theorem resetState_toAjrx : (resetState s).toAjrx = Ajrx.reset := rfl
@[simp] theorem resetState_toInputs : (resetState s).toInputs = s.toInputs := rfl
@[simp] theorem resetState_pos : (resetState s).pos = 0 := rfl
@[simp] theorem resetState_lo : (resetState s).lo = 0 := rfl
@[simp] theorem resetState_bph : (resetState s).bph = false := rfl
@[simp] theorem resetState_sph : (resetState s).sph = false := rfl
@[simp] theorem resetState_h : (resetState s).h = ⟨0, 0, 0, 0, 0, 0, 0, 0⟩ := rfl
@[simp] theorem resetState_w : (resetState s).w = [] := rfl
@[simp] theorem resetState_prev : (resetState s).prev = 0 := rfl
@[simp] theorem resetState_eos : (resetState s).eos = false := rfl
@[simp] theorem resetState_srng : (resetState s).srng = false := rfl
@[simp] theorem resetState_fifo : (resetState s).fifo = [] := rfl
@[simp] theorem resetState_rsp : (resetState s).rsp = none := rfl
@[simp] theorem resetState_beats : (resetState s).beats = s.beats := rfl
@[simp] theorem resetState_cmds : (resetState s).cmds = s.cmds := rfl
@[simp] theorem resetState_turns : (resetState s).turns = s.turns := rfl
@[simp] theorem resetState_tick : (resetState s).tick = s.tick := rfl

end

end Sys2Proof.Machine
end

