-- ==== Sys2Proof/Laws/Ops.lean ====
section
/-! SUPPORT. For each shared operation, once, everything it can do; and the inversion of one step, which proofs about runs cite
instead of unfolding step. -/

namespace Sys2Proof.Machine

/-! ### The FIFO's room -/

theorem fifoHasRoom_iff (depth : FifoDepth) (n : Nat) :
    fifoHasRoom depth n = true ↔ ∀ d, depth = some d → n < d.val := by
  cases depth with
  | none => simp [fifoHasRoom]
  | some d => simp [fifoHasRoom]

theorem fifoIsFull_iff (depth : FifoDepth) (n : Nat) :
    fifoIsFull depth n = true ↔ ∃ d, depth = some d ∧ n = d.val := by
  cases depth with
  | none => simp [fifoIsFull]
  | some d => simp [fifoIsFull]

theorem srcReady_iff (s : State) : srcReady s = true ↔ s.eos = false ∧ s.w.length < 1200 := by
  simp [srcReady, count, Config.windowSize]

theorem corReadyAt_iff (depth : FifoDepth) (s : State) :
    corReadyAt depth s = true ↔ s.w.length = 1200 ∧ ∀ d, depth = some d → s.fifo.length < d.val := by
  simp [corReadyAt, isFull, count, fcnt, Config.windowSize, fifoHasRoom_iff]

theorem not_corReadyAt_of_srcReady {s : State} (h : srcReady s = true) (depth : FifoDepth) :
    corReadyAt depth s = false := by
  rw [srcReady_iff] at h
  by_contra hc
  rw [Bool.not_eq_false, corReadyAt_iff] at hc
  omega

/-! ### Turns and ports -/

theorem takeTurn_of_cons {s : State} {t : Turn} {ts : List Turn} (h : s.turns = t :: ts) :
    takeTurn s = (t, { s with turns := ts, tick := s.tick + 1 }) := by
  simp [takeTurn, h]

theorem takeTurn_of_nil {s : State} (h : s.turns = []) :
    takeTurn s = (Config.freeTurn s.tick, { s with tick := s.tick + 1 }) := by
  simp [takeTurn, h]

/-- Taking a turn changes the list of turns and the model's count of steps, nothing else. -/
theorem takeTurn_snd (s : State) :
    (takeTurn s).2 = { s with turns := s.turns.tail, tick := s.tick + 1 } := by
  rcases h : s.turns with _ | ⟨t, ts⟩
  · rw [takeTurn_of_nil h]
    cases s
    simp_all
  · rw [takeTurn_of_cons h]
    rfl

theorem fetchBeat_cases (s : State) :
    (s.beats = [] ∧ fetchBeat s = none) ∨
    ∃ b rest, s.beats = b :: rest ∧
      ((srcReady s = true ∧ fetchBeat s = some (decodeBeat b, { s with beats := rest })) ∨
       (srcReady s = false ∧ fetchBeat s = some (decodeBeat b, s))) := by
  rcases h : s.beats with _ | ⟨b, rest⟩
  · exact .inl ⟨rfl, by simp [fetchBeat, h]⟩
  · refine .inr ⟨b, rest, rfl, ?_⟩
    cases hr : srcReady s
    · exact .inr ⟨rfl, by simp [fetchBeat, h, hr]⟩
    · exact .inl ⟨rfl, by simp [fetchBeat, h, hr]⟩

theorem fetchCommand_cases (s : State) :
    (s.cmds = [] ∧ fetchCommand s = none) ∨
    ∃ c rest, s.cmds = c :: rest ∧ fetchCommand s = some (decodeCommand c, { s with cmds := rest }) := by
  rcases h : s.cmds with _ | ⟨c, rest⟩
  · exact .inl ⟨rfl, by simp [fetchCommand, h]⟩
  · exact .inr ⟨c, rest, rfl, by simp [fetchCommand, h]⟩

/-! ### The sample byte port -/

theorem acceptByte_low {s : State} (h : s.bph = false) (d : Byte) :
    acceptByte d s = { s with lo := d, bph := true } := by
  simp [acceptByte, h]

theorem acceptByte_high {s : State} (h : s.bph = true) (d : Byte) :
    acceptByte d s = decodeAndFilter (d ++ s.lo) { s with bph := false } := by
  simp [acceptByte, h]

theorem decodeAndFilter_first {s : State} (h : s.sph = false) (x : SampleWord) :
    decodeAndFilter x s =
      { s with srng := s.srng || outOfRange x, h := shiftHistory (sampleOf x) s.h, sph := true } := by
  simp [decodeAndFilter, pairPhase, shiftSample, checkRange, h]

theorem decodeAndFilter_second {s : State} (h : s.sph = true) (x : SampleWord) :
    decodeAndFilter x s =
      { s with
        srng := s.srng || outOfRange x
        h := shiftHistory (sampleOf x) s.h
        sph := false
        w := s.w ++ [powerOf (shiftHistory (sampleOf x) s.h)] } := by
  simp [decodeAndFilter, pairPhase, shiftSample, checkRange, pushPower, appendPower, h]

theorem execInByte_of_ready {s : State} (h : srcReady s = true) (d : Byte) : execInByte d s = .next (acceptByte d s) := by
  simp [execInByte, h]

theorem execInByte_of_held {s : State} (h : srcReady s = false) (d : Byte) : execInByte d s = .next s := by
  simp [execInByte, h]

theorem execInLast_of_ready {s : State} (h : srcReady s = true) : execInLast s = .next { s with eos := true } := by
  simp [execInLast, h]

theorem execInLast_of_held {s : State} (h : srcReady s = false) : execInLast s = .next s := by
  simp [execInLast, h]

/-- An accepted byte changes LO, the phases, SRNG, H and W at most. -/
theorem acceptByte_frame (d : Byte) (s : State) :
    acceptByte d s =
      { s with
        lo := (acceptByte d s).lo
        bph := (acceptByte d s).bph
        sph := (acceptByte d s).sph
        srng := (acceptByte d s).srng
        h := (acceptByte d s).h
        w := (acceptByte d s).w } := by
  unfold acceptByte decodeAndFilter pairPhase
  repeat' split
  all_goals rfl

@[simp] theorem acceptByte_pos (d : Byte) (s : State) : (acceptByte d s).pos = s.pos := by rw [acceptByte_frame]
@[simp] theorem acceptByte_prev (d : Byte) (s : State) : (acceptByte d s).prev = s.prev := by rw [acceptByte_frame]
@[simp] theorem acceptByte_eos (d : Byte) (s : State) : (acceptByte d s).eos = s.eos := by rw [acceptByte_frame]
@[simp] theorem acceptByte_fifo (d : Byte) (s : State) : (acceptByte d s).fifo = s.fifo := by rw [acceptByte_frame]
@[simp] theorem acceptByte_rsp (d : Byte) (s : State) : (acceptByte d s).rsp = s.rsp := by rw [acceptByte_frame]
@[simp] theorem acceptByte_beats (d : Byte) (s : State) : (acceptByte d s).beats = s.beats := by rw [acceptByte_frame]
@[simp] theorem acceptByte_cmds (d : Byte) (s : State) : (acceptByte d s).cmds = s.cmds := by rw [acceptByte_frame]
@[simp] theorem acceptByte_turns (d : Byte) (s : State) : (acceptByte d s).turns = s.turns := by rw [acceptByte_frame]
@[simp] theorem acceptByte_tick (d : Byte) (s : State) : (acceptByte d s).tick = s.tick := by rw [acceptByte_frame]

/-! ### The correlator -/

/-- COR's turn: an acceptance, a rejection, or nothing while it is held. -/
theorem corTurnAt_cases (depth : FifoDepth) (s : State) :
    (corReadyAt depth s = false ∧ corTurnAt depth s = s) ∨
    (corReadyAt depth s = true ∧ candidateFrame (windowGet s) s.prev.toNat = none ∧
      corTurnAt depth s = rejectPosition s) ∨
    ∃ frame, corReadyAt depth s = true ∧ candidateFrame (windowGet s) s.prev.toNat = some frame ∧
      corTurnAt depth s = acceptFrame frame s := by
  cases hr : corReadyAt depth s
  · exact .inl ⟨rfl, by simp [corTurnAt, hr]⟩
  · rcases hc : candidateFrame (windowGet s) s.prev.toNat with _ | frame
    · exact .inr (.inl ⟨rfl, rfl, by simp [corTurnAt, corEval, hr, hc]⟩)
    · exact .inr (.inr ⟨frame, rfl, rfl, by simp [corTurnAt, corEval, hr, hc]⟩)

/-! ### The command port -/

theorem execPopf_nil {s : State} (h : s.fifo = []) : execPopf s = .next (raise .errEmpty s) := by
  simp [execPopf, h]

theorem execPopf_cons {s : State} {e : FrameEntry} {rest : List FrameEntry} (h : s.fifo = e :: rest) :
    execPopf s = .next (respond e.ts e.frame { s with fifo := rest }) := by
  simp [execPopf, dropFrame, h]

/-! ### One step -/

/-- Everything one step can do: a reset, COR's turn, a SRC or HOST turn with nothing on offer, a beat, or a command, with a
reserved opcode or decoded. -/
theorem step_cases {s : State} {r : Host.Outcome State Fault Refusal} (h : step s = r) :
    ((takeTurn s).1 = .rst ∧ r = .next (resetState (takeTurn s).2)) ∨
    ((takeTurn s).1 = .cor ∧ r = .next (corTurnAt Config.fifoDepth (takeTurn s).2)) ∨
    ((takeTurn s).1 = .src ∧ s.beats = [] ∧ r = .next (takeTurn s).2) ∨
    (∃ b rest, (takeTurn s).1 = .src ∧ s.beats = b :: rest ∧
      r = exec (decodeBeat b)
        (if srcReady s then { (takeTurn s).2 with beats := rest } else (takeTurn s).2)) ∨
    ((takeTurn s).1 = .host ∧ s.cmds = [] ∧ r = .next (takeTurn s).2) ∨
    (∃ c rest err, (takeTurn s).1 = .host ∧ s.cmds = c :: rest ∧ decodeCommand c = .error err ∧
      r = .next (raise .errIllegalOp { (takeTurn s).2 with cmds := rest })) ∨
    (∃ c rest i, (takeTurn s).1 = .host ∧ s.cmds = c :: rest ∧ decodeCommand c = .ok i ∧
      r = exec i { (takeTurn s).2 with cmds := rest }) := by
  subst h
  have hb : (takeTurn s).2.beats = s.beats := by rw [takeTurn_snd]
  have hc : (takeTurn s).2.cmds = s.cmds := by rw [takeTurn_snd]
  have hr : srcReady (takeTurn s).2 = srcReady s := by rw [takeTurn_snd]; rfl
  rcases ht : (takeTurn s).1
  · -- SRC
    rcases hs : s.beats with _ | ⟨b, rest⟩
    · simp [step, ht, turnStep, srcTurn, fetchBeat, hb, hs]
    · simp [step, ht, turnStep, srcTurn, fetchBeat, hb, hs, hr]
  · -- COR
    simp [step, ht, turnStep]
  · -- HOST
    rcases hs : s.cmds with _ | ⟨c, rest⟩
    · simp [step, ht, turnStep, hostTurn, fetchCommand, hc, hs]
    · rcases hd : decodeCommand c with err | i
      · simp [step, ht, turnStep, hostTurn, fetchCommand, hc, hs, hd]
      · simp [step, ht, turnStep, hostTurn, fetchCommand, hc, hs, hd]
  · -- reset
    simp [step, ht, turnStep]

/-- Everything exec can do: a command changes the response, and POPF the queue; a held beat changes nothing; IN.LAST sets EOS;
IN.BYTE takes its byte. -/
theorem exec_next_cases {i : Instr} {s t : State} (h : exec i s = .next t) :
    (∃ r f, t = { s with rsp := r, fifo := f } ∧ (f = s.fifo ∨ (i = .popf ∧ f = s.fifo.tail)) ∧
      (∃ x, r = some x) ∧ i.isCommand = true) ∨
    (t = s ∧ srcReady s = false) ∨
    (srcReady s = true ∧ i = .inLast ∧ t = { s with eos := true }) ∨
    (srcReady s = true ∧ ∃ d, i = .inByte d ∧ t = acceptByte d s) := by
  by_cases hi : i.isCommand = true
  · left
    cases i <;> simp only [Instr.isCommand, Bool.false_eq_true] at hi <;> clear hi
    all_goals
      simp only [exec, execXtru, execTbit, execBlen, execBat, execBrng, execCrc, execCprd, cprdAt, answerCpr, execPopf, execWget,
        execRdsr] at h
    all_goals (repeat' split at h)
    all_goals
      injection h with h
      subst h
      first
        | exact ⟨_, _, rfl, .inl rfl, ⟨_, rfl⟩, rfl⟩
        | exact ⟨_, _, rfl, .inr ⟨rfl, rfl⟩, ⟨_, rfl⟩, rfl⟩
  · right
    cases i <;> simp [Instr.isCommand] at hi
    all_goals simp only [exec, execInByte, execInLast] at h
    all_goals split at h <;> injection h with h <;> subst h <;> rename_i h'
    · exact .inr (.inr ⟨h', _, rfl, rfl⟩)
    · exact .inl ⟨rfl, by simpa using h'⟩
    · exact .inr (.inl ⟨h', rfl, rfl⟩)
    · exact .inl ⟨rfl, by simpa using h'⟩

/-- Every next state one step can have, agent by agent. -/
theorem step_next_cases {s t : State} (h : step s = .next t) :
    ((takeTurn s).1 = .rst ∧ t = resetState (takeTurn s).2) ∨
    ((takeTurn s).1 = .cor ∧ t = corTurnAt Config.fifoDepth (takeTurn s).2) ∨
    ((takeTurn s).1 = .src ∧ (s.beats = [] ∨ srcReady s = false) ∧ t = (takeTurn s).2) ∨
    (∃ b bs, (takeTurn s).1 = .src ∧ s.beats = b :: bs ∧ srcReady s = true ∧ b.getLsbD 8 = true ∧
      t = { (takeTurn s).2 with beats := bs, eos := true }) ∨
    (∃ b bs, (takeTurn s).1 = .src ∧ s.beats = b :: bs ∧ srcReady s = true ∧ b.getLsbD 8 = false ∧
      t = acceptByte (b.extractLsb' 0 8) { (takeTurn s).2 with beats := bs }) ∨
    ((takeTurn s).1 = .host ∧ s.cmds = [] ∧ t = (takeTurn s).2) ∨
    (∃ c cs, (takeTurn s).1 = .host ∧ s.cmds = c :: cs ∧ ∃ r, t =
      { (takeTurn s).2 with cmds := cs, rsp := r, fifo := if decodeCommand c = .ok .popf then s.fifo.tail else s.fifo }) := by
  have er : srcReady (takeTurn s).2 = srcReady s := by rw [takeTurn_snd]; rfl
  have ef : (takeTurn s).2.fifo = s.fifo := by rw [takeTurn_snd]
  rcases step_cases h with ⟨a, h⟩ | ⟨a, h⟩ | ⟨a, hb, h⟩ | ⟨b, bs, ha, hb, h⟩ | ⟨a, hc, h⟩ | ⟨c, cs, _, a, hc, hd, h⟩ |
    ⟨c, cs, i, a, hc, hd, h⟩
  · injection h with h; exact .inl ⟨a, h⟩
  · injection h with h; exact .inr (.inl ⟨a, h⟩)
  · injection h with h; exact .inr (.inr (.inl ⟨a, .inl hb, h⟩))
  · cases hr : srcReady s
    · refine .inr (.inr (.inl ⟨ha, .inr rfl, ?_⟩))
      rw [hr] at h
      simp only [Bool.false_eq_true, if_false] at h
      unfold decodeBeat at h; split at h
      · rw [exec, execInLast_of_held (er.trans hr)] at h; injection h
      · rw [exec, execInByte_of_held (er.trans hr)] at h; injection h
    · rw [hr] at h
      simp only [if_true] at h
      have hr' : srcReady { (takeTurn s).2 with beats := bs } = true := er.trans hr
      unfold decodeBeat at h; split at h
      · rename_i h8
        rw [exec, execInLast_of_ready hr'] at h; injection h with h
        exact .inr (.inr (.inr (.inl ⟨b, bs, ha, hb, rfl, h8, h⟩)))
      · rename_i h8
        rw [exec, execInByte_of_ready hr'] at h; injection h with h
        exact .inr (.inr (.inr (.inr (.inl ⟨b, bs, ha, hb, rfl, by simpa using h8, h⟩))))
  · injection h with h; exact .inr (.inr (.inr (.inr (.inr (.inl ⟨a, hc, h⟩)))))
  · injection h with h
    refine .inr (.inr (.inr (.inr (.inr (.inr ⟨c, cs, a, hc, t.rsp, ?_⟩)))))
    rw [if_neg (by rw [hd]; simp), h, ← ef]; rfl
  · refine .inr (.inr (.inr (.inr (.inr (.inr ⟨c, cs, a, hc, t.rsp, ?_⟩)))))
    have hin : ∀ d, i ≠ .inByte d ∧ i ≠ .inLast := by
      intro d
      constructor <;> rintro rfl <;> unfold decodeCommand at hd <;> split at hd <;> cases hd
    by_cases hp : i = .popf
    · subst hp
      rw [if_pos hd]
      rcases hf : s.fifo with _ | ⟨e, rest⟩
      · rw [exec, execPopf_nil (by exact ef.trans hf)] at h; injection h with h; subst h; simp [raise, ef, hf]
      · rw [exec, execPopf_cons (by exact ef.trans hf)] at h; injection h with h; subst h; simp [respond]
    · rw [if_neg (by rw [hd]; simpa using hp)]
      rcases exec_next_cases h.symm with ⟨r, f, rfl, hf | hf, _⟩ | ⟨rfl, hr⟩ | ⟨_, hx, rfl⟩ | ⟨_, d, hx, rfl⟩
      · simp only [hf, ef]
      · exact absurd hf.1 hp
      · rw [← ef]
      · exact absurd hx (hin 0).2
      · exact absurd hx (hin d).1

/-- The step that follows an offer is the offered operation's (log 2): a command's. -/
theorem step_offer_command {c : CommandWord} {i : Instr} (h : decodeCommand c = .ok i) (s : State) :
    step (offer (.command c) s) = exec i { s with tick := s.tick + 1 } := by
  simp [step, offer, takeTurn, turnStep, hostTurn, fetchCommand, h]

end Sys2Proof.Machine
end

