-- ==== Sys2Proof/Laws/Words.lean ====
section
/-! SUPPORT. What the encoder's words are as numbers, and that the decoder's fields read them back. -/

namespace Sys2Proof

/-- Two fields side by side, as a number. -/
theorem toNat_append_eq {m n : Nat} (x : BitVec m) (y : BitVec n) : (x ++ y).toNat = x.toNat * 2 ^ n + y.toNat := by
  rw [BitVec.toNat_append, ← Nat.shiftLeft_add_eq_or_of_lt y.isLt, Nat.shiftLeft_eq]

theorem commandWord_toNat (op a b c : Nat) (d : Wide) :
    (commandWord op a b c d).toNat =
      (((op % 256 * 256 + a % 256) * 256 + b % 256) * 256 + c % 256) * 2 ^ 112 + d.toNat := by
  have h1 := toNat_append_eq (BitVec.ofNat 8 op) (BitVec.ofNat 8 a)
  have h2 := toNat_append_eq (BitVec.ofNat 8 op ++ BitVec.ofNat 8 a) (BitVec.ofNat 8 b)
  have h3 := toNat_append_eq (BitVec.ofNat 8 op ++ BitVec.ofNat 8 a ++ BitVec.ofNat 8 b) (BitVec.ofNat 8 c)
  have h4 := toNat_append_eq (BitVec.ofNat 8 op ++ BitVec.ofNat 8 a ++ BitVec.ofNat 8 b ++ BitVec.ofNat 8 c) d
  refine h4.trans ?_
  rw [h3, h2, h1]
  simp only [BitVec.toNat_ofNat]
  norm_num

theorem cmdOp_commandWord (op a b c : Nat) (d : Wide) : (cmdOp (commandWord op a b c d)).toNat = op % 256 := by
  have hd := d.isLt
  simp only [cmdOp, BitVec.extractLsb'_toNat, commandWord_toNat, Nat.shiftRight_eq_div_pow]
  omega

theorem cmdA_commandWord (op a b c : Nat) (d : Wide) : (cmdA (commandWord op a b c d)).toNat = a % 256 := by
  have hd := d.isLt
  simp only [cmdA, BitVec.extractLsb'_toNat, commandWord_toNat, Nat.shiftRight_eq_div_pow]
  omega

theorem cmdB_commandWord (op a b c : Nat) (d : Wide) : (cmdB (commandWord op a b c d)).toNat = b % 256 := by
  have hd := d.isLt
  simp only [cmdB, BitVec.extractLsb'_toNat, commandWord_toNat, Nat.shiftRight_eq_div_pow]
  omega

theorem cmdC_commandWord (op a b c : Nat) (d : Wide) : (cmdC (commandWord op a b c d)).toNat = c % 256 := by
  have hd := d.isLt
  simp only [cmdC, BitVec.extractLsb'_toNat, commandWord_toNat, Nat.shiftRight_eq_div_pow]
  omega

theorem cmdD_commandWord (op a b c : Nat) (d : Wide) : cmdD (commandWord op a b c d) = d := by
  have hd := d.isLt
  apply BitVec.eq_of_toNat_eq
  simp only [cmdD, BitVec.extractLsb'_toNat, commandWord_toNat, Nat.shiftRight_eq_div_pow]
  omega

theorem packCpr_toNat (xze yze xzo yzo : Nat) (p : Bool) :
    (packCpr xze yze xzo yzo p).toNat =
      (((p.toNat * 2 ^ 17 + yzo % 2 ^ 17) * 2 ^ 17 + xzo % 2 ^ 17) * 2 ^ 17 + yze % 2 ^ 17) * 2 ^ 17 + xze % 2 ^ 17 := by
  have h1 := toNat_append_eq (BitVec.ofBool p) (BitVec.ofNat 17 yzo)
  have h2 := toNat_append_eq (BitVec.ofBool p ++ BitVec.ofNat 17 yzo) (BitVec.ofNat 17 xzo)
  have h3 := toNat_append_eq (BitVec.ofBool p ++ BitVec.ofNat 17 yzo ++ BitVec.ofNat 17 xzo) (BitVec.ofNat 17 yze)
  have h4 := toNat_append_eq
    (BitVec.ofBool p ++ BitVec.ofNat 17 yzo ++ BitVec.ofNat 17 xzo ++ BitVec.ofNat 17 yze) (BitVec.ofNat 17 xze)
  have h : (packCpr xze yze xzo yzo p).toNat =
      (BitVec.ofBool p ++ BitVec.ofNat 17 yzo ++ BitVec.ofNat 17 xzo ++ BitVec.ofNat 17 yze ++
        BitVec.ofNat 17 xze).toNat := by
    rw [packCpr, BitVec.toNat_setWidth, Nat.mod_eq_of_lt]
    exact (BitVec.isLt _).trans (by norm_num)
  rw [h]
  refine h4.trans ?_
  rw [h3, h2, h1]
  simp only [BitVec.toNat_ofNat, BitVec.toNat_ofBool]

end Sys2Proof
end

