-- ==== Sys2Proof/Laws/Bench.lean ====
section
/-! SUPPORT. For the assembler and the test bench, once, everything each definition can do. -/

namespace Sys2Proof.Machine

/-! ### The tokens and the assembler -/

section
variable (b : Bench) (t : State) (k : Tokens) (n : Nat) (bytes : List Byte)

@[simp] theorem tokens_dollar : b.tokens.dollar = b.machine.rsp.map fun r => r.r.extractLsb' 0 64 := rfl
@[simp] theorem tokens_dollarT : b.tokens.dollarT = b.machine.rsp.map fun r => r.t := rfl
@[simp] theorem tokens_dollarF : b.tokens.dollarF = b.popped := rfl
@[simp] theorem value_lit : (NumberOperand.lit n).value k = some n := rfl
@[simp] theorem value_dollar : NumberOperand.dollar.value k = k.dollar.map BitVec.toNat := rfl
@[simp] theorem value_dollarT : NumberOperand.dollarT.value k = k.dollarT.map BitVec.toNat := rfl
@[simp] theorem field_dollarF : BufferOperand.dollarF.field k = k.dollarF.map fun frame => (14, frame) := rfl
@[simp] theorem nextState_next : nextState (.next t) = some t := rfl

/-- A literal of at most 14 bytes is its length and its bytes, packed. -/
theorem field_lit {bytes : List Byte} (h : bytes.length ≤ 14) (k : Tokens) :
    (BufferOperand.lit bytes).field k = some (bytes.length, packBytes bytes) := by
  rw [BufferOperand.field, if_pos h]

end

theorem fit_iff (f : CommandFields) :
    f.fit = true ↔ f.op < 256 ∧ f.a < 256 ∧ f.b < 256 ∧ f.c < 256 ∧ f.d < 2 ^ 112 := by
  simp [CommandFields.fit, and_assoc]

/-- The decoder's fields read back what the assembler put there. -/
theorem word_fields {f : CommandFields} (h : f.fit = true) :
    (cmdOp f.word).toNat = f.op ∧ (cmdA f.word).toNat = f.a ∧ (cmdB f.word).toNat = f.b ∧ (cmdC f.word).toNat = f.c ∧
      cmdD f.word = BitVec.ofNat 112 f.d := by
  rw [fit_iff] at h
  rw [CommandFields.word, cmdOp_commandWord, cmdA_commandWord, cmdB_commandWord, cmdC_commandWord, cmdD_commandWord]
  exact ⟨Nat.mod_eq_of_lt h.1, Nat.mod_eq_of_lt h.2.1, Nat.mod_eq_of_lt h.2.2.1, Nat.mod_eq_of_lt h.2.2.2.1, rfl⟩

/-- A line assembles to the word of its fields where they fit; nothing else assembles. -/
theorem assemble_eq_some_iff (k : Tokens) (c : Command) (w : CommandWord) :
    c.assemble k = some w ↔ ∃ f, c.fields k = some f ∧ f.fit = true ∧ f.word = w := by
  unfold Command.assemble
  rcases c.fields k with _ | f
  · simp
  · by_cases hf : f.fit = true <;> simp [hf]

/-- Only the line POPF has the opcode of POPF. -/
theorem fields_popf {k : Tokens} {c : Command} {f : CommandFields} (h : c.fields k = some f) (hop : f.op = 8) :
    c = .popf := by
  cases c <;> simp [Command.fields, Option.bind_eq_some_iff, Option.bind_eq_bind] at h ⊢ <;> aesop

/-- A word that decodes to POPF has its opcode. -/
theorem cmdOp_of_decode_popf {w : CommandWord} (h : decodeCommand w = .ok .popf) : (cmdOp w).toNat = 8 := by
  unfold decodeCommand at h
  split at h <;> first | assumption | cases h

/-- Only the line POPF assembles to the operation POPF. -/
theorem decode_assemble_popf {k : Tokens} {c : Command} {w : CommandWord} (h : c.assemble k = some w)
    (hd : decodeCommand w = .ok .popf) : c = .popf := by
  obtain ⟨f, hf, hfit, rfl⟩ := (assemble_eq_some_iff k c w).mp h
  exact fields_popf hf ((word_fields hfit).1.symm.trans (cmdOp_of_decode_popf hd))

/-- The word of a number, as XTRU and TBIT read it, is its lowest 64 bits. -/
theorem dValue_ofNat (v : Nat) : dValue (BitVec.ofNat 112 v) = BitVec.ofNat 64 v := by
  apply BitVec.eq_of_toNat_eq
  simp only [dValue, BitVec.extractLsb'_toNat, BitVec.toNat_ofNat, Nat.shiftRight_zero]
  omega

/-- WGET's index is the lowest 16 bits of its number (R274). -/
theorem dIndex_ofNat (v : Nat) : dIndex (BitVec.ofNat 112 v) = v % 65536 := by
  simp only [dIndex, BitVec.extractLsb'_toNat, BitVec.toNat_ofNat, Nat.shiftRight_zero]
  omega

/-! ### Steps of SRC and COR -/

/-- SRC's turn, with a beat on offer that it can take. -/
theorem step_src_of_ready {s : State} {b : Beat} {bs : List Beat} (hb : s.beats = b :: bs) (hr : srcReady s = true) :
    step { s with turns := .src :: s.turns } = exec (decodeBeat b) { s with beats := bs, tick := s.tick + 1 } := by
  have h : srcReady { s with beats := b :: bs, tick := s.tick + 1 } = true := hr
  simp [step, takeTurn, turnStep, srcTurn, fetchBeat, hb, h]

/-- Where COR is enabled the quiet step is its evaluation. -/
theorem quietStep_of_corReady {s : State} (h : corReady s = true) :
    quietStep s = some (corTurnAt Config.fifoDepth { s with tick := s.tick + 1 }) := by
  rw [quietStep, if_pos h]
  rfl

/-- Where SRC is enabled, with a beat on offer, the quiet step is the beat's transfer. -/
theorem quietStep_of_srcReady {s : State} {b : Beat} {bs : List Beat} (hb : s.beats = b :: bs) (hr : srcReady s = true) :
    quietStep s = nextState (exec (decodeBeat b) { s with beats := bs, tick := s.tick + 1 }) := by
  have hc : corReady s = false := not_corReadyAt_of_srcReady hr _
  have hv : (srcReady s && inValid s) = true := by simp [hr, inValid, hb]
  rw [quietStep, if_neg (by simp [hc]), if_pos hv, step_src_of_ready hb hr]

/-- A quiet step is an evaluation of COR or a transfer of SRC. -/
theorem quietStep_cases {s t : State} (h : quietStep s = some t) :
    (corReady s = true ∧ t = corTurnAt Config.fifoDepth { s with tick := s.tick + 1 }) ∨
    (corReady s = false ∧ srcReady s = true ∧ ∃ b bs, s.beats = b :: bs ∧
      exec (decodeBeat b) { s with beats := bs, tick := s.tick + 1 } = .next t) := by
  unfold quietStep at h
  split at h
  · rename_i hc
    injection h with h
    exact .inl ⟨hc, h.symm⟩
  · rename_i hc
    split at h
    · rename_i hs
      rw [Bool.and_eq_true] at hs
      rcases hb : s.beats with _ | ⟨b, bs⟩
      · simp [inValid, hb] at hs
      · rw [step_src_of_ready hb hs.1] at h
        unfold nextState at h
        split at h
        · rename_i hx
          injection h with h
          exact .inr ⟨by simpa using hc, hs.1, b, bs, rfl, h ▸ hx⟩
        · cases h
        · cases h
    · cases h

/-- A beat that SRC takes is answered with a next state. -/
theorem exec_decodeBeat_of_ready {s : State} (h : srcReady s = true) (b : Beat) : ∃ t, exec (decodeBeat b) s = .next t := by
  unfold decodeBeat
  split
  · exact ⟨_, execInLast_of_ready h⟩
  · exact ⟨_, execInByte_of_ready h _⟩

/-- There is no quiet step exactly where COR is not enabled and SRC is not enabled or has no beat. -/
theorem quietStep_eq_none_iff (s : State) :
    quietStep s = none ↔ corReady s = false ∧ (srcReady s = false ∨ s.beats = []) := by
  unfold quietStep
  cases hc : corReady s
  · rw [if_neg (by simp)]
    cases hs : srcReady s
    · simp
    · rcases hb : s.beats with _ | ⟨b, bs⟩
      · simp [inValid, hb]
      · have hr : srcReady { s with beats := bs, tick := s.tick + 1 } = true := hs
        obtain ⟨t, ht⟩ := exec_decodeBeat_of_ready hr b
        have e := (step_src_of_ready hb hs).trans ht
        rw [hb] at e
        simp [inValid, hb, e]
  · simp [step, takeTurn, turnStep]

theorem acceptByte_length_le (d : Byte) (s : State) : (acceptByte d s).w.length ≤ s.w.length + 1 := by
  unfold acceptByte decodeAndFilter pairPhase
  repeat' split
  all_goals simp

/-- Every quiet step lowers the bound. -/
theorem quietStep_lowers_quietBound {s t : State} (h : quietStep s = some t) : quietBound t < quietBound s := by
  rcases quietStep_cases h with ⟨hc, rfl⟩ | ⟨_, hs, b, bs, hb, he⟩
  · have hr : corReadyAt Config.fifoDepth { s with tick := s.tick + 1 } = true := hc
    have hl := ((corReadyAt_iff _ _).mp hr).1
    have hl' : s.w.length = 1200 := hl
    rcases corTurnAt_cases Config.fifoDepth { s with tick := s.tick + 1 } with ⟨h0, _⟩ | ⟨_, _, e⟩ | ⟨f, _, _, e⟩
    · rw [hr] at h0
      cases h0
    · rw [e]
      simp only [quietBound, count, rejectPosition_beats, rejectPosition_w, List.length_tail]
      omega
    · rw [e]
      simp only [quietBound, count, acceptFrame_beats, acceptFrame_w, List.length_drop, Config.windowSize]
      omega
  · have hr : srcReady { s with beats := bs, tick := s.tick + 1 } = true := hs
    unfold decodeBeat at he
    split at he
    · rw [exec, execInLast_of_ready hr] at he
      injection he with he
      subst he
      simp [quietBound, hb]
    · rw [exec, execInByte_of_ready hr] at he
      injection he with he
      subst he
      have hw := acceptByte_length_le (b.extractLsb' 0 8) { s with beats := bs, tick := s.tick + 1 }
      simp only [quietBound, count, acceptByte_beats, hb, List.length_cons] at hw ⊢
      omega

/-- With enough steps allowed, a run of SRC and COR ends where its condition fails or neither has a step. -/
theorem runWhile_stops (goOn : State → Bool) (fuel : Nat) (s : State) (h : quietBound s ≤ fuel) :
    goOn (runWhile goOn fuel s) = false ∨ quietStep (runWhile goOn fuel s) = none := by
  induction fuel generalizing s with
  | zero =>
    right
    rw [runWhile]
    rcases hq : quietStep s with _ | t
    · rfl
    · have := quietStep_lowers_quietBound hq
      omega
  | succ fuel ih =>
    rw [runWhile]
    by_cases hg : goOn s = true
    · rw [if_pos hg]
      rcases hq : quietStep s with _ | t
      · exact .inr hq
      · have := quietStep_lowers_quietBound hq
        exact ih t (by omega)
    · rw [if_neg hg]
      exact .inl (by simpa using hg)

/-- What every quiet step keeps, a run of SRC and COR keeps. -/
theorem runWhile_keeps {P : State → Prop} (goOn : State → Bool)
    (keeps : ∀ s t, P s → goOn s = true → quietStep s = some t → P t) (fuel : Nat) (s : State) (h : P s) :
    P (runWhile goOn fuel s) := by
  induction fuel generalizing s with
  | zero => exact h
  | succ fuel ih =>
    rw [runWhile]
    split
    · rename_i hg
      split
      · rename_i t hq
        exact ih t (keeps s t h hg hq)
      · exact h
    · exact h

/-! ### Commands -/

theorem presentWord_of_decodeCommand {w : CommandWord} {i : Instr} (h : decodeCommand w = .ok i) (b : Bench) :
    presentWord w b =
      (nextState (exec i { b.machine with tick := b.machine.tick + 1 })).map fun t => ⟨t, poppedFrame w t.rsp b.popped⟩ := by
  rw [presentWord, step_offer_command h]
  rcases nextState (exec i { b.machine with tick := b.machine.tick + 1 }) with _ | t <;> rfl

/-- A word that is no POPF leaves `$F` as it was. -/
theorem poppedFrame_of_not_popf {w : CommandWord} (h : decodeCommand w ≠ .ok .popf) (answer : Option Response)
    (old : Option Wide) : poppedFrame w answer old = old := by
  unfold poppedFrame
  split
  · rename_i hd
    exact absurd hd h
  · rfl

/-- A POPF answered with a frame sets `$F` to it. -/
theorem poppedFrame_popf {w : CommandWord} (h : decodeCommand w = .ok .popf) (t : Word64) (frame : Wide) (old : Option Wide) :
    poppedFrame w (some ⟨.ok, t, frame⟩) old = some frame := by
  simp [poppedFrame, h]

theorem runLines_append (l m : List Line) (b : Bench) : runLines (l ++ m) b = (runLines l b).bind (runLines m) := by
  induction l generalizing b with
  | nil => rfl
  | cons line rest ih =>
    rw [List.cons_append, runLines, runLines]
    rcases runLine line b with _ | b'
    · rfl
    · exact ih b'

end Sys2Proof.Machine
end

