-- ==== Sys2Proof/Laws/Inputs.lean ====
section
/-! SUPPORT. The line between AJRX's state and the inputs of the model (10_state.md R39): what each operation, COR's turn and a step
can do with the one and the other. -/

namespace Sys2Proof.Machine

/-- What accepting a byte does to AJRX's state is a function of that state alone, and it leaves the inputs. -/
theorem acceptByte_inputs (d : Byte) (a : Ajrx) (x y : Inputs) :
    ∃ b : Ajrx, acceptByte d ⟨a, x⟩ = ⟨b, x⟩ ∧ acceptByte d ⟨a, y⟩ = ⟨b, y⟩ := by
  rcases Bool.eq_false_or_eq_true a.bph with hb | hb
  · rw [acceptByte_high (s := ⟨a, x⟩) hb, acceptByte_high (s := ⟨a, y⟩) hb]
    rcases Bool.eq_false_or_eq_true a.sph with hs | hs
    · rw [decodeAndFilter_second (by exact hs), decodeAndFilter_second (by exact hs)]
      exact ⟨_, rfl, rfl⟩
    · rw [decodeAndFilter_first (by exact hs), decodeAndFilter_first (by exact hs)]
      exact ⟨_, rfl, rfl⟩
  · rw [acceptByte_low (s := ⟨a, x⟩) hb, acceptByte_low (s := ⟨a, y⟩) hb]
    exact ⟨_, rfl, rfl⟩

/-- An operation's effect on AJRX's state is a function of that state alone, and it leaves the inputs as they are. -/
theorem exec_inputs (i : Instr) (a : Ajrx) (x y : Inputs) :
    ∃ b : Ajrx, exec i ⟨a, x⟩ = .next ⟨b, x⟩ ∧ exec i ⟨a, y⟩ = .next ⟨b, y⟩ := by
  cases i with
  | inByte d =>
    cases hr : srcReady ⟨a, x⟩
    · exact ⟨a, execInByte_of_held hr d, execInByte_of_held (s := ⟨a, y⟩) hr d⟩
    · obtain ⟨b, hx, hy⟩ := acceptByte_inputs d a x y
      refine ⟨b, ?_, ?_⟩
      · rw [exec, execInByte_of_ready hr, hx]
      · rw [exec, execInByte_of_ready (s := ⟨a, y⟩) hr, hy]
  | inLast =>
    cases hr : srcReady ⟨a, x⟩
    · exact ⟨a, execInLast_of_held hr, execInLast_of_held (s := ⟨a, y⟩) hr⟩
    · exact ⟨_, execInLast_of_ready hr, execInLast_of_ready (s := ⟨a, y⟩) hr⟩
  | popf =>
    rcases hf : a.fifo with _ | ⟨e, rest⟩
    · exact ⟨_, execPopf_nil (s := ⟨a, x⟩) hf, execPopf_nil (s := ⟨a, y⟩) hf⟩
    · exact ⟨_, execPopf_cons (s := ⟨a, x⟩) hf, execPopf_cons (s := ⟨a, y⟩) hf⟩
  | rdsr n =>
    have hr : statusRegister n ⟨a, y⟩ = statusRegister n ⟨a, x⟩ := rfl
    simp only [exec, execRdsr, hr]
    split <;> exact ⟨_, rfl, rfl⟩
  | wget n =>
    simp only [exec, execWget, count]
    repeat' split
    all_goals exact ⟨_, rfl, rfl⟩
  | _ =>
    simp only [exec, execXtru, execTbit, execBlen, execBat, execBrng, execCrc, execCprd, cprdAt, answerCpr]
    first
      | exact ⟨_, rfl, rfl⟩
      | split <;> exact ⟨_, rfl, rfl⟩

/-- COR's turn likewise. -/
theorem corTurnAt_inputs (depth : FifoDepth) (a : Ajrx) (x y : Inputs) :
    ∃ b : Ajrx, corTurnAt depth ⟨a, x⟩ = ⟨b, x⟩ ∧ corTurnAt depth ⟨a, y⟩ = ⟨b, y⟩ := by
  have hr : corReadyAt depth ⟨a, y⟩ = corReadyAt depth ⟨a, x⟩ := rfl
  have hg : windowGet ⟨a, y⟩ = windowGet ⟨a, x⟩ := rfl
  cases h : corReadyAt depth ⟨a, x⟩
  · exact ⟨a, by rw [corTurnAt, h]; rfl, by rw [corTurnAt, hr, h]; rfl⟩
  · rcases hc : candidateFrame (windowGet ⟨a, x⟩) a.prev.toNat with _ | frame
    · exact ⟨(rejectPosition ⟨a, x⟩).toAjrx, by rw [corTurnAt, h, if_pos rfl, corEval, hc]; rfl,
        by rw [corTurnAt, hr, h, if_pos rfl, corEval, hg, hc]; rfl⟩
    · exact ⟨(acceptFrame frame ⟨a, x⟩).toAjrx, by rw [corTurnAt, h, if_pos rfl, corEval, hc]; rfl,
        by rw [corTurnAt, hr, h, if_pos rfl, corEval, hg, hc]; rfl⟩

theorem exec_toAjrx {i : Instr} {s s' t t' : State} (h : exec i s = .next t) (h' : exec i s' = .next t')
    (ha : s.toAjrx = s'.toAjrx) : t.toAjrx = t'.toAjrx := by
  obtain ⟨a, x⟩ := s
  obtain ⟨a', y⟩ := s'
  obtain rfl : a = a' := ha
  obtain ⟨b, hx, hy⟩ := exec_inputs i a x y
  rw [hx] at h
  rw [hy] at h'
  injection h with h
  injection h' with h'
  rw [← h, ← h']

/-- What a step does to AJRX's state is a function of that state, of whose turn it is and of the beat or command that is first on
offer; nothing else of the inputs counts. -/
theorem step_toAjrx {s s' t t' : State} (h : step s = .next t) (h' : step s' = .next t') (ha : s.toAjrx = s'.toAjrx)
    (ht : (takeTurn s).1 = (takeTurn s').1) (hb : s.beats.head? = s'.beats.head?) (hc : s.cmds.head? = s'.cmds.head?) :
    t.toAjrx = t'.toAjrx := by
  obtain ⟨a, x⟩ := s
  obtain ⟨a', y⟩ := s'
  obtain rfl : a = a' := ha
  have ex : (takeTurn ⟨a, x⟩).2 = ⟨a, { x with turns := x.turns.tail, tick := x.tick + 1 }⟩ := takeTurn_snd _
  have ey : (takeTurn ⟨a, y⟩).2 = ⟨a, { y with turns := y.turns.tail, tick := y.tick + 1 }⟩ := takeTurn_snd _
  obtain ⟨bx, cx, tx, kx⟩ := x
  obtain ⟨by', cy, ty, ky⟩ := y
  rw [step, ex] at h
  rw [step, ey, ← ht] at h'
  generalize (takeTurn ⟨a, bx, cx, tx, kx⟩).1 = turn at h h'
  cases turn with
  | rst =>
    injection h with h
    injection h' with h'
    rw [← h, ← h']
    rfl
  | cor =>
    injection h with h
    injection h' with h'
    obtain ⟨b, hx, hy⟩ := corTurnAt_inputs Config.fifoDepth a ⟨bx, cx, tx.tail, kx + 1⟩ ⟨by', cy, ty.tail, ky + 1⟩
    rw [← h, ← h', hx, hy]
  | src =>
    rcases bx with _ | ⟨b, bs⟩ <;> rcases by' with _ | ⟨b', bs'⟩
    · injection h with h
      injection h' with h'
      rw [← h, ← h']
    · cases hb
    · cases hb
    · injection hb with hb
      obtain rfl : b = b' := hb
      refine exec_toAjrx (i := decodeBeat b) h h' ?_
      rw [apply_ite State.toAjrx, apply_ite State.toAjrx, ite_self, ite_self]
  | host =>
    rcases cx with _ | ⟨c, cs⟩ <;> rcases cy with _ | ⟨c', cs'⟩
    · injection h with h
      injection h' with h'
      rw [← h, ← h']
    · cases hc
    · cases hc
    · injection hc with hc
      obtain rfl : c = c' := hc
      simp only [turnStep, hostTurn, fetchCommand] at h h'
      rcases hd : decodeCommand c with err | i
      · rw [hd] at h h'
        injection h with h
        injection h' with h'
        rw [← h, ← h']
        rfl
      · rw [hd] at h h'
        exact exec_toAjrx h h' rfl

end Sys2Proof.Machine
end

