-- ==== Sys2Proof/Laws/PerInstr.lean ====
section
/-! SUPPORT. The family TableMatch: the encoding of every operation carries the fixed bits of its row of spec/opcode_table.json
(the row's match under its mask). -/

namespace Sys2Proof.Laws

/-- The mask and the match of a command's row: only OP is fixed (R90). -/
def commandRow (opcode : Nat) : Encoding → Prop
  | .command w => w &&& 0xFF0000000000000000000000000000000000 = BitVec.ofNat 144 (opcode * 2 ^ 136)
  | .beat _ => False

/-- The mask and the match of a beat's row: only in_last is fixed (R81). -/
def beatRow (fixed : Beat) : Encoding → Prop
  | .command _ => False
  | .beat b => b &&& 0x100 = fixed

def TableMatch.Statement (i : Instr) : Prop :=
  match i with
  | .xtru _ _ _ => commandRow 0x01 (encode i)
  | .tbit _ _ => commandRow 0x02 (encode i)
  | .blen _ _ => commandRow 0x03 (encode i)
  | .bat _ _ _ => commandRow 0x04 (encode i)
  | .brng _ _ _ _ => commandRow 0x05 (encode i)
  | .crc _ _ => commandRow 0x06 (encode i)
  | .cprd _ _ _ _ _ => commandRow 0x07 (encode i)
  | .popf => commandRow 0x08 (encode i)
  | .wget _ => commandRow 0x09 (encode i)
  | .rdsr _ => commandRow 0x0A (encode i)
  | .inByte _ => beatRow 0x000 (encode i)
  | .inLast => beatRow 0x100 (encode i)

/-- A word under the opcode mask keeps its OP field. -/
theorem and_opcode_mask (x : Nat) : x &&& ((2 ^ 8 - 1) <<< 136) = (x / 2 ^ 136 % 2 ^ 8) * 2 ^ 136 := by
  rw [← Nat.and_two_pow_sub_one_eq_mod, ← Nat.shiftLeft_eq, ← Nat.shiftRight_eq_div_pow]
  apply Nat.eq_of_testBit_eq
  intro i
  simp only [Nat.testBit_and, Nat.testBit_shiftLeft, Nat.testBit_shiftRight]
  by_cases h : 136 ≤ i
  · simp [h, Nat.add_sub_cancel' h]
  · simp [h]

/-- A command word under the opcode mask is its opcode followed by zeros. -/
theorem commandWord_under_mask (op a b c : Nat) (d : Wide) : commandRow op (.command (commandWord op a b c d)) := by
  have hm : (0xFF0000000000000000000000000000000000 : CommandWord).toNat = (2 ^ 8 - 1) <<< 136 := by decide +kernel
  apply BitVec.eq_of_toNat_eq
  have hd := d.isLt
  rw [BitVec.toNat_and, hm, and_opcode_mask, commandWord_toNat, BitVec.toNat_ofNat]
  omega

theorem TableMatch.xtru (start size : Nat) (value : Word64) : TableMatch.Statement (.xtru start size value) :=
  commandWord_under_mask 1 _ _ _ _

theorem TableMatch.tbit (index : Nat) (value : Word64) : TableMatch.Statement (.tbit index value) :=
  commandWord_under_mask 2 _ _ _ _

theorem TableMatch.blen (n : Nat) (buf : Wide) : TableMatch.Statement (.blen n buf) :=
  commandWord_under_mask 3 _ _ _ _

theorem TableMatch.bat (index n : Nat) (buf : Wide) : TableMatch.Statement (.bat index n buf) :=
  commandWord_under_mask 4 _ _ _ _

theorem TableMatch.brng (lower upper n : Nat) (buf : Wide) : TableMatch.Statement (.brng lower upper n buf) :=
  commandWord_under_mask 5 _ _ _ _

theorem TableMatch.crc (n : Nat) (buf : Wide) : TableMatch.Statement (.crc n buf) :=
  commandWord_under_mask 6 _ _ _ _

theorem TableMatch.cprd (xze yze xzo yzo : Nat) (p : Bool) : TableMatch.Statement (.cprd xze yze xzo yzo p) :=
  commandWord_under_mask 7 _ _ _ _

theorem TableMatch.popf : TableMatch.Statement .popf := commandWord_under_mask 8 _ _ _ _

theorem TableMatch.wget (i : Nat) : TableMatch.Statement (.wget i) := commandWord_under_mask 9 _ _ _ _

theorem TableMatch.rdsr (n : Nat) : TableMatch.Statement (.rdsr n) := commandWord_under_mask 10 _ _ _ _

theorem TableMatch.inByte (d : Byte) : TableMatch.Statement (.inByte d) := by
  show d.setWidth 9 &&& 0x100 = 0x000
  revert d
  decide

theorem TableMatch.inLast : TableMatch.Statement .inLast := by
  show (0x100 : Beat) &&& 0x100 = 0x100
  decide

end Sys2Proof.Laws
end

