-- ==== Sys2Proof/Laws/Values.lean ====
section
/-! SUPPORT. The small lemmas of the pure functions: lengths, bounds and unfolding equations, so that later proofs cite them and do
not unfold the functions again. -/

namespace Sys2Proof.Machine

/-! ### Byte buffers -/

@[simp] theorem bufBytes_length (n : Nat) (buf : Wide) : (bufBytes n buf).length = n := by simp [bufBytes]

@[simp] theorem bufBytes_zero (buf : Wide) : bufBytes 0 buf = [] := rfl

theorem byteAt_toNat (buf : Wide) (i : Nat) : (byteAt buf i).toNat = buf.toNat / 2 ^ (104 - 8 * i) % 256 := by
  simp [byteAt, Nat.shiftRight_eq_div_pow]

theorem bigEndian_foldl (bytes : List Byte) (acc : Nat) :
    bytes.foldl (fun acc b => acc * 256 + b.toNat) acc = acc * 256 ^ bytes.length + bigEndian bytes := by
  induction bytes generalizing acc with
  | nil => simp [bigEndian]
  | cons b bs ih =>
    simp only [bigEndian, List.foldl_cons, List.length_cons]
    rw [ih, ih (0 * 256 + b.toNat)]
    ring

@[simp] theorem bigEndian_nil : bigEndian [] = 0 := rfl

theorem bigEndian_cons (b : Byte) (bs : List Byte) :
    bigEndian (b :: bs) = b.toNat * 256 ^ bs.length + bigEndian bs := by
  simp only [bigEndian, List.foldl_cons]
  rw [bigEndian_foldl]
  simp [bigEndian]

theorem bigEndian_append (as bs : List Byte) :
    bigEndian (as ++ bs) = bigEndian as * 256 ^ bs.length + bigEndian bs := by
  simp only [bigEndian, List.foldl_append]
  rw [bigEndian_foldl]
  simp [bigEndian]

theorem bigEndian_lt (bytes : List Byte) : bigEndian bytes < 256 ^ bytes.length := by
  induction bytes with
  | nil => simp
  | cons b bs ih =>
    have hb : b.toNat < 256 := b.isLt
    rw [bigEndian_cons, List.length_cons, pow_succ]
    nlinarith

theorem bigEndian_map_range (f : Nat → Byte) (n : Nat) :
    bigEndian ((List.range n).map f) = ∑ j ∈ Finset.range n, (f j).toNat * 256 ^ (n - 1 - j) := by
  induction n with
  | zero => simp
  | succ n ih =>
    rw [List.range_succ, List.map_append, bigEndian_append, ih, Finset.sum_range_succ, Finset.sum_mul]
    simp [bigEndian]
    apply Finset.sum_congr rfl
    intro j hj
    simp at hj
    rw [mul_assoc, ← pow_succ]
    congr 2; omega

/-- Packed bytes are read back (R53). -/
theorem bufBytes_packBytes (bs : List Byte) (h : bs.length = 14) : bufBytes 14 (packBytes bs) = bs := by
  apply List.ext_getElem
  · simp [h]
  intro i h1 h2
  simp only [bufBytes, List.getElem_map, List.getElem_range]
  apply BitVec.eq_of_toNat_eq
  rw [byteAt_toNat]
  have hl := bigEndian_lt bs
  rw [h] at hl
  have : (packBytes bs).toNat = bigEndian bs := by
    simp only [packBytes, h, Config.bufCap, BitVec.toNat_ofNat, Nat.sub_self, pow_zero, mul_one]
    exact Nat.mod_eq_of_lt (lt_of_lt_of_le hl (by norm_num))
  rw [this]
  have hi : i < 14 := by simpa using h1
  have e1 : bs = bs.take i ++ (bs[i] :: bs.drop (i+1)) := by simp
  have e2 : bigEndian bs = bigEndian (bs.take i) * 256 ^ (14 - i) + (bs[i].toNat * 256 ^ (13 - i) + bigEndian (bs.drop (i+1))) := by
    conv_lhs => rw [e1]
    rw [bigEndian_append, bigEndian_cons]
    simp [h]
  have h3 := bigEndian_lt (bs.drop (i+1))
  simp only [List.length_drop, h] at h3
  rw [show 14 - (i+1) = 13 - i by omega] at h3
  rw [e2, show 2 ^ (104 - 8 * i) = 256 ^ (13 - i) by rw [show (256:Nat) = 2^8 by norm_num, ← pow_mul]; congr 1; omega]
  rw [show 14 - i = (13 - i) + 1 by omega, pow_succ]
  have hb := bs[i].isLt
  have hp : 0 < 256 ^ (13 - i) := by positivity
  generalize 256 ^ (13 - i) = q at *
  rw [show bigEndian (bs.take i) * (q * 256) + (bs[i].toNat * q + bigEndian (bs.drop (i+1))) =
    bigEndian (bs.drop (i+1)) + (bigEndian (bs.take i) * 256 + bs[i].toNat) * q by ring]
  rw [Nat.add_mul_div_right _ _ hp, Nat.div_eq_of_lt h3]
  omega

/-! ### CRC-24 -/

@[simp] theorem byteBits_length (b : Byte) : (byteBits b).length = 8 := rfl

@[simp] theorem crc24_nil : crc24 [] = 0 := by decide +kernel

theorem crc24_eq_foldl (bytes : List Byte) : crc24 bytes = [0, 0, 0].foldl crcByte (bytes.foldl crcByte 0) := by
  simp [crc24, augment]

theorem crc24ByTable_eq_foldl (bytes : List Byte) :
    crc24ByTable bytes = [0, 0, 0].foldl crcByteByTable (bytes.foldl crcByteByTable 0) := by
  simp [crc24ByTable, augment]

/-! ### The power filter -/

theorem sample_bounds (x : Sample) : -2048 ≤ x.toInt ∧ x.toInt ≤ 2047 := by
  have h1 := x.le_toInt
  have h2 := x.toInt_lt
  norm_num at h1 h2
  omega

theorem sumA_bounds (h : History) : -8190 ≤ sumA h ∧ sumA h ≤ 8190 := by
  have h0 := sample_bounds h.h0
  have h2 := sample_bounds h.h2
  have h4 := sample_bounds h.h4
  have h6 := sample_bounds h.h6
  unfold sumA
  omega

theorem sumB_bounds (h : History) : -8190 ≤ sumB h ∧ sumB h ≤ 8190 := by
  have h1 := sample_bounds h.h1
  have h3 := sample_bounds h.h3
  have h5 := sample_bounds h.h5
  have h7 := sample_bounds h.h7
  unfold sumB
  omega

/-! ### The window and the correlator -/

theorem windowGet_lt (s : State) (i : Nat) : windowGet s i < 2 ^ 27 := by
  unfold windowGet
  exact BitVec.isLt _

theorem peakSum_windowGet_lt (s : State) (o : Nat) : peakSum (windowGet s) o < 2 ^ 29 := by
  have h0 := windowGet_lt s o
  have h1 := windowGet_lt s (o + 10)
  have h2 := windowGet_lt s (o + 35)
  have h3 := windowGet_lt s (o + 45)
  unfold peakSum
  omega

@[simp] theorem slicedBytes_length (get : Nat → Nat) : (slicedBytes get).length = 14 := by
  simp [slicedBytes, Config.bufCap]

theorem candidateFrame_eq_some {get : Nat → Nat} {prev : Nat} {frame : Wide} (h : candidateFrame get prev = some frame) :
    preambleTest get prev = true ∧ (slicedByte get 0).toNat / 8 = 17 ∧ crc24 (slicedBytes get) = 0 ∧
      frame = packBytes (slicedBytes get) := by
  unfold candidateFrame at h
  split at h
  · split at h
    · split at h
      · rename_i h1 h2 h3
        exact ⟨h1, h2, h3, by simpa using h.symm⟩
      · cases h
    · cases h
  · cases h

theorem candidateFrame_eq_none {get : Nat → Nat} {prev : Nat} (h : candidateFrame get prev = none) :
    ¬(preambleTest get prev = true ∧ (slicedByte get 0).toNat / 8 = 17 ∧ crc24 (slicedBytes get) = 0) := by
  rintro ⟨h1, h2, h3⟩
  simp [candidateFrame, h1, h2, h3, Config.dfAdsb] at h

/-! ### R174's loop -/

theorem demodLoop_add (j k : Nat) (powers : List Nat) (d : DemodState) :
    demodLoop (j + k) powers d = demodLoop k powers (demodLoop j powers d) := by
  induction j generalizing d with
  | zero => simp [demodLoop]
  | succ j ih =>
    rw [Nat.succ_add]
    by_cases h : d.p + Config.windowSize ≤ powers.length
    · simp only [demodLoop, h, if_true]
      exact ih _
    · have stay : ∀ n, demodLoop n powers d = d := by
        intro n
        cases n with
        | zero => rfl
        | succ n => simp [demodLoop, h]
      simp [stay]

theorem demodLoop_of_short {powers : List Nat} {d : DemodState} (h : powers.length < d.p + Config.windowSize) (k : Nat) :
    demodLoop k powers d = d := by
  cases k with
  | zero => rfl
  | succ k => simp [demodLoop, Nat.not_le.mpr h]

theorem demodLoop_succ (k : Nat) (powers : List Nat) (d : DemodState) :
    demodLoop (k + 1) powers d =
      if (demodLoop k powers d).p + Config.windowSize ≤ powers.length then demodStep powers (demodLoop k powers d)
      else demodLoop k powers d := by
  rw [demodLoop_add]
  rfl

/-! ### CPR tables -/

theorem teTable_length : teTable.length = 58 := rfl

theorem toTable_length : toTable.length = 58 := rfl

/-- Both tables are strictly decreasing in k (R240). -/
theorem teTable_decreasing : teTable.Pairwise (· > ·) := by decide

theorem toTable_decreasing : toTable.Pairwise (· > ·) := by decide

theorem crcTable_length : crcTable.length = 256 := by decide +kernel

end Sys2Proof.Machine
end

