-- ==== Sys2Proof/Machine/ProgramText.lean ====
section
/-! DEFINITION. The text of a program line (30_encoding.md R95 to R97): comments, numbers, tokens, byte-buffer literals, mnemonics.
What R95 leaves open about blanks, letter case and blank lines is log 25. -/

namespace Sys2Proof.Machine

/-! ### Pieces of a line -/

/-- A space or a tab. -/
def isBlank (c : Char) : Bool := c.toNat == 32 || c.toNat == 9

/-- The text without the blanks around it. -/
def trimBlanks (text : List Char) : List Char := ((text.dropWhile isBlank).reverse.dropWhile isBlank).reverse

/-- The text before a comment, `#` to the end of the line. -/
def beforeComment (text : List Char) : List Char := text.takeWhile fun c => c != '#'

/-- The pieces between commas; no piece for a text without one and without content. -/
def splitCommas (text : List Char) : List (List Char) :=
  let pieces : List (List Char) := text.foldr
    (fun c acc =>
      match acc with
      | piece :: rest => if c = ',' then [] :: piece :: rest else (c :: piece) :: rest
      | [] => [])
    [[]]
  match pieces with
  | [[]] => []
  | _ => pieces.map trimBlanks

/-! ### Operands -/

/-- Digits as a number in a base, the first digit most significant. -/
def readDigits (base : Nat) (digits : List Char) : Option Nat :=
  digits.foldl
    (fun acc c =>
      match acc, hexDigit c with
      | some n, some d => if d < base then some (base * n + d) else none
      | _, _ => none)
    (some 0)

/-- A number: decimal, or hexadecimal with `0x`. -/
def readNat : List Char → Option Nat
  | [] => none
  | ['0', 'x'] => none
  | '0' :: 'x' :: digits => readDigits 16 digits
  | digits => readDigits 10 digits

def readNumber (text : List Char) : Option NumberOperand :=
  match text with
  | ['$'] => some .dollar
  | ['$', 'T'] => some .dollarT
  | _ => (readNat text).map .lit

/-- The digits between the quotation marks of `h"…"`. -/
def literalDigits : List Char → Option (List Char)
  | 'h' :: opening :: rest =>
    if opening.toNat = 34 ∧ rest.getLast?.map Char.toNat = some 34 then some rest.dropLast else none
  | _ => none

def readBuffer (text : List Char) : Option BufferOperand :=
  match text with
  | ['$', 'F'] => some .dollarF
  | _ =>
    match literalDigits text with
    | some digits => (bufferLiteral digits).map .lit
    | none => none

/-! ### Lines -/

/-- A command line by mnemonic and operands, in the order of R95's table. -/
def readCommand (name : List Char) (operands : List (List Char)) : Option Command :=
  match operands with
  | [] => if name = ['P', 'O', 'P', 'F'] then some .popf else none
  | [a] =>
    if name = ['B', 'L', 'E', 'N'] then (readBuffer a).map .blen
    else if name = ['C', 'R', 'C'] then (readBuffer a).map .crc
    else if name = ['W', 'G', 'E', 'T'] then (readNumber a).map .wget
    else if name = ['R', 'D', 'S', 'R'] then (readNumber a).map .rdsr
    else none
  | [a, b] =>
    if name = ['T', 'B', 'I', 'T'] then do return .tbit (← readNumber a) (← readNumber b)
    else if name = ['B', 'A', 'T'] then do return .bat (← readBuffer a) (← readNumber b)
    else none
  | [a, b, c] =>
    if name = ['X', 'T', 'R', 'U'] then do return .xtru (← readNumber a) (← readNumber b) (← readNumber c)
    else if name = ['B', 'R', 'N', 'G'] then do return .brng (← readBuffer a) (← readNumber b) (← readNumber c)
    else none
  | [a, b, c, d, e] =>
    if name = ['C', 'P', 'R', 'D'] then do
      return .cprd (← readNumber a) (← readNumber b) (← readNumber c) (← readNumber d) (← readNumber e)
    else none
  | _ => none

/-- A pseudo-command by name and operand, in the order of R97's table. -/
def readPseudo (name : List Char) (operands : List (List Char)) : Option Pseudo :=
  match operands with
  | [a] =>
    if name = ['D', 'F'] then (readBuffer a).map .df
    else if name = ['C', 'A'] then (readBuffer a).map .ca
    else if name = ['I', 'C', 'A', 'O'] then (readBuffer a).map .icao
    else if name = ['M', 'E'] then (readBuffer a).map .me
    else if name = ['P', 'I'] then (readBuffer a).map .parityField
    else if name = ['T', 'C'] then (readBuffer a).map .tc
    else if name = ['F', 'V', 'A', 'L', 'I', 'D'] then (readBuffer a).map .fvalid
    else if name = ['C', 'P', 'R', 'X'] then (readNumber a).map .cprx
    else if name = ['C', 'P', 'R', 'Y'] then (readNumber a).map .cpry
    else if name = ['C', 'P', 'R', 'F'] then (readNumber a).map .cprf
    else if name = ['A', 'L', 'T', 'F'] then (readNumber a).map .altf
    else none
  | _ => none

/-- A stream directive by name and operand (R96). -/
def readDirective (name : List Char) (operands : List (List Char)) : Option Line :=
  match operands with
  | [] =>
    if name = ['.', 'l', 'a', 's', 't'] then some .last
    else if name = ['.', 's', 'e', 't', 't', 'l', 'e'] then some .settle
    else none
  | [a] =>
    if name = ['.', 'f', 'e', 'e', 'd'] then
      match literalDigits a with
      | some digits => (hexBytes digits).map .feed
      | none => none
    else none
  | _ => none

/-- A line of text: a command, a pseudo-command, a stream directive or, with nothing before the comment, a comment. -/
def readLine (text : List Char) : Option Line :=
  let body : List Char := trimBlanks (beforeComment text)
  let name : List Char := body.takeWhile fun c => !isBlank c
  let operands : List (List Char) := splitCommas (trimBlanks (body.dropWhile fun c => !isBlank c))
  if body = [] then some .comment
  else
    match readCommand name operands with
    | some c => some (.command c)
    | none =>
      match readPseudo name operands with
      | some p => some (.pseudo p)
      | none => readDirective name operands

/-- A program's lines, if all of them read. -/
def readProgram : List (List Char) → Option (List Line)
  | [] => some []
  | text :: rest =>
    match readLine text, readProgram rest with
    | some line, some lines => some (line :: lines)
    | _, _ => none

end Sys2Proof.Machine
end

