-- ==== Sys2Proof/Tests/Slice0.lean ====
section
/-! SUPPORT. Tests. Expected results come from spec/95_test_vectors.md (the section stands in the docstring) or from the rule named
there. Names test_…: one decoding or one step each. Names witness_…: concrete values that meet the hypotheses of the obligation
named, or of one of its clauses. -/

namespace Sys2Proof.Tests

open Sys2Proof.Machine

/-! The tests are elaborated one after another: threads that wait for the kernel would each hold memory. -/

set_option Elab.async false

/-- The step ended in a next state whose response has these fields. -/
def answers (o : Host.Outcome State Fault Refusal) (status : Status) (t : Word64) (r : Wide) : Bool :=
  match o with
  | .next s => decide (s.rsp = some ⟨status, t, r⟩)
  | .fault _ => false
  | .refused _ => false

/-- The step ended in a next state with this property. -/
def leads (o : Host.Outcome State Fault Refusal) (p : State → Bool) : Bool :=
  match o with
  | .next s => p s
  | .fault _ => false
  | .refused _ => false

/-- A command word decodes to this operation. -/
def decodesTo (w : CommandWord) (i : Instr) : Bool :=
  match decodeCommand w with
  | .ok j => decide (j = i)
  | .error _ => false

/-- The value of the vectors of §5.1 and the frame of §3.2. -/
abbrev v64 : Word64 := 0xFEDCBA9876543210
abbrev frameF : Wide := 0x8D4840D6202CC371C32CE0576098

/-! ### Decoding: words written out in spec/95_test_vectors.md -/

/-- §5.1. -/
theorem test_decode_xtru : decodesTo 0x01040800000000000000FEDCBA9876543210 (.xtru 4 8 v64) = true := by decide +kernel

/-- §5.1. -/
theorem test_decode_tbit : decodesTo 0x023F0000000000000000FEDCBA9876543210 (.tbit 63 v64) = true := by decide +kernel

/-- R82 and R83: OP = 3, C = N = 14. -/
theorem test_decode_blen : decodesTo 0x0300000E8D4840D6202CC371C32CE0576098 (.blen 14 frameF) = true := by decide +kernel

/-- R82 and R83: OP = 4, A = index 13, C = 14. -/
theorem test_decode_bat : decodesTo 0x040D000E8D4840D6202CC371C32CE0576098 (.bat 13 14 frameF) = true := by decide +kernel

/-- P1. -/
theorem test_decode_brng : decodesTo 0x0501040E8D4840D6202CC371C32CE0576098 (.brng 1 4 14 frameF) = true := by decide +kernel

/-- §4.2. -/
theorem test_decode_crc :
    decodesTo 0x0600000B8D4840D6202CC371C32CE0000000 (.crc 11 0x8D4840D6202CC371C32CE0000000) = true := by decide +kernel

/-- P2. -/
theorem test_decode_cprd :
    decodesTo 0x070000000000000000190D73104AD690C8AC (.cprd 51372 93000 50194 74158 true) = true := by decide +kernel

/-- §7. -/
theorem test_decode_popf : decodesTo 0x080000000000000000000000000000000000 .popf = true := by decide +kernel

/-- §7. -/
theorem test_decode_wget : decodesTo 0x0900000000000000000000000000000004AF (.wget 1199) = true := by decide +kernel

/-- §7. -/
theorem test_decode_rdsr : decodesTo 0x0A0500000000000000000000000000000000 (.rdsr 5) = true := by decide +kernel

/-- R81: bits 7:0 are in_data. -/
theorem test_decode_inByte : decodeBeat 0x064 = .inByte 0x64 := by decide

/-- R81: in_last = 1, whatever in_data is. -/
theorem test_decode_inLast : decodeBeat 0x1AB = .inLast := by decide

/-- §7: reserved opcodes. -/
theorem test_decode_reserved :
    decodeCommand 0 = .error (.reservedOpcode 0x00) ∧
    decodeCommand 0x0BFFFFFFFFFFFFFFFFFFFFFFFFFFFFFFFFFF = .error (.reservedOpcode 0x0B) ∧
    decodeCommand 0xFFFFFFFFFFFFFFFFFFFFFFFFFFFFFFFFFFFF = .error (.reservedOpcode 0xFF) := ⟨rfl, rfl, rfl⟩

/-- §7: WGET reads D[15:0] only. -/
theorem test_decode_wget_ignores_high_bits : decodesTo 0x090000000000000000000000000000010000 (.wget 0) = true := by
  decide +kernel

/-- R82, R83, R106: the encoder writes P2's word. -/
theorem test_encode_cprd :
    encode (.cprd 51372 93000 50194 74158 true) = .command 0x070000000000000000190D73104AD690C8AC := by decide +kernel

/-! ### WellFormed: an ill-formed term for each check -/

theorem test_illFormed_xtru_start : (Instr.xtru 256 1 0).wellFormed = false := by decide
theorem test_illFormed_xtru_size : (Instr.xtru 0 256 0).wellFormed = false := by decide
theorem test_illFormed_tbit : (Instr.tbit 256 0).wellFormed = false := by decide
theorem test_illFormed_blen : (Instr.blen 256 0).wellFormed = false := by decide
theorem test_illFormed_bat_index : (Instr.bat 256 14 0).wellFormed = false := by decide
theorem test_illFormed_bat_length : (Instr.bat 0 256 0).wellFormed = false := by decide
theorem test_illFormed_brng_lower : (Instr.brng 256 0 14 0).wellFormed = false := by decide
theorem test_illFormed_brng_upper : (Instr.brng 0 256 14 0).wellFormed = false := by decide
theorem test_illFormed_brng_length : (Instr.brng 0 0 256 0).wellFormed = false := by decide
theorem test_illFormed_crc : (Instr.crc 256 0).wellFormed = false := by decide
theorem test_illFormed_cprd_xze : (Instr.cprd 131072 0 0 0 false).wellFormed = false := by decide
theorem test_illFormed_cprd_yze : (Instr.cprd 0 131072 0 0 false).wellFormed = false := by decide
theorem test_illFormed_cprd_xzo : (Instr.cprd 0 0 131072 0 false).wellFormed = false := by decide
theorem test_illFormed_cprd_yzo : (Instr.cprd 0 0 0 131072 false).wellFormed = false := by decide
theorem test_illFormed_wget : (Instr.wget 65536).wellFormed = false := by decide
theorem test_illFormed_rdsr : (Instr.rdsr 256).wellFormed = false := by decide

/-! ### One step of each operation -/

/-- §5.1: 33 + 31 = 64 is the last valid start for size 31. -/
theorem test_xtru_last_start : answers (exec (.xtru 33 31 v64) State.reset) .ok 0 0x7F6E5D4C = true := by decide +kernel

/-- §5.1. -/
theorem test_xtru_past_the_end : answers (exec (.xtru 34 31 v64) State.reset) .errArg 0 0 = true := by decide +kernel

/-- §5.1. -/
theorem test_tbit_4 : answers (exec (.tbit 4 v64) State.reset) .ok 0 1 = true := by decide +kernel

/-- §5.1. -/
theorem test_tbit_64 : answers (exec (.tbit 64 v64) State.reset) .errArg 0 0 = true := by decide +kernel

/-- R216. -/
theorem test_blen_15 : answers (exec (.blen 15 0) State.reset) .errArg 0 0 = true := by decide +kernel

/-- P1: byte 0 is the most significant byte of D. -/
theorem test_bat_0 : answers (exec (.bat 0 14 frameF) State.reset) .ok 0 0x8D = true := by decide +kernel

/-- R217: byte 13 of an 11-byte buffer. -/
theorem test_bat_past_length : answers (exec (.bat 13 11 frameF) State.reset) .errArg 0 0 = true := by decide +kernel

/-- P1: ME, seven bytes. -/
theorem test_brng_me : answers (exec (.brng 4 11 14 frameF) State.reset) .ok 0 0x202CC371C32CE0 = true := by decide +kernel

/-- P3: eight bytes are too many. -/
theorem test_brng_8_bytes : answers (exec (.brng 3 11 14 frameF) State.reset) .errArg 0 0 = true := by decide +kernel

/-- §4.1: "123456789". -/
theorem test_crc_123456789 : answers (exec (.crc 9 0x3132333435363738390000000000) State.reset) .ok 0 0x054268 = true := by
  decide +kernel

/-- §4.3: byte 5, bit 4 flipped. -/
theorem test_crc_flipped : answers (exec (.crc 14 0x8D4840D6203CC371C32CE0576098) State.reset) .ok 0 0x72F8C3 = true := by
  decide +kernel

/-- P2, for every admissible value of the open parameters. -/
theorem test_cprd_p2 (p : CprParams) :
    cprDecode p 51372 93000 50194 74158 true = .position 0x252AB1E6 0x02CD0EA1 ∧
    cprDecode p 51372 93000 50194 74158 false = .position 0x25292222 0x02C98000 := by
  obtain ⟨_ | _ | _, _ | _, _ | _⟩ := p <;> decide +kernel

/-- §6.8, row 5: a tie in the longitude zone index under two of the tie rules. -/
theorem test_cprd_tie :
    cprDecode ⟨.halfUp, .sixty, .one⟩ 1193 1000 62 983 false = .position 0x00085555 0x0460E3CC ∧
    cprDecode ⟨.halfEven, .sixty, .one⟩ 1193 1000 62 983 false = .position 0x00085555 0x000A1C34 := by decide +kernel

/-- §7: POPF after §3.2 answers the entry and empties the queue. -/
theorem test_popf_entry :
    leads (exec .popf { State.reset with fifo := [⟨2300, frameF⟩] })
      (fun t => decide (t.rsp = some ⟨.ok, 2300, frameF⟩ ∧ t.fifo = [])) = true := by decide +kernel

/-- §7: after reset. -/
theorem test_popf_empty : answers (exec .popf State.reset) .errEmpty 0 0 = true := by decide +kernel

/-- P3: WGET 3 of a window of four. -/
theorem test_wget_3 :
    answers (exec (.wget 3) { State.reset with w := [10000, 40000, 90000, 160000] }) .ok 0 160000 = true := by decide +kernel

/-- P3: WGET 4 of a window of four. -/
theorem test_wget_4 :
    answers (exec (.wget 4) { State.reset with w := [10000, 40000, 90000, 160000] }) .errNotAvail 0 0 = true := by
  decide +kernel

/-- §7. -/
theorem test_rdsr_5 : answers (exec (.rdsr 5) State.reset) .ok 0 0x414A525800000100 = true := by decide +kernel

/-- §2.4: EOS, DONE, BPH and SPH make 0x63, for a queue of depth 1 that is empty. -/
theorem test_status_word :
    statusWordAt (some ⟨1, Nat.le_refl 1⟩) { State.reset with eos := true, bph := true, sph := true } = 0x63 := by
  decide +kernel

/-- §2.2: the fourth word of the stream `64 08 00 08` makes P = 10000; the first sample 100 stands in H[1]. -/
theorem test_inByte_power :
    leads (exec (.inByte 0x08) { State.reset with lo := 0x00, bph := true, sph := true, h := ⟨100, 0, 0, 0, 0, 0, 0, 0⟩ })
      (fun t => decide (t.w = [10000] ∧ t.h = ⟨0, 100, 0, 0, 0, 0, 0, 0⟩ ∧ t.bph = false ∧ t.sph = false)) = true := by
  decide +kernel

/-- §2.3: the word 0x1800 sets SRNG and is the sample 0. -/
theorem test_inByte_out_of_range :
    leads (exec (.inByte 0x18) { State.reset with lo := 0x00, bph := true })
      (fun t => decide (t.srng = true ∧ t.h.h0 = 0 ∧ t.sph = true)) = true := by decide +kernel

/-- §2.4. -/
theorem test_inLast_reset : leads (exec .inLast State.reset) (fun t => decide (t.eos = true) && donePort t) = true := by
  decide +kernel

/-- §2.2: the largest power value. -/
theorem test_largest_power :
    powerOf ⟨0x7FF, 0x7FF, 0x800, 0x800, 0x7FF, 0x7FF, 0x800, 0x800⟩ = 134152200 := by decide +kernel

/-! ### Program lines -/

/-- The bench of P1 after its BAT: `$F` is the popped frame although the last answer is 0x8D. -/
def afterBat : Bench := ⟨{ State.reset with rsp := some ⟨.ok, 0, 0x8D⟩ }, some frameF⟩

/-- P1: `CRC $F`, `BAT $F, 0` and `XTRU $, 3, 5` assemble to the words it shows. -/
theorem test_tokens_assemble :
    (Command.crc .dollarF).assemble afterBat.tokens = some 0x0600000E8D4840D6202CC371C32CE0576098 ∧
    (Command.bat .dollarF (.lit 0)).assemble afterBat.tokens = some 0x0400000E8D4840D6202CC371C32CE0576098 ∧
    (Command.xtru .dollar (.lit 3) (.lit 5)).assemble afterBat.tokens = some 0x01030500000000000000000000000000008D := by
  decide +kernel

/-- §4.2 and R95: a literal of 9 bytes is put at the top of D, with C = 9. -/
theorem test_literal_assembles :
    (Command.crc (.lit [0x31, 0x32, 0x33, 0x34, 0x35, 0x36, 0x37, 0x38, 0x39])).assemble Bench.start.tokens =
      some 0x060000093132333435363738390000000000 := by decide +kernel

/-- R95's rows `D=i`, `D=value` and `D = xe | ...`: after an RDSR 5 the line `WGET $` carries all of `$`, and numbers above the bits
their command reads go into D as they are. -/
theorem test_wide_numbers_assemble :
    (Command.wget .dollar).assemble ⟨some 0x414A525800000100, some 0, none⟩ =
      some 0x09000000000000000000414A525800000100 ∧
    (Command.wget (.lit 0x10000)).assemble Bench.start.tokens = some 0x090000000000000000000000000000010000 ∧
    (Command.tbit (.lit (2 ^ 64 + 1)) (.lit 0)).assemble Bench.start.tokens =
      some 0x020000000000000000010000000000000001 ∧
    (Command.cprd (.lit (2 ^ 17)) (.lit 0) (.lit 0) (.lit 0) (.lit 2)).assemble Bench.start.tokens =
      some 0x070000000000000000200000000000020000 := by decide +kernel

/-- A line whose token stands for nothing yet, and a start of 256 or a D of 113 bits, assemble to nothing (log 17). -/
theorem test_unassembled_lines :
    (Command.crc .dollarF).assemble Bench.start.tokens = none ∧
    (Command.xtru (.lit 0) (.lit 256) (.lit 1)).assemble Bench.start.tokens = none ∧
    (Command.wget (.lit (2 ^ 112))).assemble Bench.start.tokens = none := by decide +kernel

/-- §2.3: `64 08 00 08` gives W[0] = 10000, which a WGET right after the `.feed` answers (R96, as in P3). -/
theorem test_feed_is_taken :
    (runLines [.feed [0x64, 0x08, 0x00, 0x08], .command (.wget (.lit 0))] Bench.start).map (fun b => b.machine.rsp) =
      some (some ⟨.ok, 0, 10000⟩) := by decide +kernel

/-- §2.4: `.last` from reset sets EOS, and no beat stays on offer. -/
theorem test_last_is_taken :
    (runLine .last Bench.start).map (fun b => (b.machine.eos, b.machine.beats)) = some (true, []) := by decide +kernel

/-- P3: a `.feed` line with its comment; R95: a hexadecimal and two decimal numbers. -/
theorem test_readLine :
    readLine ".feed h\"640800\"   # one sample and half a word more".toList = some (.feed [0x64, 0x08, 0x00]) ∧
    readLine "XTRU 0xFEDCBA9876543210, 33, 31".toList =
      some (.command (.xtru (.lit 0xFEDCBA9876543210) (.lit 33) (.lit 31))) ∧
    readLine "# four pairs".toList = some .comment ∧ readLine "CRC h\"640\"".toList = none := by decide +kernel

/-- P1: `BRNG $F, 1, 4` is the line ICAO $F stands for. -/
theorem test_readLine_pseudo :
    readLine "ICAO $F".toList = some (.pseudo (.icao .dollarF)) ∧
    (Pseudo.icao .dollarF).expansion = [.brng .dollarF (.lit 1) (.lit 4)] := by decide +kernel

/-! ### A window with a burst at position 0 -/

/-- Power 1 in the four peak slots and in one half of each payload bit of a frame (R160, R162, R166). -/
def burstPower (frame : Wide) (i : Nat) : Bool :=
  if i = 0 ∨ i = 10 ∨ i = 35 ∨ i = 45 then true
  else if i < 80 then false
  else if i % 10 = 0 then frame.getLsbD (119 - i / 10)
  else if i % 10 = 5 then !frame.getLsbD (119 - i / 10)
  else false

def windowOf (n : Nat) (f : Nat → Bool) : List Power := (List.range n).map fun i => (BitVec.ofBool (f i)).setWidth 27

theorem windowOf_length (n : Nat) (f : Nat → Bool) : (windowOf n f).length = n := by simp [windowOf]

theorem windowOf_getD (n : Nat) (f : Nat → Bool) (i : Nat) :
    ((windowOf n f).getD i 0).toNat = if i < n then (f i).toNat else 0 := by
  have hb : ∀ b : Bool, ((BitVec.ofBool b).setWidth 27).toNat = b.toNat := by decide
  rw [windowOf, List.getD, List.getElem?_map]
  by_cases h : i < n
  · rw [List.getElem?_range h, if_pos h]
    exact hb _
  · rw [List.getElem?_eq_none (by rw [List.length_range]; omega), if_neg h]
    rfl

/-- COR's turn at position 23 with this window and this PREV. -/
def corAt (w : List Power) (prev : BitVec 29) (fifo : List FrameEntry) : State :=
  { State.reset with w := w, pos := 23, prev := prev, fifo := fifo, turns := [.cor] }

theorem corAt_length (w : List Power) (prev : BitVec 29) (fifo : List FrameEntry) :
    (corAt w prev fifo).w.length = w.length := rfl

theorem windowGet_corAt (n : Nat) (f : Nat → Bool) (prev : BitVec 29) (fifo : List FrameEntry) :
    windowGet (corAt (windowOf n f) prev fifo) = fun i => if i < n then (f i).toNat else 0 := by
  funext i
  exact windowOf_getD n f i

/-- The window holds a whole burst, as at position 23 of §3.2. -/
def burst : List Power := windowOf 1200 (burstPower frameF)

theorem burst_length : burst.length = 1200 := windowOf_length 1200 _

theorem windowGet_burst (prev : BitVec 29) (fifo : List FrameEntry) :
    windowGet (corAt burst prev fifo) = fun i => if i < 1200 then (burstPower frameF i).toNat else 0 :=
  windowGet_corAt 1200 _ prev fifo

/-- R161, R162, R166, R169: the burst is found. -/
theorem test_cor_accepts : candidateFrame (windowGet (corAt burst 3 [])) 3 = some frameF := by
  rw [windowGet_burst]
  decide +kernel

/-- R164: its peak-sum 4 is not above PREV = 4. -/
theorem test_cor_rejects : candidateFrame (windowGet (corAt burst 4 [])) 4 = none := by
  rw [windowGet_burst]
  decide +kernel

/-- §3.2: the accepted frame's timestamp is 2300 and POS becomes 1223. -/
theorem test_cor_acceptance :
    (acceptFrame frameF (corAt [] 3 [])).fifo = [⟨2300, frameF⟩] ∧ (acceptFrame frameF (corAt [] 3 [])).pos = 1223 := by
  decide +kernel

/-! ### Witnesses: encoding and the step -/

/-- A state in which the host offers `w`. -/
def offering (w : CommandWord) : State := { State.reset with cmds := [w], turns := [.host] }

/-- A state in which the source offers `b`. -/
def streaming (b : Beat) (s : State) : State := { s with beats := [b], turns := [.src] }

theorem streaming_length (b : Beat) (s : State) : (streaming b s).w.length = s.w.length := rfl

theorem witness_DecodeOfEncodeIsIdentity :
    (Instr.cprd 131071 0 131071 131071 true).wellFormed = true ∧ (Instr.xtru 255 255 v64).wellFormed = true ∧
    (Instr.wget 65535).wellFormed = true := by decide

theorem witness_EncodeOfDecodeKeepsReadBits :
    decode (.beat 0x1FF) = .ok .inLast ∧ decodeCommand 0x0AFF00000000000000000000000000000001 = .ok (.rdsr 255) :=
  ⟨rfl, rfl⟩

theorem witness_IgnoredFieldsHaveNoEffect_words :
    (0x08FFFFFFFFFFFFFFFFFFFFFFFFFFFFFFFFFF : CommandWord) &&& readMask 8 = 0x080000000000000000000000000000000000 &&& readMask 8 ∧
    (cmdOp 0x08FFFFFFFFFFFFFFFFFFFFFFFFFFFFFFFFFF).toNat = 8 ∧
    (cmdOp 0x080000000000000000000000000000000000).toNat = 8 := by decide +kernel

theorem witness_IgnoredFieldsHaveNoEffect_bytes :
    ∀ j : Nat, j < 13 → byteAt frameF j = byteAt 0x8D4840D6202CC371C32CE05760FF j := by decide +kernel

theorem witness_StepRunsTheDecodedOperation :
    (offering 0x080000000000000000000000000000000000).turns = [.host] ∧
    decodeCommand 0x080000000000000000000000000000000000 = .ok .popf ∧
    (streaming 0x064 State.reset).turns = [.src] ∧ srcReady (streaming 0x064 State.reset) = true ∧
    srcReady (streaming 0x064 { State.reset with eos := true }) = false := ⟨rfl, rfl, rfl, rfl, rfl⟩

theorem witness_ReservedOpcodeAnswersIllegalOp :
    (cmdOp 0x000000000000000000000000000000000000).toNat = 0 ∧ (cmdOp 0x0B0000000000000000000000000000000000).toNat = 11 ∧
    (cmdOp 0xFF0000000000000000000000000000000000).toNat = 255 := by decide +kernel

theorem witness_ResetRestoresEveryField : { corAt burst 3 [] with turns := [.rst] }.turns = Turn.rst :: [] := rfl

/-! ### Witnesses: the pure commands -/

/-- A word of opcode 1; the field at the end of the word, and one bit past it. -/
theorem witness_XtruAnswersTheField :
    (0x01FFFF000000000000000000000000000000 : CommandWord).extractLsb' 136 8 = 0x01 ∧
    (1 ≤ 31 ∧ 31 ≤ 31 ∧ 33 + 31 ≤ 64) ∧ (1 ≤ 1 ∧ 1 ≤ 31 ∧ 63 + 1 ≤ 64) ∧ 64 < 34 + 31 ∧ 32 ≤ 32 := by decide +kernel

theorem witness_FieldReassembles : 1 ≤ 31 ∧ 31 ≤ 31 ∧ 33 + 31 ≤ 64 := by decide

theorem witness_TbitAnswersTheBit :
    (0x02400000000000000000FEDCBA9876543210 : CommandWord).extractLsb' 136 8 = 0x02 ∧ 0 < 64 ∧ 63 < 64 ∧ 64 ≤ 64 := by
  decide +kernel

theorem witness_BlenAnswersTheLength :
    (0x0300000E8D4840D6202CC371C32CE0576098 : CommandWord).extractLsb' 136 8 = 0x03 ∧ 0 ≤ 14 ∧ 14 ≤ 14 ∧ 14 < 15 := by
  decide +kernel

theorem witness_BatAnswersTheByte :
    (0x040D000E8D4840D6202CC371C32CE0576098 : CommandWord).extractLsb' 136 8 = 0x04 ∧ 14 ≤ 14 ∧ 0 < 14 ∧ 13 < 14 ∧
    14 < 15 ∧ 14 ≤ 14 := by decide +kernel

/-- Seven bytes at the end of a full buffer, and an empty range at its end; and each of the four refusals. -/
theorem witness_BrngAnswersTheBigEndianRange :
    (0x0501040E8D4840D6202CC371C32CE0576098 : CommandWord).extractLsb' 136 8 = 0x05 ∧
    (14 ≤ 14 ∧ 7 ≤ 14 ∧ 14 - 7 ≤ 7) ∧ (14 ≤ 14 ∧ 14 ≤ 14 ∧ 14 - 14 ≤ 7) ∧ 14 < 15 ∧ 3 < 4 ∧ 14 < 15 ∧ 7 < 11 - 3 := by
  decide +kernel

theorem witness_BrngIsBatAssembled : 14 ≤ 14 ∧ 7 ≤ 14 ∧ 14 ≤ 14 ∧ 14 - 7 ≤ 7 := by decide

theorem witness_CrcAnswersTheRemainder :
    (0x0600000E8D4840D6202CC371C32CE0576098 : CommandWord).extractLsb' 136 8 = 0x06 ∧ 0 ≤ 14 ∧ 14 ≤ 14 ∧
    (∀ j : Nat, j < 14 → byteAt 0 j = 0) ∧ 14 < 15 := by decide +kernel

theorem witness_CrcIsLinear : ([0x8D, 0x48] : List Byte).length = ([0xFF, 0x00] : List Byte).length := rfl

/-- §4.2's first frame, its first and last bit. -/
theorem witness_CrcDetectsSingleBitFlips :
    crc24 (bufBytes 14 frameF) = 0 ∧ 0 < (bufBytes 14 frameF).length ∧ 13 < (bufBytes 14 frameF).length ∧ 0 < 8 ∧ 7 < 8 := by
  decide +kernel

/-- P2 and §6.6 row 3 (latitude exactly 90 degrees): the conditions under which CPRD answers a position, for every admissible
value of the open parameters, with either report the more recent; and a word of opcode 7. -/
theorem witness_CprdAnswersThePosition (p : CprParams) :
    (0x070000000000000000190D73104AD690C8AC : CommandWord).extractLsb' 136 8 = 0x07 ∧
    nlOdd p (latOdd p 93000 74158) = nlEven p (latEven p 93000 74158) ∧
    4 * |latOdd p 93000 74158| ≤ 59 * 131072 ∧ 4 * |latEven p 93000 74158| ≤ 60 * 131072 ∧
    nlOdd p (latOdd p 0 98304) = nlEven p (latEven p 0 98304) ∧
    4 * |latOdd p 0 98304| = 59 * 131072 ∧ 4 * |latEven p 0 98304| = 60 * 131072 := by
  obtain ⟨_ | _ | _, _ | _, _ | _⟩ := p <;> decide +kernel

/-- §7's priority pair, for CPR_BAND; §6.6 rows 7 and 8, for CPR_LAT with the odd and the even report. -/
theorem witness_CprdRejectsBandAndLatitude (p : CprParams) :
    nlEven p (latEven p 75686 40565) ≠ nlOdd p (latOdd p 75686 40565) ∧
    nlEven p (latEven p 0 98305) = nlOdd p (latOdd p 0 98305) ∧ 59 * 131072 < 4 * |latOdd p 0 98305| ∧
    nlEven p (latEven p 1000 99287) = nlOdd p (latOdd p 1000 99287) ∧ 60 * 131072 < 4 * |latEven p 1000 99287| := by
  obtain ⟨_ | _ | _, _ | _, _ | _⟩ := p <;> decide +kernel

/-- An exact half. -/
theorem witness_RoundTieIsNearest : (0 : Int) < 131072 ∧ 2 * ((-65536 : Int) % 131072) = 131072 := by decide

theorem witness_CprLatitudeRanges : 0 < 131072 ∧ 131071 < 131072 := by decide

/-- The largest latitude of the zone count 59 and the one above it, on both grids; the equator, a pole and 87 degrees; and a
latitude that is folded. -/
theorem witness_ZoneCountReadsTheTable :
    2 ≤ 59 ∧ 59 ≤ 59 ∧ ¬ 60 * 131072 < 4 * |(228730 : Int)| ∧ ¬ 60 * 131072 < 4 * |(228731 : Int)| ∧
    ¬ 59 * 131072 < 4 * |(224918 : Int)| ∧ |(0 : Int)| = 0 ∧ 4 * |(-1966080 : Int)| = 60 * 131072 ∧
    4 * |(1933312 : Int)| = 59 * 131072 ∧ 60 * 131072 < 4 * |(2031616 : Int)| ∧ 60 * 65536 - |(2031616 : Int)| = 1900544 := by
  decide

/-- From the equator to the pole, and half a turn. -/
theorem witness_ZoneCountIsEvenAndFalling :
    (0 : Int) ≤ 0 ∧ (0 : Int) ≤ 1966080 ∧ 4 * (1966080 : Int) ≤ 60 * 131072 ∧ 4 * (1933312 : Int) ≤ 59 * 131072 ∧
    2 * (3932160 : Int) ≤ 60 * 131072 ∧ 2 * (3866624 : Int) ≤ 59 * 131072 := by decide

theorem witness_T32ConversionHasNoTie : (1 : Int) ≤ 60 ∧ (60 : Int) ≤ 60 ∧ (1 : Int) ≤ 1 := by decide

/-- §6.6 row 3: the largest latitude, and the longitude that wraps. -/
theorem witness_DecodedPositionRanges (p : CprParams) :
    cprDecode p 65536 0 98304 98304 false = .position (2 ^ 30) (-2 ^ 31) := by
  obtain ⟨_ | _ | _, _ | _, _ | _⟩ := p <;> decide +kernel

theorem witness_OneZoneRecenteringIsInvisible : (0 : Int) ≤ 131071 ∧ (131071 : Int) < 131072 := by decide

/-! ### Witnesses: the stream, the window and the correlator -/

/-- A window of 1199 entries, one short of full, with a byte and a sample pending. -/
def almostFull : State := { State.reset with w := List.replicate 1199 5, bph := true, sph := true }

theorem almostFull_length : almostFull.w.length = 1199 := List.length_replicate

theorem witness_InByteTakesTheByte :
    (0x0FF : Beat).getLsbD 8 = false ∧ almostFull.eos = false ∧ almostFull.w.length < 1200 ∧ almostFull.bph = true ∧
    almostFull.sph = true ∧ State.reset.w.length < 1200 ∧ State.reset.bph = false ∧ State.reset.sph = false ∧
    { State.reset with eos := true }.eos = true :=
  ⟨by decide, rfl, by rw [almostFull_length]; decide, rfl, rfl, by decide, rfl, rfl, rfl⟩

theorem witness_FilterArithmeticIsExact : (0x0FFF : SampleWord).toNat < 4096 := by decide

theorem witness_AdvanceByIsRepeatedAdvance :
    1 ≤ 1200 ∧ 1200 ≤ (corAt burst 3 []).w.length ∧ 0 < (corAt burst 3 []).w.length - 1 := by
  rw [corAt_length, burst_length]
  omega

theorem witness_InLastEndsTheStream :
    (0x1FF : Beat).getLsbD 8 = true ∧ almostFull.eos = false ∧ almostFull.w.length < 1200 ∧
    { State.reset with eos := true }.eos = true :=
  ⟨by decide, rfl, by rw [almostFull_length]; decide, rfl⟩

theorem witness_HeldBeatChangesNothing :
    1200 ≤ (streaming 0x064 (corAt burst 3 [])).w.length ∧ (streaming 0x064 { State.reset with eos := true }).eos = true ∧
    (streaming 0x064 (corAt burst 3 [])).turns = [.src] ∧ (streaming 0x064 (corAt burst 3 [])).beats = [0x064] ∧
    (streaming 0x064 { State.reset with eos := true }).turns = [.src] := by
  refine ⟨?_, rfl, rfl, rfl, rfl⟩
  rw [streaming_length, corAt_length, burst_length]

/-- COR is enabled there for every FIFO_DEPTH, and every clause of the acceptance holds. -/
theorem witness_CorEvaluatesOnePosition_accepted :
    (corAt burst 3 []).turns = [.cor] ∧ (corAt burst 3 []).w.length = 1200 ∧
    (∀ d, Config.fifoDepth = some d → (corAt burst 3 []).fifo.length < d.val) ∧
    preambleTest (windowGet (corAt burst 3 [])) 3 = true ∧ (slicedByte (windowGet (corAt burst 3 [])) 0).toNat / 8 = 17 ∧
    crc24 (slicedBytes (windowGet (corAt burst 3 []))) = 0 := by
  have hs := candidateFrame_eq_some test_cor_accepts
  refine ⟨rfl, ?_, fun d _ => d.property, hs.1, hs.2.1, hs.2.2.1⟩
  rw [corAt_length, burst_length]

/-- Its peak-sum 4 is not above PREV = 4. -/
theorem witness_CorEvaluatesOnePosition_rejected :
    (corAt burst 4 []).turns = [.cor] ∧ (corAt burst 4 []).w.length = 1200 ∧
    (∀ d, Config.fifoDepth = some d → (corAt burst 4 []).fifo.length < d.val) ∧
    ¬ 4 < peakSum (windowGet (corAt burst 4 [])) 0 := by
  refine ⟨rfl, ?_, fun d _ => d.property, ?_⟩
  · rw [corAt_length, burst_length]
  · rw [windowGet_burst]
    decide +kernel

/-- A window that is not full, whatever FIFO_DEPTH is. -/
theorem witness_CorEvaluatesOnePosition_held : (corAt [] 0 []).turns = [.cor] ∧ (corAt [] 0 []).w.length ≠ 1200 :=
  ⟨rfl, by simp [corAt_length]⟩

/-- A window that is not full; a queue of depth 1 that holds its one entry, the window full; and the same with an empty queue. -/
theorem witness_CorIsHeldUntilEnabled :
    (corAt [] 0 []).turns = [.cor] ∧ (corAt [] 0 []).w.length ≠ 1200 ∧
    (corAt burst 3 [⟨0, frameF⟩]).fifo.length = 1 ∧ (corAt burst 3 [⟨0, frameF⟩]).w.length = 1200 ∧
    (corAt burst 3 []).w.length = 1200 ∧ (corAt burst 3 []).fifo.length < 1 := by
  refine ⟨rfl, by simp [corAt_length], rfl, ?_, ?_, Nat.one_pos⟩
  · rw [corAt_length, burst_length]
  · rw [corAt_length, burst_length]

/-- A COR turn and a HOST turn, neither of which is a reset. -/
theorem witness_OnlyCorMovesThePosition :
    step (corAt [] 0 []) = .next (corTurnAt Config.fifoDepth { corAt [] 0 [] with turns := [], tick := 1 }) ∧
    (takeTurn (corAt [] 0 [])).1 = .cor ∧ (takeTurn (offering 0)).1 = .host ∧
    step (offering 0) = .next (raise .errIllegalOp { State.reset with tick := 1 }) := ⟨rfl, rfl, rfl, rfl⟩

/-- An IN.LAST beat sets EOS; a command leaves both flags. -/
theorem witness_StickyFlagsStayUntilReset :
    step (streaming 0x100 { State.reset with srng := true }) = .next { State.reset with srng := true, eos := true, tick := 1 } ∧
    step { offering 0 with eos := true } = .next (raise .errIllegalOp { State.reset with eos := true, tick := 1 }) :=
  ⟨rfl, rfl⟩

/-! ### Witnesses: the commands on state -/

theorem witness_PopfAnswersTheOldestFrame :
    (0x08FFFFFFFFFFFFFFFFFFFFFFFFFFFFFFFFFF : CommandWord).extractLsb' 136 8 = 0x08 ∧
    { State.reset with fifo := [⟨2300, frameF⟩, ⟨122600, frameF⟩] }.fifo = ⟨2300, frameF⟩ :: [⟨122600, frameF⟩] ∧
    State.reset.fifo = [] := ⟨by decide +kernel, rfl, rfl⟩

theorem witness_WgetAnswersTheEntry :
    (0x0900000000000000000000000000000004AF : CommandWord).extractLsb' 136 8 = 0x09 ∧ 1200 ≤ 1200 ∧
    1199 < 1200 ∧ (List.replicate 1200 (5 : Power))[1199]? = some 5 ∧ almostFull.w.length ≤ 1199 :=
  ⟨by decide +kernel, by decide, by decide, List.getElem?_replicate_of_lt (by decide), almostFull_length.le⟩

theorem witness_RdsrAnswersTheRegister :
    (0x0A0500000000000000000000000000000000 : CommandWord).extractLsb' 136 8 = 0x0A ∧ 6 ≤ 6 := by decide +kernel

theorem witness_CommandsDoNotDisturbTheStream :
    (Instr.rdsr 255).isCommand = true ∧ exec (.rdsr 255) State.reset = .next (raise .errArg State.reset) := ⟨rfl, rfl⟩

theorem witness_FailingCommandChangesNothing :
    Instr.popf.isCommand = true ∧ exec .popf State.reset = .next (raise .errEmpty State.reset) ∧
    (raise .errEmpty State.reset).rsp = some ⟨.errEmpty, 0, 0⟩ ∧ Status.errEmpty ≠ .ok := ⟨rfl, rfl, rfl, by decide⟩

/-- A window of one entry. -/
def oneEntry : State := { State.reset with w := [10000] }

theorem witness_PureCommandsIgnoreTheState :
    (Instr.tbit 64 v64).isPure = true ∧ exec (.tbit 64 v64) State.reset = .next (raise .errArg State.reset) ∧
    exec (.tbit 64 v64) oneEntry = .next (raise .errArg oneEntry) := ⟨rfl, rfl, rfl⟩

/-- A literal and `$F` as the frame, a literal and `$` as the payload. -/
theorem witness_PseudoCommandsAnswerTheFields :
    afterBat.popped = some frameF ∧ BufferOperand.dollarF.field afterBat.tokens = some (14, frameF) ∧
    NumberOperand.dollar.value afterBat.tokens = some 0x8D ∧ 0x8D < 2 ^ 112 ∧
    (BufferOperand.lit (bufBytes 14 frameF)).field Bench.start.tokens = some (14, frameF) ∧
    (NumberOperand.lit 0x58C382D690C8AC).value Bench.start.tokens = some 0x58C382D690C8AC ∧
    0x58C382D690C8AC < 2 ^ 112 := by decide +kernel

/-- A queue of depth 2 with one entry: COR is enabled and POPF answers it. -/
theorem witness_EvaluationAndPopfCommute :
    corReadyAt (some ⟨2, Nat.le.step Nat.le.refl⟩) (corAt burst 3 [⟨0, frameF⟩]) = true ∧
    (corAt burst 3 [⟨0, frameF⟩]).fifo ≠ [] ∧
    ∃ t, exec .popf (corAt burst 3 [⟨0, frameF⟩]) = .next t := by
  refine ⟨(corReadyAt_iff _ _).mpr ⟨?_, ?_⟩, by simp [corAt], 
    ⟨_, execPopf_cons (s := corAt burst 3 [⟨0, frameF⟩]) (e := ⟨0, frameF⟩) (rest := []) rfl⟩⟩
  · rw [corAt_length, burst_length]
  · rintro d hd
    injection hd with hd
    subst hd
    exact Nat.lt_add_one 1

/-! ### Witnesses: the invariants -/

/-- Four bytes `01 08 02 08`: samples 1 and 2, so a = 2, b = 1 and P = 5. -/
def fourBytes : List Byte := [0x01, 0x08, 0x02, 0x08]

def afterFourBytes : State := { State.reset with w := [5], h := ⟨2, 1, 0, 0, 0, 0, 0, 0⟩, lo := 0x02 }

theorem windowTracks_fourBytes : WindowTracks fourBytes afterFourBytes := by
  refine ⟨⟨by decide, by decide, by decide, ?_⟩, by decide +kernel, by decide +kernel, by decide +kernel⟩
  intro j hj
  interval_cases j <;> decide +kernel

theorem pipelineTracks_fourBytes : PipelineTracks fourBytes [] afterFourBytes :=
  ⟨windowTracks_fourBytes, 0, by decide +kernel, by decide +kernel, by decide +kernel⟩

/-- SRC takes a fifth byte. -/
theorem witness_StepKeepsWindowOnPowerSequence :
    WindowTracks fourBytes (streaming 0x064 afterFourBytes) ∧
    step (streaming 0x064 afterFourBytes) = .next { afterFourBytes with lo := 0x64, bph := true, tick := 1 } :=
  ⟨⟨⟨windowTracks_fourBytes.filter.1, windowTracks_fourBytes.filter.2, windowTracks_fourBytes.filter.3,
    windowTracks_fourBytes.filter.4⟩, windowTracks_fourBytes.2, windowTracks_fourBytes.3, windowTracks_fourBytes.4⟩, rfl⟩

/-- HOST answers a reserved opcode. -/
theorem witness_StepKeepsPipelineOnDemod :
    PipelineTracks fourBytes [] { afterFourBytes with cmds := [0], turns := [.host] } ∧
    step { afterFourBytes with cmds := [0], turns := [.host] } =
      .next (raise .errIllegalOp { afterFourBytes with tick := 1 }) :=
  ⟨⟨⟨⟨windowTracks_fourBytes.filter.1, windowTracks_fourBytes.filter.2, windowTracks_fourBytes.filter.3,
    windowTracks_fourBytes.filter.4⟩, windowTracks_fourBytes.2, windowTracks_fourBytes.3, windowTracks_fourBytes.4⟩,
    pipelineTracks_fourBytes.loop⟩, rfl⟩

theorem witness_PoppedFramesLeadDemod : PipelineTracks fourBytes [] afterFourBytes ∧ afterFourBytes.w.length < 1200 :=
  ⟨pipelineTracks_fourBytes, by decide⟩

/-- One valid frame queued, at timestamp 2300, the window after its burst. -/
def oneQueued : State := { State.reset with fifo := [⟨2300, frameF⟩], pos := 1223, cmds := [0x08 <<< 136], turns := [.host] }

theorem goodState_oneQueued : GoodState oneQueued := by
  refine ⟨by decide, by decide, ?_, ?_, by simp [oneQueued, State.reset, Ajrx.reset], by decide⟩
  · unfold fifoWithin
    split
    · trivial
    · rename_i d _
      exact d.property
  · intro e he
    have : e = ⟨2300, frameF⟩ := by simpa [oneQueued] using he
    subst this
    exact ⟨by decide +kernel, by decide +kernel⟩

/-- POPF takes the entry out. -/
theorem witness_StepKeepsGoodState :
    GoodState oneQueued ∧
    step oneQueued =
      .next { oneQueued with fifo := [], rsp := some ⟨.ok, 2300, frameF⟩, cmds := [], turns := [], tick := 1 } :=
  ⟨goodState_oneQueued, rfl⟩

theorem witness_StepKeepsTimestampsOrdered :
    TimestampsOrdered oneQueued ∧ 100 * oneQueued.pos.toNat + 120000 < 2 ^ 64 ∧
    step oneQueued =
      .next { oneQueued with fifo := [], rsp := some ⟨.ok, 2300, frameF⟩, cmds := [], turns := [], tick := 1 } := by
  refine ⟨⟨?_, by simp [oneQueued]⟩, by decide, rfl⟩
  intro e he
  have : e = ⟨2300, frameF⟩ := by simpa [oneQueued] using he
  subst this
  decide

/-- The lines `CRC $F` and `BAT $F, 0` of P1 run after the POPF, and the last answer is then 0x8D. -/
theorem witness_PoppedFrameHasZeroCrc :
    GoodState (Bench.mk oneQueued none).machine ∧ (Bench.mk oneQueued none).machine.fifo = ⟨2300, frameF⟩ :: [] ∧
    ((runLine (.command .popf) ⟨oneQueued, none⟩).bind
      (runLines [.command (.crc .dollarF), .command (.bat .dollarF (.lit 0))])).map (fun u => (u.machine.rsp, u.popped)) =
      some (some ⟨.ok, 0, 0x8D⟩, some frameF) :=
  ⟨goodState_oneQueued, rfl, by decide +kernel⟩

/-- A stream that is taken whole, and one of which a stream that has ended takes nothing. -/
theorem witness_StreamDirectivesRunTheStream :
    afterFourBytes.beats = [] ∧ afterFourBytes.eos = false ∧ afterFourBytes.w.length + ([0x64].length + 3) / 4 < 1200 ∧
    PipelineTracks fourBytes [] afterFourBytes ∧ State.reset.w.length < 1200 ∧
    (feed [0x64] { State.reset with eos := true }).beats = [0x064] :=
  ⟨rfl, rfl, by decide, pipelineTracks_fourBytes, by decide, by decide +kernel⟩

/-- The empty stream and a stream of one pair put out nothing, which every FIFO_DEPTH has room for. -/
theorem witness_SettledStreamIsDemod :
    (∀ d, Config.fifoDepth = some d → (demod (powerSeq [])).out.length < d.val) ∧
    ∀ d, Config.fifoDepth = some d → (demod (powerSeq fourBytes)).out.length < d.val := by
  have h : (demod (powerSeq fourBytes)).out = [] := by decide +kernel
  exact ⟨fun d _ => d.property, fun d _ => by rw [h]; exact d.property⟩

theorem witness_DemodFramesDoNotOverlap :
    (List.replicate 1199 5).length < 1200 ∧ (List.replicate 1200 5).length * 100 < 2 ^ 64 := by
  rw [List.length_replicate, List.length_replicate]
  decide

end Sys2Proof.Tests
end

section
/-! Which operation a step runs (R9, R86, R121): the equations of a step by the turn that comes next and by what is on offer at that
agent's port. -/

namespace Sys2Proof.Machine

/-- R9: a step is the turn of the agent first in line. -/
theorem step_of_turns_cons {s : State} {t : Turn} {ts : List Turn} (h : s.turns = t :: ts) :
    step s = turnStep t { s with turns := ts, tick := s.tick + 1 } := by
  rw [step, takeTurn_of_cons h]

/-- R86: HOST takes the command first on offer and runs what it decodes to. -/
theorem hostTurn_of_decoded {s : State} {c : CommandWord} {cs : List CommandWord} {i : Instr}
    (hc : s.cmds = c :: cs) (hi : decodeCommand c = .ok i) : hostTurn s = exec i { s with cmds := cs } := by
  simp [hostTurn, fetchCommand, hc, hi]

/-- R80, R121: SRC runs the beat first on offer, which leaves the port only where SRC is ready. -/
theorem srcTurn_of_beats_cons {s : State} {b : Beat} {bs : List Beat} (hb : s.beats = b :: bs) :
    srcTurn s = exec (decodeBeat b) { s with beats := if srcReady s then bs else b :: bs } := by
  cases hr : srcReady s with
  | true => simp [srcTurn, fetchBeat, hb, hr]
  | false =>
    have hs : { s with beats := b :: bs } = s := by rw [← hb]
    simp [srcTurn, fetchBeat, hb, hr, hs]

/-- Settles O5: the turn first in line picks the agent, and the agent's port the operation. -/
theorem stepRunsTheDecodedOperation : Obligations.StepRunsTheDecodedOperation := by
  refine ⟨fun s c cs ts i ht hc hi => ?host, fun s b bs ts ht hb => ?src⟩
  case host =>
    rw [step_of_turns_cons ht]
    exact hostTurn_of_decoded hc hi
  case src =>
    rw [step_of_turns_cons ht]
    exact srcTurn_of_beats_cons hb

end Sys2Proof.Machine
end

section
/-! What one step leaves of the registers (10_state.md R22, R28 to R31): the fields that taking a turn, an accepted byte and a
turn of COR change, and the statements about POS, PREV, EOS and SRNG that follow by the cases of a step. -/

namespace Sys2Proof.Machine

/-! ### Fields after a turn is taken and after a byte -/

/-- Taking a turn is a matter of the inputs alone (R39). -/
@[simp] theorem takeTurn_snd_toAjrx (s : State) : (takeTurn s).2.toAjrx = s.toAjrx := by
  rw [takeTurn_snd]

section
variable (x : SampleWord) (s : State)

@[simp] theorem decodeAndFilter_lo : (decodeAndFilter x s).lo = s.lo := by
  cases h : s.sph with
  | false => rw [decodeAndFilter_first h]
  | true => rw [decodeAndFilter_second h]

@[simp] theorem decodeAndFilter_bph : (decodeAndFilter x s).bph = s.bph := by
  cases h : s.sph with
  | false => rw [decodeAndFilter_first h]
  | true => rw [decodeAndFilter_second h]

@[simp] theorem decodeAndFilter_sph : (decodeAndFilter x s).sph = !s.sph := by
  cases h : s.sph with
  | false => rw [decodeAndFilter_first h]; rfl
  | true => rw [decodeAndFilter_second h]; rfl

@[simp] theorem decodeAndFilter_h : (decodeAndFilter x s).h = shiftHistory (sampleOf x) s.h := by
  cases h : s.sph with
  | false => rw [decodeAndFilter_first h]
  | true => rw [decodeAndFilter_second h]

@[simp] theorem decodeAndFilter_srng : (decodeAndFilter x s).srng = (s.srng || outOfRange x) := by
  cases h : s.sph with
  | false => rw [decodeAndFilter_first h]
  | true => rw [decodeAndFilter_second h]

/-- R123, R125: the second sample of a pair appends the power of the shifted history. -/
theorem decodeAndFilter_w :
    (decodeAndFilter x s).w = if s.sph then s.w ++ [powerOf (shiftHistory (sampleOf x) s.h)] else s.w := by
  cases h : s.sph with
  | false => rw [decodeAndFilter_first h]; rfl
  | true => rw [decodeAndFilter_second h]; rfl

end

/-- R31: an accepted byte never clears SRNG. -/
theorem acceptByte_srng_of_set {s : State} (h : s.srng = true) (d : Byte) : (acceptByte d s).srng = true := by
  cases hb : s.bph with
  | false => rw [acceptByte_low hb]; exact h
  | true => rw [acceptByte_high hb, decodeAndFilter_srng]; simp [h]

/-- R123, R125: the fourth byte of a pair appends the power of the history it leaves, and no other byte touches the window. -/
theorem acceptByte_w (d : Byte) (s : State) :
    (acceptByte d s).w = if s.bph && s.sph then s.w ++ [powerOf (acceptByte d s).h] else s.w := by
  cases hb : s.bph with
  | false => rw [acceptByte_low hb]; rfl
  | true => rw [acceptByte_high hb, decodeAndFilter_h, decodeAndFilter_w]; rfl

/-! ### COR's turn -/

@[simp] theorem corTurnAt_eos (depth : FifoDepth) (s : State) : (corTurnAt depth s).eos = s.eos := by
  rcases corTurnAt_cases depth s with ⟨_, h⟩ | ⟨_, _, h⟩ | ⟨_, _, _, h⟩ <;> simp [h]

@[simp] theorem corTurnAt_srng (depth : FifoDepth) (s : State) : (corTurnAt depth s).srng = s.srng := by
  rcases corTurnAt_cases depth s with ⟨_, h⟩ | ⟨_, _, h⟩ | ⟨_, _, _, h⟩ <;> simp [h]

/-- COR leaves POS and PREV, or has a full window and moves POS on by 1, or by 1200 with PREV = 0 (R169 to R171, R173). -/
theorem corTurnAt_pos_prev (depth : FifoDepth) (s : State) :
    ((corTurnAt depth s).pos = s.pos ∧ (corTurnAt depth s).prev = s.prev) ∨
    (s.w.length = 1200 ∧
      ((corTurnAt depth s).pos = s.pos + 1 ∨
        ((corTurnAt depth s).pos = s.pos + 1200 ∧ (corTurnAt depth s).prev = 0))) := by
  rcases corTurnAt_cases depth s with ⟨_, h⟩ | ⟨hr, _, h⟩ | ⟨frame, hr, _, h⟩
  · exact .inl ⟨by rw [h], by rw [h]⟩
  · exact .inr ⟨((corReadyAt_iff _ _).1 hr).1, .inl (by rw [h, rejectPosition_pos])⟩
  · exact .inr ⟨((corReadyAt_iff _ _).1 hr).1, .inr ⟨by rw [h, acceptFrame_pos]; rfl, by rw [h, acceptFrame_prev]⟩⟩

/-! ### POS, PREV, EOS and SRNG over a step -/

/-- Settles O39: COR's turn is the one case of a step, a reset apart, that writes POS or PREV. -/
theorem onlyCorMovesThePosition : Obligations.OnlyCorMovesThePosition := by
  intro s t hstep hrst
  rcases step_next_cases hstep with ⟨hturn, _⟩ | ⟨hturn, rfl⟩ | ⟨_, _, rfl⟩ | ⟨b, bs, _, _, _, _, rfl⟩ |
    ⟨b, bs, _, _, _, _, rfl⟩ | ⟨_, _, rfl⟩ | ⟨c, cs, _, _, r, rfl⟩
  · -- reset
    exact absurd hturn hrst
  · -- COR
    rcases corTurnAt_pos_prev Config.fifoDepth (takeTurn s).2 with ⟨hpos, hprev⟩ | ⟨hfull, hmove⟩
    · exact .inl ⟨by simpa using hpos, by simpa using hprev⟩
    · exact .inr ⟨hturn, by simpa using hfull, by simpa using hmove⟩
  all_goals -- SRC and HOST
    exact .inl ⟨by simp, by simp⟩

theorem decodeBeat_eq_inLast {b : Beat} (h : b.getLsbD 8 = true) : decodeBeat b = .inLast := by
  rw [decodeBeat, if_pos h]

/-- Settles O40: EOS is written by an accepted IN.LAST alone and SRNG by an accepted IN.BYTE alone, a reset apart. -/
theorem stickyFlagsStayUntilReset : Obligations.StickyFlagsStayUntilReset := by
  intro s t hstep hrst
  rcases step_next_cases hstep with ⟨hturn, _⟩ | ⟨_, rfl⟩ | ⟨_, _, rfl⟩ | ⟨b, bs, hturn, hb, _, h8, rfl⟩ |
    ⟨b, bs, hturn, _, _, _, rfl⟩ | ⟨_, _, rfl⟩ | ⟨c, cs, _, _, r, rfl⟩
  · -- reset
    exact absurd hturn hrst
  · -- COR
    exact ⟨by simp, by simp, by simp, fun h h' => by simp [h] at h'⟩
  · -- SRC, held or with nothing on offer
    exact ⟨by simp, by simp, by simp, fun h h' => by simp [h] at h'⟩
  · -- SRC takes IN.LAST
    exact ⟨fun _ => rfl, fun h => by simpa using h, fun hsrc => absurd hturn hsrc,
      fun _ _ => ⟨b, bs, hb, decodeBeat_eq_inLast h8⟩⟩
  · -- SRC takes a byte
    exact ⟨fun h => by simpa using h, fun h => acceptByte_srng_of_set (by simpa using h) _,
      fun hsrc => absurd hturn hsrc, fun h h' => by simp [h] at h'⟩
  all_goals -- HOST
    exact ⟨by simp, by simp, by simp, fun h h' => by simp [h] at h'⟩

end Sys2Proof.Machine
end

section
/-! STATUS and its outputs (R32, R305), and the commands that read nothing but their operands (R37). -/

namespace Sys2Proof.Machine

/-- R32: STATUS bit by bit, from bit 0 up. -/
theorem statusWordAt_getLsbD (depth : FifoDepth) (s : State) (k : Nat) :
    (statusWordAt depth s).getLsbD k =
      [s.eos, doneFlag s, s.srng, fneFlag s, ffullFlagAt depth s, s.bph, s.sph].getD k false := by
  rcases Nat.lt_or_ge k 7 with hk | hk
  · rw [statusWordAt, BitVec.getLsbD_setWidth]
    interval_cases k <;> simp only [BitVec.getLsbD_append] <;> simp
  · have hword : (statusWordAt depth s).getLsbD k = false := by
      rw [statusWordAt, BitVec.getLsbD_setWidth, BitVec.getLsbD_of_ge _ k hk, Bool.and_false]
    rw [hword, List.getD_eq_default _ _ (by simpa using hk)]

/-- Settles O44, bit by bit; `frame_irq` and `done` are defined as the flags of bits 3 and 1. -/
theorem statusBitsAndOutputs : Obligations.StatusBitsAndOutputs := by
  intro s depth v
  have hbit : ∀ k, v.getLsbD k = _ := statusWordAt_getLsbD depth s
  refine ⟨hbit 0, hbit 1, hbit 2, hbit 3, (hbit 4).trans ?ffull, hbit 5, hbit 6, fun k hk => ?reserved,
    (hbit 3).symm, (hbit 1).symm⟩
  case ffull =>
    cases depth with
    | none => rfl
    | some d => rfl
  case reserved => rw [hbit, List.getD_eq_default _ _ (by simpa using hk)]

/-- A command that answers `r` under a condition on its operands and ERR_ARG otherwise has one response, whatever the state. -/
theorem answer_of_guard (c : Prop) [Decidable c] (r : Wide) :
    ∃ x : Response, ∀ s : State,
      (if c then (.next (respond 0 r s) : Host.Outcome State Fault Refusal) else .next (raise .errArg s)) =
        .next { s with rsp := some x } := by
  by_cases hc : c
  · exact ⟨⟨.ok, 0, r⟩, fun s => by rw [if_pos hc]; rfl⟩
  · exact ⟨⟨.errArg, 0, 0⟩, fun s => by rw [if_neg hc]; rfl⟩

/-- What CPRD answers depends on what its operands come to alone (R248, R250). -/
theorem answerCpr_answer (outcome : CprOutcome) :
    ∃ x : Response, ∀ s : State, answerCpr outcome s = { s with rsp := some x } := by
  cases outcome with
  | position lat32 lon32 => exact ⟨⟨.ok, 0, packPosition lat32 lon32⟩, fun _ => rfl⟩
  | band => exact ⟨⟨.cprBand, 0, 0⟩, fun _ => rfl⟩
  | latitude => exact ⟨⟨.cprLat, 0, 0⟩, fun _ => rfl⟩

/-- R37, R342: a pure command has one response, and puts it into any state without touching the rest. -/
theorem exec_pure_answer {i : Instr} (h : i.isPure = true) :
    ∃ x : Response, ∀ s : State, exec i s = .next { s with rsp := some x } := by
  cases i with
  | xtru start size value => exact answer_of_guard _ _
  | tbit index value => exact answer_of_guard _ _
  | blen n buf => exact answer_of_guard _ _
  | bat index n buf => exact answer_of_guard _ _
  | brng lower upper n buf => exact answer_of_guard _ _
  | crc n buf => exact answer_of_guard _ _
  | cprd xze yze xzo yzo p =>
    obtain ⟨x, hx⟩ := answerCpr_answer (cprDecode Config.cprParams xze yze xzo yzo p)
    exact ⟨x, fun s => congrArg _ (hx s)⟩
  | popf => cases h
  | wget k => cases h
  | rdsr n => cases h
  | inByte d => cases h
  | inLast => cases h

/-- Settles O48: both states are given the command's one response. -/
theorem pureCommandsIgnoreTheState : Obligations.PureCommandsIgnoreTheState := by
  intro i s s' t t' hpure ht ht'
  obtain ⟨x, hx⟩ := exec_pure_answer hpure
  rw [hx] at ht ht'
  injection ht with ht
  injection ht' with ht'
  rw [← ht, ← ht']

end Sys2Proof.Machine
end

section
/-! The invariants of a good state (10_state.md R26, R28 to R30; 40_sample_power.md R126, R128; 42_correlator_slicer.md R163): each
kind of update keeps them, so every step does. -/

namespace Sys2Proof.Machine

/-! ### What the filter and the correlator produce -/

/-- R126: the power of any history is at most 2 * 8190 * 8190. -/
theorem powerSum_bounds (h : History) :
    0 ≤ sumA h * sumA h + sumB h * sumB h ∧ sumA h * sumA h + sumB h * sumB h ≤ 134152200 := by
  obtain ⟨ha, ha'⟩ := sumA_bounds h
  obtain ⟨hb, hb'⟩ := sumB_bounds h
  constructor <;> nlinarith

/-- R126: no power value is cut off at 27 bits. -/
theorem powerOf_toNat (h : History) : (powerOf h).toNat = (sumA h * sumA h + sumB h * sumB h).toNat := by
  have := powerSum_bounds h
  rw [powerOf, BitVec.toNat_ofNat]
  omega

theorem powerOf_le (h : History) : (powerOf h).toNat ≤ 134152200 := by
  have := powerSum_bounds h
  rw [powerOf_toNat]
  omega

theorem windowGet_le {s : State} (h : ∀ p ∈ s.w, p.toNat ≤ 134152200) (i : Nat) : windowGet s i ≤ 134152200 := by
  rw [windowGet, List.getD_eq_getElem?_getD]
  rcases hi : s.w[i]? with _ | p
  · simp
  · exact h p (List.mem_of_getElem? hi)

/-- R163: the four slots of a peak-sum are power values. -/
theorem peakSum_windowGet_le {s : State} (h : ∀ p ∈ s.w, p.toNat ≤ 134152200) (o : Nat) :
    peakSum (windowGet s) o ≤ 536608800 := by
  have h0 := windowGet_le h o
  have h1 := windowGet_le h (o + 10)
  have h2 := windowGet_le h (o + 35)
  have h3 := windowGet_le h (o + 45)
  unfold peakSum
  omega

/-- R168, R169: what the two gates let through is a valid frame. -/
theorem validFrame_of_candidate {get : Nat → Nat} {prev : Nat} {frame : Wide} (h : candidateFrame get prev = some frame) :
    validFrame frame := by
  obtain ⟨_, hdf, hcrc, rfl⟩ := candidateFrame_eq_some h
  have hbytes : bufBytes 14 (packBytes (slicedBytes get)) = slicedBytes get := bufBytes_packBytes _ (slicedBytes_length get)
  have hfirst : byteAt (packBytes (slicedBytes get)) 0 = slicedByte get 0 := congrArg (fun l => l.headD 0) hbytes
  exact ⟨by rw [frameDf, hfirst, hdf], by rw [hbytes, hcrc]⟩

theorem fifoWithin_iff (depth : FifoDepth) (n : Nat) : fifoWithin depth n ↔ ∀ d, depth = some d → n ≤ d.val := by
  cases depth with
  | none => simp [fifoWithin]
  | some d => simp [fifoWithin]

/-! ### Each kind of update keeps a good state good -/

/-- An update that leaves the window, EOS and PREV as they are, and at most takes entries off the head of the FIFO. -/
theorem GoodState.of_suffix {s t : State} (h : GoodState s) (hw : t.w = s.w) (he : t.eos = s.eos) (hp : t.prev = s.prev)
    (hf : t.fifo <:+ s.fifo) : GoodState t where
  windowFits := by rw [hw]; exact h.windowFits
  endedNotFull := by rw [hw, he]; exact h.endedNotFull
  fifoFits := by
    have hfits := (fifoWithin_iff _ _).1 h.fifoFits
    exact (fifoWithin_iff _ _).2 fun d hd => hf.length_le.trans (hfits d hd)
  framesValid := fun e he => h.framesValid e (hf.subset he)
  powersBounded := by rw [hw]; exact h.powersBounded
  prevBounded := by rw [hp]; exact h.prevBounded

theorem GoodState.of_takeTurn {s : State} (h : GoodState s) : GoodState (takeTurn s).2 :=
  h.of_suffix (by simp) (by simp) (by simp) (by simp)

/-- R38: whatever is on offer, a reset leads to a good state. -/
theorem goodState_of_reset {t : State} (h : t.toAjrx = Ajrx.reset) : GoodState t where
  windowFits := by simp [h, Ajrx.reset]
  endedNotFull := by simp [h, Ajrx.reset]
  fifoFits := (fifoWithin_iff _ _).2 fun d _ => by simp [h, Ajrx.reset]
  framesValid := by simp [h, Ajrx.reset]
  powersBounded := by simp [h, Ajrx.reset]
  prevBounded := by simp [h, Ajrx.reset]

theorem GoodState.of_rejectPosition {s : State} (h : GoodState s) (hfull : s.w.length = 1200) :
    GoodState (rejectPosition s) where
  windowFits := by simp [hfull]
  endedNotFull := fun _ => by simp [hfull]
  fifoFits := h.fifoFits
  framesValid := h.framesValid
  powersBounded := fun p hp => h.powersBounded p (List.mem_of_mem_tail hp)
  prevBounded := by
    rw [rejectPosition_prev, BitVec.toNat_ofNat]
    exact (Nat.mod_le _ _).trans (peakSum_windowGet_le h.powersBounded 0)

theorem GoodState.of_acceptFrame {s : State} (h : GoodState s) (hr : corReadyAt Config.fifoDepth s = true) {frame : Wide}
    (hvalid : validFrame frame) : GoodState (acceptFrame frame s) where
  windowFits := by rw [acceptFrame_w, List.length_drop]; exact (Nat.sub_le _ _).trans h.windowFits
  endedNotFull := fun _ => by simp [((corReadyAt_iff _ _).1 hr).1]
  fifoFits := by
    obtain ⟨_, hroom⟩ := (corReadyAt_iff _ _).1 hr
    exact (fifoWithin_iff _ _).2 fun d hd => by simpa using hroom d hd
  framesValid := by
    rw [acceptFrame_fifo]
    intro e he
    rcases List.mem_append.1 he with he | he
    · exact h.framesValid e he
    · obtain rfl := List.mem_singleton.1 he
      exact hvalid
  powersBounded := by
    rw [acceptFrame_w]
    exact fun p hp => h.powersBounded p (List.mem_of_mem_drop hp)
  prevBounded := by simp

/-- R161 to R173: COR's turn, where the FIFO's depth is AJRX's own. -/
theorem GoodState.of_corTurn {s : State} (h : GoodState s) : GoodState (corTurnAt Config.fifoDepth s) := by
  rcases corTurnAt_cases Config.fifoDepth s with ⟨_, hs⟩ | ⟨hr, _, hs⟩ | ⟨frame, hr, hc, hs⟩
  · rw [hs]; exact h
  · rw [hs]; exact h.of_rejectPosition ((corReadyAt_iff _ _).1 hr).1
  · rw [hs]; exact h.of_acceptFrame hr (validFrame_of_candidate hc)

/-- R121: a byte that SRC accepts finds room for the one power value it may produce, and EOS clear. -/
theorem GoodState.of_acceptByte {s : State} (h : GoodState s) (hr : srcReady s = true) (d : Byte) :
    GoodState (acceptByte d s) where
  windowFits := by
    have hlen := acceptByte_length_le d s
    have hroom := ((srcReady_iff s).1 hr).2
    omega
  endedNotFull := by simp [((srcReady_iff s).1 hr).1]
  fifoFits := by rw [acceptByte_fifo]; exact h.fifoFits
  framesValid := by rw [acceptByte_fifo]; exact h.framesValid
  powersBounded := by
    intro p hp
    rw [acceptByte_w] at hp
    split at hp
    · rcases List.mem_append.1 hp with hp | hp
      · exact h.powersBounded p hp
      · obtain rfl := List.mem_singleton.1 hp
        exact powerOf_le _
    · exact h.powersBounded p hp
  prevBounded := by rw [acceptByte_prev]; exact h.prevBounded

/-- R128: IN.LAST is accepted only while the window has room. -/
theorem GoodState.of_inLast {s t : State} (h : GoodState s) (hr : srcReady s = true)
    (ht : t.toAjrx = { s.toAjrx with eos := true }) : GoodState t where
  windowFits := by rw [ht]; exact h.windowFits
  endedNotFull := fun _ => by rw [ht]; exact ((srcReady_iff s).1 hr).2
  fifoFits := by rw [ht]; exact h.fifoFits
  framesValid := by rw [ht]; exact h.framesValid
  powersBounded := by rw [ht]; exact h.powersBounded
  prevBounded := by rw [ht]; exact h.prevBounded

/-- A command takes at most the head entry of the FIFO. -/
theorem popped_suffix (p : Prop) [Decidable p] (fifo : List FrameEntry) :
    (if p then fifo.tail else fifo) <:+ fifo := by
  split
  · exact List.tail_suffix fifo
  · exact List.suffix_refl fifo

/-- Settles O51, by the cases of a step. -/
theorem stepKeepsGoodState : Obligations.StepKeepsGoodState := by
  intro s t hgood hstep
  have hturn := hgood.of_takeTurn
  rcases step_next_cases hstep with ⟨_, rfl⟩ | ⟨_, rfl⟩ | ⟨_, _, rfl⟩ | ⟨b, bs, _, _, hr, _, rfl⟩ |
    ⟨b, bs, _, _, hr, _, rfl⟩ | ⟨_, _, rfl⟩ | ⟨c, cs, _, _, r, rfl⟩
  · -- reset
    exact goodState_of_reset rfl
  · -- COR
    exact hturn.of_corTurn
  · -- SRC, held or with nothing on offer
    exact hturn
  · -- SRC takes IN.LAST
    exact hgood.of_inLast hr (by simp)
  · -- SRC takes a byte
    have hoffer : GoodState { (takeTurn s).2 with beats := bs } := hturn.of_suffix rfl rfl rfl (List.suffix_refl _)
    exact hoffer.of_acceptByte (by simpa [srcReady_iff] using hr) _
  · -- HOST, nothing on offer
    exact hturn
  · -- HOST takes a command
    exact hgood.of_suffix (by simp) (by simp) (by simp) (popped_suffix _ _)

end Sys2Proof.Machine
end

section
/-! The power sequence (40_sample_power.md R124) as the stream grows by a byte, and the window on it (10_state.md R27): LO, BPH, SPH
and H follow the accepted bytes, a completed pair appends its power value, and COR drops values at the front. -/

namespace Sys2Proof.Machine

/-! ### The power sequence of a growing stream -/

/-- A sample whose two bytes have come in stays as it is. -/
theorem streamSample_append (bytes more : List Byte) {k : Int} (hk : 2 * k + 1 < bytes.length) :
    streamSample (bytes ++ more) k = streamSample bytes k := by
  unfold streamSample
  split
  · rfl
  · rw [List.getD_append _ _ _ _ (by omega), List.getD_append _ _ _ _ (by omega)]

/-- A power value whose four bytes have come in stays as it is. -/
theorem powerAt_append (bytes more : List Byte) {n : Nat} (hn : 4 * n + 3 < bytes.length) :
    powerAt (bytes ++ more) n = powerAt bytes n := by
  have hsample (k : Int) (hk : k ≤ 2 * n + 1) : streamSample (bytes ++ more) k = streamSample bytes k :=
    streamSample_append bytes more (by omega)
  simp only [powerAt, filterA, filterB]
  rw [hsample (2 * n + 1) (by omega), hsample (2 * n - 1) (by omega), hsample (2 * n - 3) (by omega),
    hsample (2 * n - 5) (by omega), hsample (2 * n) (by omega), hsample (2 * n - 2) (by omega),
    hsample (2 * n - 4) (by omega), hsample (2 * n - 6) (by omega)]

@[simp] theorem powerSeq_length (bytes : List Byte) : (powerSeq bytes).length = bytes.length / 4 := by
  simp [powerSeq]

theorem map_powerAt_append (bytes more : List Byte) :
    (List.range (bytes.length / 4)).map (powerAt (bytes ++ more)) = powerSeq bytes :=
  List.map_congr_left fun n hn => powerAt_append bytes more (by have := List.mem_range.1 hn; omega)

/-- The last byte of a pair appends one power value. -/
theorem powerSeq_concat_of_completed {bytes : List Byte} (h : bytes.length % 4 = 3) (d : Byte) :
    powerSeq (bytes ++ [d]) = powerSeq bytes ++ [powerAt (bytes ++ [d]) (bytes.length / 4)] := by
  have hlen : (bytes ++ [d]).length / 4 = bytes.length / 4 + 1 := by
    rw [List.length_append, List.length_singleton]
    omega
  rw [powerSeq, hlen, List.range_succ, List.map_append, map_powerAt_append]
  rfl

/-- Any other byte leaves the power sequence as it is. -/
theorem powerSeq_concat_of_incomplete {bytes : List Byte} (h : bytes.length % 4 ≠ 3) (d : Byte) :
    powerSeq (bytes ++ [d]) = powerSeq bytes := by
  have hlen : (bytes ++ [d]).length / 4 = bytes.length / 4 := by
    rw [List.length_append, List.length_singleton]
    omega
  rw [powerSeq, hlen, map_powerAt_append]

/-! ### Sample decode -/

/-- R120: bits 11 to 0 of the word, less the bias. -/
theorem sampleOf_toInt (x : SampleWord) : (sampleOf x).toInt = (x.toNat % 4096 : Nat) - 2048 := by
  rw [sampleOf, BitVec.toInt_ofInt, BitVec.extractLsb'_toNat, Nat.shiftRight_zero]
  apply Int.bmod_eq_of_le <;> simp only [Config.sampleBias] <;> omega

/-- R55, R120: the byte that completes a word is its high byte. -/
theorem streamSample_of_completed {bytes : List Byte} {m : Nat} (hlen : bytes.length = 2 * m + 1) {lo : Byte}
    (hlo : bytes.getLast? = some lo) (d : Byte) :
    streamSample (bytes ++ [d]) m = (sampleOf (d ++ lo)).toInt := by
  have hlow : (bytes ++ [d]).getD (2 * m) 0 = lo := by
    rw [List.getLast?_eq_getElem?, hlen, Nat.add_sub_cancel] at hlo
    rw [List.getD_append _ _ _ _ (by omega), List.getD_eq_getElem?_getD, hlo, Option.getD_some]
  have hhigh : (bytes ++ [d]).getD (2 * m + 1) 0 = d := by
    rw [List.getD_append_right _ _ _ _ (by omega), hlen, Nat.sub_self, List.getD_cons_zero]
  have hword : (d ++ lo).toNat = lo.toNat + 256 * d.toNat := by
    rw [toNat_append_eq]
    omega
  rw [streamSample, if_neg (by omega), Int.toNat_natCast, hlow, hhigh, sampleOf_toInt, hword]

/-! ### The word and pair registers -/

theorem historyList_shiftHistory (x : Sample) (h : History) :
    historyList (shiftHistory x h) = x :: (historyList h).take 7 := rfl

/-- The filter registers are all that `FilterTracks` speaks of. -/
theorem FilterTracks.congr {bytes : List Byte} {s t : State} (h : FilterTracks bytes s) (hb : t.bph = s.bph) (hl : t.lo = s.lo)
    (hs : t.sph = s.sph) (hh : t.h = s.h) : FilterTracks bytes t where
  bytePhase := hb ▸ h.bytePhase
  lowByte := by rw [hb, hl]; exact h.lowByte
  samplePhase := hs ▸ h.samplePhase
  history := hh ▸ h.history

/-- R121: the first byte of a word goes to LO. -/
theorem FilterTracks.of_lowByte {bytes : List Byte} {s : State} (h : FilterTracks bytes s) (hb : s.bph = false) (d : Byte) :
    FilterTracks (bytes ++ [d]) (acceptByte d s) := by
  have heven : ¬ bytes.length % 2 = 1 := by simpa [hb] using h.bytePhase
  have hhalf : (bytes ++ [d]).length / 2 = bytes.length / 2 := by
    rw [List.length_append, List.length_singleton]
    omega
  rw [acceptByte_low hb]
  refine ⟨?phase, fun _ => List.getLast?_concat, ?sample, fun j hj => ?history⟩
  case phase =>
    rw [List.length_append, List.length_singleton]
    simp
    omega
  case sample => rw [hhalf]; exact h.samplePhase
  case history => rw [hhalf, h.history j hj, streamSample_append _ _ (by omega)]

/-- R121 to R123: the second byte of a word completes a sample, which is shifted into H. -/
theorem FilterTracks.of_highByte {bytes : List Byte} {s : State} (h : FilterTracks bytes s) (hb : s.bph = true) (d : Byte) :
    FilterTracks (bytes ++ [d]) (acceptByte d s) := by
  have hodd : bytes.length % 2 = 1 := by simpa [hb] using h.bytePhase
  have hhalf : (bytes ++ [d]).length / 2 = bytes.length / 2 + 1 := by
    rw [List.length_append, List.length_singleton]
    omega
  rw [acceptByte_high hb]
  refine ⟨?phase, fun hlow => by simp at hlow, ?sample, fun j hj => ?history⟩
  case phase =>
    rw [List.length_append, List.length_singleton, decodeAndFilter_bph]
    simp
    omega
  case sample =>
    rw [hhalf, decodeAndFilter_sph, h.samplePhase, ← decide_not, decide_eq_decide]
    omega
  case history =>
    rw [hhalf, decodeAndFilter_h, historyList_shiftHistory]
    cases j with
    | zero =>
      have hnew := streamSample_of_completed (m := bytes.length / 2) (by omega) (h.lowByte hb) d
      simpa using hnew.symm
    | succ j =>
      have hold : ((historyList s.h).take 7).getD j 0 = (historyList s.h).getD j 0 := by
        rw [List.getD_eq_getElem?_getD, List.getD_eq_getElem?_getD, List.getElem?_take_of_lt (by omega)]
      rw [List.getD_cons_succ, hold, h.history j (by omega), streamSample_append _ _ (by omega)]
      congr 1
      omega

theorem FilterTracks.of_acceptByte {bytes : List Byte} {s : State} (h : FilterTracks bytes s) (d : Byte) :
    FilterTracks (bytes ++ [d]) (acceptByte d s) := by
  cases hb : s.bph with
  | false => exact h.of_lowByte hb d
  | true => exact h.of_highByte hb d

/-- R124, R125: after a complete pair the history gives the pair's power value. -/
theorem FilterTracks.powerOf_eq {bytes : List Byte} {s : State} (h : FilterTracks bytes s) {n : Nat}
    (hlen : bytes.length = 4 * n + 4) : (powerOf s.h).toNat = powerAt bytes n := by
  have hhalf : ((bytes.length / 2 : Nat) : Int) = 2 * n + 2 := by omega
  have hist (j : Nat) (hj : j < 8) : ((historyList s.h).getD j 0).toInt = streamSample bytes (2 * n + 1 - j) := by
    rw [h.history j hj, hhalf]
    congr 1
    omega
  have ha : sumA s.h = filterA bytes n := by
    have h0 := hist 0 (by omega)
    have h2 := hist 2 (by omega)
    have h4 := hist 4 (by omega)
    have h6 := hist 6 (by omega)
    simp [historyList] at h0 h2 h4 h6
    rw [sumA, filterA, h0, h2, h4, h6]
    ring_nf
  have hb : sumB s.h = filterB bytes n := by
    have h1 := hist 1 (by omega)
    have h3 := hist 3 (by omega)
    have h5 := hist 5 (by omega)
    have h7 := hist 7 (by omega)
    simp [historyList] at h1 h3 h5 h7
    rw [sumB, filterB, h1, h3, h5, h7]
    ring_nf
  rw [powerOf_toNat, powerAt, ha, hb]

/-! ### The window -/

/-- An update that drops the first `n` window entries, moves POS on by `n` and leaves the filter registers. -/
theorem WindowTracks.of_drop {bytes : List Byte} {s t : State} (h : WindowTracks bytes s) (n : Nat) (hn : n ≤ s.w.length)
    (hb : t.bph = s.bph) (hl : t.lo = s.lo) (hs : t.sph = s.sph) (hh : t.h = s.h) (hw : t.w = s.w.drop n)
    (hp : t.pos = s.pos + BitVec.ofNat 64 n) : WindowTracks bytes t := by
  have hin := h.inRange
  have hfront : (powerSeq bytes).length - t.w.length = (powerSeq bytes).length - s.w.length + n := by
    rw [hw, List.length_drop]
    omega
  refine ⟨h.filter.congr hb hl hs hh, ?inRange, ?position, ?contents⟩
  case inRange => rw [hw, List.length_drop]; omega
  case position => rw [hfront, hp, h.position, BitVec.ofNat_add]
  case contents => rw [hfront, hw, List.map_drop, h.contents, List.drop_drop]

/-- An update that leaves POS, the window and the filter registers. -/
theorem WindowTracks.of_unchanged {bytes : List Byte} {s t : State} (h : WindowTracks bytes s) (hb : t.bph = s.bph)
    (hl : t.lo = s.lo) (hs : t.sph = s.sph) (hh : t.h = s.h) (hw : t.w = s.w) (hp : t.pos = s.pos) : WindowTracks bytes t :=
  h.of_drop 0 (Nat.zero_le _) hb hl hs hh (by simpa using hw) (by simpa using hp)

theorem WindowTracks.of_takeTurn {bytes : List Byte} {s : State} (h : WindowTracks bytes s) :
    WindowTracks bytes (takeTurn s).2 :=
  h.of_unchanged (by simp) (by simp) (by simp) (by simp) (by simp) (by simp)

/-- R145, R146: COR's turn drops no entry, one or 1200. -/
theorem WindowTracks.of_corTurn {bytes : List Byte} {s : State} (h : WindowTracks bytes s) (depth : FifoDepth) :
    WindowTracks bytes (corTurnAt depth s) := by
  rcases corTurnAt_cases depth s with ⟨_, hs⟩ | ⟨hr, _, hs⟩ | ⟨frame, hr, _, hs⟩
  · rw [hs]; exact h
  · obtain ⟨hfull, _⟩ := (corReadyAt_iff _ _).1 hr
    rw [hs]
    exact h.of_drop 1 (by omega) rfl rfl rfl rfl (by simp) (by simp)
  · obtain ⟨hfull, _⟩ := (corReadyAt_iff _ _).1 hr
    rw [hs]
    exact h.of_drop 1200 hfull.ge (by simp) (by simp) (by simp) (by simp) (by simp) (by simp)

/-- R27: an accepted byte appends to the window what it appends to the power sequence. -/
theorem WindowTracks.of_acceptByte {bytes : List Byte} {s : State} (h : WindowTracks bytes s) (d : Byte) :
    WindowTracks (bytes ++ [d]) (acceptByte d s) := by
  have hin := h.inRange
  have hpos := h.position
  have hcontents := h.contents
  have hfilter := h.filter.of_acceptByte d
  have hpair : (s.bph && s.sph) = decide (bytes.length % 4 = 3) := by
    rw [h.filter.bytePhase, h.filter.samplePhase, ← Bool.decide_and, decide_eq_decide]
    omega
  have hw := acceptByte_w d s
  rw [hpair] at hw
  by_cases h3 : bytes.length % 4 = 3
  · have hpower : (powerOf (acceptByte d s).h).toNat = powerAt (bytes ++ [d]) (bytes.length / 4) :=
      hfilter.powerOf_eq (by rw [List.length_append, List.length_singleton]; omega)
    rw [if_pos (by simpa using h3)] at hw
    have hfront : (powerSeq (bytes ++ [d])).length - (acceptByte d s).w.length =
        (powerSeq bytes).length - s.w.length := by
      rw [powerSeq_concat_of_completed h3, hw]
      simp
    refine ⟨hfilter, ?_, ?_, ?_⟩
    · rw [powerSeq_concat_of_completed h3, hw, List.length_append, List.length_append]
      simpa using hin
    · rw [hfront, acceptByte_pos, hpos]
    · rw [hfront, hw, powerSeq_concat_of_completed h3, List.map_append, hcontents, List.map_singleton, hpower,
        List.drop_append_of_le_length (Nat.sub_le _ _)]
  · rw [if_neg (by simpa using h3)] at hw
    refine ⟨hfilter, ?_, ?_, ?_⟩ <;> rw [powerSeq_concat_of_incomplete h3, hw]
    · exact hin
    · rw [acceptByte_pos, hpos]
    · exact hcontents

/-- R38: nothing accepted, an empty window at POS 0. -/
theorem windowTracks_of_reset {t : State} (h : t.toAjrx = Ajrx.reset) : WindowTracks [] t := by
  refine ⟨⟨?_, ?_, ?_, fun j hj => ?_⟩, ?_, ?_, ?_⟩
  case refine_4 =>
    rw [h, streamSample, if_pos (by simp; omega)]
    interval_cases j <;> rfl
  all_goals simp [h, Ajrx.reset, powerSeq]

/-! ### The bytes accepted in a step -/

theorem streamAfter_of_rst {s : State} (h : (takeTurn s).1 = .rst) (bytes : List Byte) : streamAfter s bytes = [] := by
  rw [streamAfter, h]

theorem streamAfter_of_cor {s : State} (h : (takeTurn s).1 = .cor) (bytes : List Byte) : streamAfter s bytes = bytes := by
  rw [streamAfter, h]

theorem streamAfter_of_host {s : State} (h : (takeTurn s).1 = .host) (bytes : List Byte) : streamAfter s bytes = bytes := by
  rw [streamAfter, h]

theorem streamAfter_of_held {s : State} (h : (takeTurn s).1 = .src) (hh : s.beats = [] ∨ srcReady s = false)
    (bytes : List Byte) : streamAfter s bytes = bytes := by
  rw [streamAfter, h]
  rcases hb : s.beats with _ | ⟨b, bs⟩
  · rfl
  · have hr : srcReady s = false := hh.resolve_left (by simp [hb])
    simp [hr]

theorem streamAfter_of_inLast {s : State} {b : Beat} {bs : List Beat} (h : (takeTurn s).1 = .src) (hb : s.beats = b :: bs)
    (h8 : b.getLsbD 8 = true) (bytes : List Byte) : streamAfter s bytes = bytes := by
  simp only [streamAfter, h, hb, h8, Bool.not_true, Bool.and_false, Bool.false_eq_true, if_false]

theorem streamAfter_of_inByte {s : State} {b : Beat} {bs : List Beat} (h : (takeTurn s).1 = .src) (hb : s.beats = b :: bs)
    (hr : srcReady s = true) (h8 : b.getLsbD 8 = false) (bytes : List Byte) :
    streamAfter s bytes = bytes ++ [b.extractLsb' 0 8] := by
  simp only [streamAfter, h, hb, hr, h8, Bool.not_false, Bool.and_true, if_true]

/-- Settles O52, by the cases of a step. -/
theorem stepKeepsWindowOnPowerSequence : Obligations.StepKeepsWindowOnPowerSequence := by
  intro bytes s t htracks hstep
  have hturn := htracks.of_takeTurn
  rcases step_next_cases hstep with ⟨ht, rfl⟩ | ⟨ht, rfl⟩ | ⟨ht, hheld, rfl⟩ | ⟨b, bs, ht, hb, _, h8, rfl⟩ |
    ⟨b, bs, ht, hb, hr, h8, rfl⟩ | ⟨ht, _, rfl⟩ | ⟨c, cs, ht, _, r, rfl⟩
  · -- reset
    rw [streamAfter_of_rst ht]
    exact windowTracks_of_reset rfl
  · -- COR
    rw [streamAfter_of_cor ht]
    exact hturn.of_corTurn _
  · -- SRC, held or with nothing on offer
    rw [streamAfter_of_held ht hheld]
    exact hturn
  · -- SRC takes IN.LAST
    rw [streamAfter_of_inLast ht hb h8]
    exact hturn.of_unchanged rfl rfl rfl rfl rfl rfl
  · -- SRC takes a byte
    rw [streamAfter_of_inByte ht hb hr h8]
    have hoffer : WindowTracks bytes { (takeTurn s).2 with beats := bs } := hturn.of_unchanged rfl rfl rfl rfl rfl rfl
    exact hoffer.of_acceptByte _
  · -- HOST, nothing on offer
    rw [streamAfter_of_host ht]
    exact hturn
  · -- HOST takes a command
    rw [streamAfter_of_host ht]
    exact hturn.of_unchanged rfl rfl rfl rfl rfl rfl

/-! ### The start -/

/-- Settles O54: an empty window and an empty queue meet every clause, with no iteration of R174's loop done. -/
theorem resetStartsTheInvariants : Obligations.ResetStartsTheInvariants := by
  have hordered : TimestampsOrdered State.reset := ⟨fun e he => absurd he List.not_mem_nil, List.Pairwise.nil⟩
  exact ⟨goodState_of_reset rfl, hordered, windowTracks_of_reset rfl, 0, rfl, rfl, rfl⟩

end Sys2Proof.Machine
end

section
/-! R174's loop beside the machine (20_memory.md R70, 42_correlator_slicer.md R174): what an iteration reads and puts out, the loop
over a power sequence that grows, and COR's turn as one iteration. -/

namespace Sys2Proof.Machine

/-! ### The first 1200 entries of a window decide COR.EVAL -/

section
variable {get get' : Nat → Nat} (h : ∀ i < 1200, get i = get' i)
include h

theorem peakSum_congr {o : Nat} (ho : o + 45 < 1200) : peakSum get o = peakSum get' o := by
  rw [peakSum, h o (by omega), h (o + 10) (by omega), h (o + 35) (by omega), h (o + 45) ho]
  rfl

theorem valleySum_congr : valleySum get = valleySum get' := by
  rw [valleySum, h 5 (by decide), h 15 (by decide), h 20 (by decide), h 25 (by decide), h 30 (by decide), h 40 (by decide)]
  rfl

theorem slicedBit_congr {k : Nat} (hk : k < 112) : slicedBit get k = slicedBit get' k := by
  rw [slicedBit, h (80 + 10 * k) (by omega), h (85 + 10 * k) (by omega)]
  rfl

theorem slicedByte_congr {j : Nat} (hj : j < 14) : slicedByte get j = slicedByte get' j := by
  have hbit : ∀ i ∈ List.range 8, slicedBit get (8 * j + i) = slicedBit get' (8 * j + i) := fun i hi =>
    slicedBit_congr h (by have := List.mem_range.1 hi; omega)
  unfold slicedByte
  exact congrArg _ (List.foldl_ext _ _ _ fun acc i hi => by rw [hbit i hi])

theorem slicedBytes_congr : slicedBytes get = slicedBytes get' :=
  List.map_congr_left fun _ hj => slicedByte_congr h (List.mem_range.1 hj)

/-- R162 to R169: the highest offset that the tests and the slicer read is 1195. -/
theorem candidateFrame_congr (prev : Nat) : candidateFrame get prev = candidateFrame get' prev := by
  unfold candidateFrame preambleTest
  rw [peakSum_congr h (by decide : 0 + 45 < 1200), peakSum_congr h (by decide : 1 + 45 < 1200), valleySum_congr h,
    slicedByte_congr h (by decide : 0 < 14), slicedBytes_congr h]

end

/-! ### One iteration -/

theorem demodStep_of_none {powers : List Nat} {d : DemodState} (h : candidateFrame (windowAt powers d.p) d.prev = none) :
    demodStep powers d = ⟨d.out, d.p + 1, peakSum (windowAt powers d.p) 0⟩ := by
  rw [demodStep, h]

theorem demodStep_of_some {powers : List Nat} {d : DemodState} {frame : Wide}
    (h : candidateFrame (windowAt powers d.p) d.prev = some frame) :
    demodStep powers d = ⟨d.out ++ [⟨BitVec.ofNat 64 (d.p * 100), frame⟩], d.p + 1200, 0⟩ := by
  rw [demodStep, h]

/-- An iteration moves on, and adds to what has been put out. -/
theorem demodStep_progress (powers : List Nat) (d : DemodState) :
    d.p < (demodStep powers d).p ∧ d.out <+: (demodStep powers d).out := by
  rcases h : candidateFrame (windowAt powers d.p) d.prev with _ | frame
  · rw [demodStep_of_none h]
    exact ⟨Nat.lt_succ_self _, List.prefix_refl _⟩
  · rw [demodStep_of_some h]
    exact ⟨Nat.lt_add_of_pos_right (by decide), List.prefix_append _ _⟩

/-! ### The loop over a growing power sequence -/

theorem windowAt_append {powers : List Nat} (more : List Nat) {p i : Nat} (h : p + i < powers.length) :
    windowAt (powers ++ more) p i = windowAt powers p i :=
  List.getD_append _ _ _ _ h

/-- An iteration whose whole window is there already takes no notice of later power values. -/
theorem demodStep_append {powers : List Nat} (more : List Nat) {d : DemodState} (h : d.p + 1200 ≤ powers.length) :
    demodStep (powers ++ more) d = demodStep powers d := by
  have hwindow : ∀ i < 1200, windowAt (powers ++ more) d.p i = windowAt powers d.p i := fun i hi =>
    windowAt_append more (by omega)
  unfold demodStep
  rw [candidateFrame_congr hwindow, peakSum_congr hwindow (by decide : 0 + 45 < 1200)]

/-- R70: where the loop stands on a power sequence, it also stands at some time on every longer one. -/
theorem demodLoop_append (powers more : List Nat) (k : Nat) (d : DemodState) :
    ∃ j, demodLoop j (powers ++ more) d = demodLoop k powers d := by
  induction k generalizing d with
  | zero => exact ⟨0, rfl⟩
  | succ k ih =>
    by_cases h : d.p + 1200 ≤ powers.length
    · obtain ⟨j, hj⟩ := ih (demodStep powers d)
      refine ⟨j + 1, ?_⟩
      rw [demodLoop, if_pos (by rw [List.length_append]; exact h.trans (Nat.le_add_right _ _)), demodStep_append more h, hj,
        demodLoop, if_pos h]
    · exact ⟨0, (demodLoop_of_short (Nat.not_le.1 h) _).symm⟩

/-! ### The end of the loop -/

theorem demodLoop_out_prefix (powers : List Nat) (k : Nat) (d : DemodState) : d.out <+: (demodLoop k powers d).out := by
  induction k generalizing d with
  | zero => exact List.prefix_refl _
  | succ k ih =>
    rw [demodLoop]
    split
    · exact (demodStep_progress powers d).2.trans (ih _)
    · exact List.prefix_refl _

/-- As many iterations as there are positions left come to the end of the power sequence. -/
theorem demodLoop_short {powers : List Nat} {k : Nat} {d : DemodState} (h : powers.length ≤ d.p + k) :
    powers.length < (demodLoop k powers d).p + 1200 := by
  induction k generalizing d with
  | zero => rw [demodLoop]; omega
  | succ k ih =>
    rw [demodLoop]
    split
    · have := (demodStep_progress powers d).1
      exact ih (by omega)
    · rename_i hshort
      exact Nat.not_le.1 hshort

/-- Any number of iterations, with those of R174's whole loop put behind it, comes to where the whole loop ends. -/
theorem demodLoop_then_all (powers : List Nat) (k : Nat) :
    demodLoop powers.length powers (demodLoop k powers demodStart) = demod powers := by
  rw [← demodLoop_add, Nat.add_comm, demodLoop_add]
  exact demodLoop_of_short (demodLoop_short (Nat.le_add_left _ _)) k

theorem demodLoop_out_prefix_demod (powers : List Nat) (k : Nat) :
    (demodLoop k powers demodStart).out <+: (demod powers).out := by
  rw [← demodLoop_then_all powers k]
  exact demodLoop_out_prefix _ _ _

/-- Where no window of 1200 is left, the loop has ended. -/
theorem demodLoop_eq_demod {powers : List Nat} {k : Nat} (h : powers.length < (demodLoop k powers demodStart).p + 1200) :
    demodLoop k powers demodStart = demod powers := by
  rw [← demodLoop_then_all powers k, demodLoop_of_short h]

/-! ### The power values that a byte adds -/

theorem powerSeq_prefix_concat (bytes : List Byte) (d : Byte) : powerSeq bytes <+: powerSeq (bytes ++ [d]) := by
  by_cases h : bytes.length % 4 = 3
  · rw [powerSeq_concat_of_completed h]
    exact List.prefix_append _ _
  · rw [powerSeq_concat_of_incomplete h]

/-- R121, R123: BPH and SPH are both set before the last byte of a pair. -/
theorem FilterTracks.completes_iff {bytes : List Byte} {s : State} (h : FilterTracks bytes s) :
    (s.bph && s.sph) = true ↔ bytes.length % 4 = 3 := by
  rw [Bool.and_eq_true, h.bytePhase, h.samplePhase, decide_eq_true_iff, decide_eq_true_iff]
  omega

/-- R27: an accepted byte leaves the position at the window's front. -/
theorem FilterTracks.acceptByte_front {bytes : List Byte} {s : State} (h : FilterTracks bytes s) (d : Byte) :
    (powerSeq (bytes ++ [d])).length - (acceptByte d s).w.length = (powerSeq bytes).length - s.w.length := by
  rw [powerSeq_length, powerSeq_length, List.length_append, List.length_singleton, acceptByte_w]
  by_cases hlast : (s.bph && s.sph) = true
  · have h3 := h.completes_iff.1 hlast
    rw [if_pos hlast, List.length_append, List.length_singleton]
    omega
  · have h3 := mt h.completes_iff.2 hlast
    rw [if_neg hlast]
    omega

/-! ### Each kind of update keeps the machine in step with the loop -/

/-- An update that leaves the window and PREV as they are and moves entries, if any, from the queue to those popped. -/
theorem PipelineTracks.of_moved {bytes : List Byte} {popped popped' : List FrameEntry} {s t : State}
    (h : PipelineTracks bytes popped s) (hwin : WindowTracks bytes t) (hw : t.w = s.w) (hp : t.prev = s.prev)
    (hf : popped' ++ t.fifo = popped ++ s.fifo) : PipelineTracks bytes popped' t := by
  obtain ⟨k, hout, hpos, hprev⟩ := h.loop
  exact ⟨hwin, k, hf.trans hout, by rw [hw, hpos], by rw [hp, hprev]⟩

theorem PipelineTracks.of_takeTurn {bytes : List Byte} {popped : List FrameEntry} {s : State}
    (h : PipelineTracks bytes popped s) : PipelineTracks bytes popped (takeTurn s).2 :=
  h.of_moved h.window.of_takeTurn (by simp) (by simp) (by simp)

theorem pipelineTracks_of_reset {t : State} (h : t.toAjrx = Ajrx.reset) : PipelineTracks [] [] t :=
  ⟨windowTracks_of_reset h, 0, by rw [h]; rfl, by rw [h]; rfl, by rw [h]; rfl⟩

/-- The loop is where it was: it stood at the window's front, and has a longer power sequence before it. -/
theorem PipelineTracks.of_acceptByte {bytes : List Byte} {popped : List FrameEntry} {s : State}
    (h : PipelineTracks bytes popped s) (d : Byte) : PipelineTracks (bytes ++ [d]) popped (acceptByte d s) := by
  obtain ⟨k, hout, hpos, hprev⟩ := h.loop
  obtain ⟨more, hmore⟩ := powerSeq_prefix_concat bytes d
  obtain ⟨j, hj⟩ := demodLoop_append (powerSeq bytes) more k demodStart
  rw [hmore] at hj
  refine ⟨h.window.of_acceptByte d, j, ?_⟩
  rw [hj, acceptByte_fifo, acceptByte_prev, h.window.filter.acceptByte_front]
  exact ⟨hout, hpos, hprev⟩

/-- R27: the window is the part of the power sequence from the position at its front. -/
theorem WindowTracks.windowGet_eq {bytes : List Byte} {s : State} (h : WindowTracks bytes s) :
    windowGet s = windowAt (powerSeq bytes) ((powerSeq bytes).length - s.w.length) := by
  funext i
  calc windowGet s i = (s.w.map BitVec.toNat).getD i 0 := (List.getD_map s.w 0 BitVec.toNat).symm
    _ = windowAt (powerSeq bytes) ((powerSeq bytes).length - s.w.length) i := by
      rw [h.contents, windowAt, List.getD_eq_getElem?_getD, List.getElem?_drop, List.getD_eq_getElem?_getD]

/-- R169: the timestamp found at the window's front, where the loop counts positions without a bound. -/
theorem WindowTracks.timestampNow_eq {bytes : List Byte} {s : State} (h : WindowTracks bytes s) :
    timestampNow s = BitVec.ofNat 64 (((powerSeq bytes).length - s.w.length) * 100) := by
  rw [timestampNow, h.position, BitVec.ofNat_mul]

/-- R161, R174: COR's turn is one iteration of the loop, or none while it is held. -/
theorem PipelineTracks.of_corTurn {bytes : List Byte} {popped : List FrameEntry} {s : State}
    (h : PipelineTracks bytes popped s) (depth : FifoDepth) : PipelineTracks bytes popped (corTurnAt depth s) := by
  have hwin := h.window.of_corTurn depth
  have hin := h.window.inRange
  have hget := h.window.windowGet_eq
  obtain ⟨k, hout, hpos, hprev⟩ := h.loop
  have hnext (hfull : s.w.length = 1200) : demodLoop (k + 1) (powerSeq bytes) demodStart =
      demodStep (powerSeq bytes) (demodLoop k (powerSeq bytes) demodStart) := by
    rw [demodLoop_succ, if_pos (by rw [← hpos]; simp only [Config.windowSize]; omega)]
  rcases corTurnAt_cases depth s with ⟨_, hs⟩ | ⟨hr, hc, hs⟩ | ⟨frame, hr, hc, hs⟩
  · -- held
    rw [hs]
    exact h
  · -- rejection
    obtain ⟨hfull, _⟩ := (corReadyAt_iff _ _).1 hr
    rw [hget, hpos, hprev] at hc
    rw [hs] at hwin ⊢
    refine ⟨hwin, k + 1, ?_⟩
    simp only [hnext hfull, demodStep_of_none hc]
    refine ⟨hout, ?_, ?_⟩
    · rw [← hpos, rejectPosition_w, List.length_tail]
      omega
    · rw [rejectPosition_prev, BitVec.toNat_ofNat, Nat.mod_eq_of_lt (peakSum_windowGet_lt s 0), hget, hpos]
  · -- acceptance
    obtain ⟨hfull, _⟩ := (corReadyAt_iff _ _).1 hr
    rw [hget, hpos, hprev] at hc
    rw [hs] at hwin ⊢
    refine ⟨hwin, k + 1, ?_⟩
    simp only [hnext hfull, demodStep_of_some hc]
    refine ⟨?_, ?_, ?_⟩
    · rw [acceptFrame_fifo, ← List.append_assoc, hout, h.window.timestampNow_eq, hpos]
    · rw [← hpos, acceptFrame_w, List.length_drop]
      simp only [Config.windowSize]
      omega
    · rw [acceptFrame_prev]; rfl

/-! ### The entries popped in a step -/

section
variable {s : State} (popped : List FrameEntry)

theorem poppedAfter_of_rst (h : (takeTurn s).1 = .rst) : poppedAfter s popped = [] := by
  rw [poppedAfter, h]

theorem poppedAfter_of_cor (h : (takeTurn s).1 = .cor) : poppedAfter s popped = popped := by
  rw [poppedAfter, h]

theorem poppedAfter_of_src (h : (takeTurn s).1 = .src) : poppedAfter s popped = popped := by
  rw [poppedAfter, h]

theorem poppedAfter_of_idle (h : (takeTurn s).1 = .host) (hc : s.cmds = []) : poppedAfter s popped = popped := by
  simp only [poppedAfter, h, hc]

/-- R272: what POPF takes off the queue is what has been popped besides. -/
theorem poppedAfter_append_fifo {c : CommandWord} {cs : List CommandWord} (h : (takeTurn s).1 = .host)
    (hc : s.cmds = c :: cs) :
    poppedAfter s popped ++ (if decodeCommand c = .ok .popf then s.fifo.tail else s.fifo) = popped ++ s.fifo := by
  simp only [poppedAfter, h, hc]
  split
  · rw [List.append_assoc, ← List.drop_one, List.take_append_drop]
  · rfl

end

/-- Settles O53, by the cases of a step. -/
theorem stepKeepsPipelineOnDemod : Obligations.StepKeepsPipelineOnDemod := by
  intro bytes popped s t htracks hstep
  have hwin := stepKeepsWindowOnPowerSequence bytes s t htracks.window hstep
  have hturn := htracks.of_takeTurn
  rcases step_next_cases hstep with ⟨ht, rfl⟩ | ⟨ht, rfl⟩ | ⟨ht, hheld, rfl⟩ | ⟨b, bs, ht, hb, _, h8, rfl⟩ |
    ⟨b, bs, ht, hb, hr, h8, rfl⟩ | ⟨ht, hc, rfl⟩ | ⟨c, cs, ht, hc, r, rfl⟩
  · -- reset
    rw [streamAfter_of_rst ht, poppedAfter_of_rst _ ht]
    exact pipelineTracks_of_reset rfl
  · -- COR
    rw [streamAfter_of_cor ht, poppedAfter_of_cor _ ht]
    exact hturn.of_corTurn _
  · -- SRC, held or with nothing on offer
    rw [streamAfter_of_held ht hheld, poppedAfter_of_src _ ht]
    exact hturn
  · -- SRC takes IN.LAST
    rw [streamAfter_of_inLast ht hb h8] at hwin ⊢
    rw [poppedAfter_of_src _ ht]
    exact hturn.of_moved hwin rfl rfl rfl
  · -- SRC takes a byte
    rw [streamAfter_of_inByte ht hb hr h8, poppedAfter_of_src _ ht]
    have hoffer : PipelineTracks bytes popped { (takeTurn s).2 with beats := bs } :=
      hturn.of_moved (hturn.window.of_unchanged rfl rfl rfl rfl rfl rfl) rfl rfl rfl
    exact hoffer.of_acceptByte _
  · -- HOST, nothing on offer
    rw [streamAfter_of_host ht, poppedAfter_of_idle _ ht hc]
    exact hturn
  · -- HOST takes a command
    rw [streamAfter_of_host ht] at hwin ⊢
    exact htracks.of_moved hwin (by simp) (by simp) (poppedAfter_append_fifo _ ht hc)

/-- Settles O55: what has been put out so far leads the loop's output, and a window that is not full has the loop at its end. -/
theorem poppedFramesLeadDemod : Obligations.PoppedFramesLeadDemod := by
  intro bytes popped s htracks
  have hin := htracks.window.inRange
  obtain ⟨k, hout, hpos, hprev⟩ := htracks.loop
  refine ⟨?leads, fun hroom => ?ended⟩
  case leads =>
    have hqueued : popped <+: popped ++ s.fifo := List.prefix_append _ _
    rw [hout] at hqueued
    exact hqueued.trans (demodLoop_out_prefix_demod _ _)
  case ended =>
    have hend : demodLoop k (powerSeq bytes) demodStart = demod (powerSeq bytes) :=
      demodLoop_eq_demod (by rw [← hpos]; omega)
    rw [hend] at hout hpos hprev
    exact ⟨hout, by rw [← hpos, htracks.window.position], by rw [← hpos]; omega, hprev⟩

end Sys2Proof.Machine
end

section
/-! The byte-buffer commands BAT and BRNG within their limits (44_bitfield_bytes.md R217, R218), and BRNG's number from the bytes
(20_memory.md R56, R59). -/

namespace Sys2Proof.Machine

/-- R217: BAT answers the byte at its index. -/
theorem exec_bat_of_valid {index n : Nat} (hn : n ≤ 14) (hi : index < n) (buf : Wide) (s : State) :
    exec (.bat index n buf) s = .next (respond 0 (BitVec.ofNat 112 (byteAt buf index).toNat) s) := by
  simp [exec, execBat, validLength, hn, hi]

/-- R218: BRNG answers the number that the bytes of its range form. -/
theorem exec_brng_of_valid {lower upper n : Nat} (hn : n ≤ 14) (hlu : lower ≤ upper) (hun : upper ≤ n)
    (hspan : upper - lower ≤ 7) (buf : Wide) (s : State) :
    exec (.brng lower upper n buf) s = .next (respond 0 (BitVec.ofNat 112 (memRead buf lower (upper - lower))) s) := by
  rw [exec, execBrng, if_pos (by simp [validLength, validRange, hn, hlu, hun, hspan])]

/-- R56: the first byte read is the most significant. -/
theorem memRead_eq_sum (buf : Wide) (addr n : Nat) :
    memRead buf addr n = ∑ j ∈ Finset.range n, (byteAt buf (addr + j)).toNat * 256 ^ (n - 1 - j) :=
  bigEndian_map_range (fun j => byteAt buf (addr + j)) n

/-- Settles O14, with the bytes of the buffer as the values. -/
theorem brngIsBatAssembled : Obligations.BrngIsBatAssembled := by
  intro lower upper n buf s hn hlu hun hspan
  refine ⟨fun j => (byteAt buf j).toNat, fun j _ hj => ⟨(byteAt buf j).isLt, ?bat⟩, ?brng⟩
  case bat => exact exec_bat_of_valid hn (hj.trans_le hun) buf s
  case brng =>
    rw [exec_brng_of_valid hn hlu hun hspan, memRead_eq_sum]
    rfl

end Sys2Proof.Machine
end

section
/-! Decoding and encoding (30_encoding.md R81 to R83, R90 to R92, R95, R106): what each opcode decodes to, the decoder and the
encoder against each other, and the bits of a command word that count. -/

namespace Sys2Proof

/-! ### What each opcode decodes to (R83, R90, R91)

The ten equations open `decodeCommand` by `delta`: through its equation lemma the ten proofs, elaborated at once, would all
wait for that lemma, each on a thread of its own. -/

section
variable {w : CommandWord}

theorem decodeCommand_xtru (h : (cmdOp w).toNat = 1) :
    decodeCommand w = .ok (.xtru (cmdA w).toNat (cmdB w).toNat (dValue (cmdD w))) := by
  delta decodeCommand; rw [h]; rfl

theorem decodeCommand_tbit (h : (cmdOp w).toNat = 2) :
    decodeCommand w = .ok (.tbit (cmdA w).toNat (dValue (cmdD w))) := by
  delta decodeCommand; rw [h]; rfl

theorem decodeCommand_blen (h : (cmdOp w).toNat = 3) : decodeCommand w = .ok (.blen (cmdC w).toNat (cmdD w)) := by
  delta decodeCommand; rw [h]; rfl

theorem decodeCommand_bat (h : (cmdOp w).toNat = 4) :
    decodeCommand w = .ok (.bat (cmdA w).toNat (cmdC w).toNat (cmdD w)) := by
  delta decodeCommand; rw [h]; rfl

theorem decodeCommand_brng (h : (cmdOp w).toNat = 5) :
    decodeCommand w = .ok (.brng (cmdA w).toNat (cmdB w).toNat (cmdC w).toNat (cmdD w)) := by
  delta decodeCommand; rw [h]; rfl

theorem decodeCommand_crc (h : (cmdOp w).toNat = 6) : decodeCommand w = .ok (.crc (cmdC w).toNat (cmdD w)) := by
  delta decodeCommand; rw [h]; rfl

theorem decodeCommand_cprd (h : (cmdOp w).toNat = 7) :
    decodeCommand w =
      .ok (.cprd (dXze (cmdD w)) (dYze (cmdD w)) (dXzo (cmdD w)) (dYzo (cmdD w)) (dParity (cmdD w))) := by
  delta decodeCommand; rw [h]; rfl

theorem decodeCommand_popf (h : (cmdOp w).toNat = 8) : decodeCommand w = .ok .popf := by
  delta decodeCommand; rw [h]; rfl

theorem decodeCommand_wget (h : (cmdOp w).toNat = 9) : decodeCommand w = .ok (.wget (dIndex (cmdD w))) := by
  delta decodeCommand; rw [h]; rfl

theorem decodeCommand_rdsr (h : (cmdOp w).toNat = 10) : decodeCommand w = .ok (.rdsr (cmdA w).toNat) := by
  delta decodeCommand; rw [h]; rfl

/-- R91: opcodes 0x00 and 0x0B to 0xFF select no command. -/
theorem decodeCommand_of_reserved (h : (cmdOp w).toNat = 0 ∨ 11 ≤ (cmdOp w).toNat) :
    decodeCommand w = .error (.reservedOpcode (cmdOp w)) := by
  unfold decodeCommand
  split
  case h_11 => rfl
  all_goals omega

/-- R91: no other opcode is reserved. -/
theorem reserved_of_decodeCommand_error {err : DecodeError} (h : decodeCommand w = .error err) :
    (cmdOp w).toNat = 0 ∨ 11 ≤ (cmdOp w).toNat := by
  by_contra hop
  have hlow : 1 ≤ (cmdOp w).toNat := by omega
  have hhigh : (cmdOp w).toNat ≤ 10 := by omega
  interval_cases hcode : (cmdOp w).toNat <;> simp [decodeCommand, hcode] at h

/-- R90: what holds of each command with its opcode, as the word's fields give it, holds of a decoded operation. -/
theorem decodeCommand_elim {P : Nat → Instr → Prop} {i : Instr} (h : decodeCommand w = .ok i)
    (xtru : P 1 (.xtru (cmdA w).toNat (cmdB w).toNat (dValue (cmdD w))))
    (tbit : P 2 (.tbit (cmdA w).toNat (dValue (cmdD w))))
    (blen : P 3 (.blen (cmdC w).toNat (cmdD w)))
    (bat : P 4 (.bat (cmdA w).toNat (cmdC w).toNat (cmdD w)))
    (brng : P 5 (.brng (cmdA w).toNat (cmdB w).toNat (cmdC w).toNat (cmdD w)))
    (crc : P 6 (.crc (cmdC w).toNat (cmdD w)))
    (cprd : P 7 (.cprd (dXze (cmdD w)) (dYze (cmdD w)) (dXzo (cmdD w)) (dYzo (cmdD w)) (dParity (cmdD w))))
    (popf : P 8 .popf)
    (wget : P 9 (.wget (dIndex (cmdD w))))
    (rdsr : P 10 (.rdsr (cmdA w).toNat)) : P (cmdOp w).toNat i := by
  unfold decodeCommand at h
  split at h
  case h_11 => cases h
  all_goals
    rename_i hop
    obtain rfl := Except.ok.inj h
    rw [hop]
    assumption

end

/-! ### Operands and their fields (R82, R83, R106) -/

section
variable (d : Wide) (x : BitVec 64)

theorem fitsByte_toNat (b : Byte) : fitsByte b.toNat = true := decide_eq_true b.isLt

theorem fitsCpr_toNat (c : BitVec 17) : fitsCpr c.toNat = true := decide_eq_true c.isLt

theorem fitsIndex_dIndex : fitsIndex (dIndex d) = true := decide_eq_true (BitVec.isLt _)

theorem mod_of_fitsByte {n : Nat} (h : fitsByte n = true) : n % 256 = n := Nat.mod_eq_of_lt (of_decide_eq_true h)

theorem mod_of_fitsCpr {n : Nat} (h : fitsCpr n = true) : n % 2 ^ 17 = n := Nat.mod_eq_of_lt (of_decide_eq_true h)

theorem mod_of_fitsIndex {n : Nat} (h : fitsIndex n = true) : n % 65536 = n := Nat.mod_eq_of_lt (of_decide_eq_true h)

theorem dValue_setWidth : dValue (x.setWidth 112) = x := by
  apply BitVec.eq_of_toNat_eq
  rw [dValue, BitVec.extractLsb'_toNat, BitVec.toNat_setWidth, Nat.shiftRight_zero]
  omega

end

section
variable (xze yze xzo yzo : Nat) (p : Bool)

theorem dXze_packCpr : dXze (packCpr xze yze xzo yzo p) = xze % 2 ^ 17 := by
  rw [dXze, BitVec.extractLsb'_toNat, packCpr_toNat, Nat.shiftRight_eq_div_pow]
  omega

theorem dYze_packCpr : dYze (packCpr xze yze xzo yzo p) = yze % 2 ^ 17 := by
  rw [dYze, BitVec.extractLsb'_toNat, packCpr_toNat, Nat.shiftRight_eq_div_pow]
  omega

theorem dXzo_packCpr : dXzo (packCpr xze yze xzo yzo p) = xzo % 2 ^ 17 := by
  rw [dXzo, BitVec.extractLsb'_toNat, packCpr_toNat, Nat.shiftRight_eq_div_pow]
  omega

theorem dYzo_packCpr : dYzo (packCpr xze yze xzo yzo p) = yzo % 2 ^ 17 := by
  rw [dYzo, BitVec.extractLsb'_toNat, packCpr_toNat, Nat.shiftRight_eq_div_pow]
  omega

theorem dParity_packCpr : dParity (packCpr xze yze xzo yzo p) = p := by
  rw [dParity, ← BitVec.testBit_toNat, packCpr_toNat, Nat.testBit_eq_decide_div_mod_eq]
  cases p with
  | false => simp only [Bool.toNat_false, decide_eq_false_iff_not]; omega
  | true => simp only [Bool.toNat_true, decide_eq_true_eq]; omega

end

/-! ### A decoded operation is well formed, and well-formed operations survive the encoding -/

/-- R83: every operand is read from a field of its own width. -/
theorem wellFormed_of_decodeCommand {w : CommandWord} {i : Instr} (h : decodeCommand w = .ok i) : i.wellFormed = true := by
  refine decodeCommand_elim (P := fun _ i => i.wellFormed = true) h ?xtru ?tbit ?blen ?bat ?brng ?crc ?cprd ?popf ?wget ?rdsr
  all_goals simp only [Instr.wellFormed, fitsByte_toNat, fitsIndex_dIndex, Bool.and_self]
  case cprd => simp only [dXze, dYze, dXzo, dYzo, fitsCpr_toNat, Bool.and_self]

/-- R81: either kind of beat has operands that fit. -/
theorem wellFormed_decodeBeat (b : Beat) : (decodeBeat b).wellFormed = true := by
  unfold decodeBeat
  split
  · rfl
  · rfl

/-- R81: a data beat carries its byte below a clear in_last. -/
theorem decodeBeat_setWidth (d : Byte) : decodeBeat (d.setWidth 9) = .inByte d := by
  have hlast : (d.setWidth 9).getLsbD 8 = false := by simp
  have hdata : (d.setWidth 9).extractLsb' 0 8 = d := by
    apply BitVec.eq_of_toNat_eq
    rw [BitVec.extractLsb'_toNat, BitVec.toNat_setWidth, Nat.shiftRight_zero]
    omega
  rw [decodeBeat, hlast, hdata]
  rfl

/-- Settles O1, operation by operation: the decoder's fields read back what the encoder wrote. -/
theorem decodeOfEncodeIsIdentity : Obligations.DecodeOfEncodeIsIdentity := by
  intro i hi
  cases i with
  | xtru start size value =>
    obtain ⟨hstart, hsize⟩ := Bool.and_eq_true_iff.1 hi
    rw [encode, decode, decodeCommand_xtru (cmdOp_commandWord ..), cmdA_commandWord, cmdB_commandWord, cmdD_commandWord,
      mod_of_fitsByte hstart, mod_of_fitsByte hsize, dValue_setWidth]
  | tbit index value =>
    rw [encode, decode, decodeCommand_tbit (cmdOp_commandWord ..), cmdA_commandWord, cmdD_commandWord, mod_of_fitsByte hi,
      dValue_setWidth]
  | blen n buf =>
    rw [encode, decode, decodeCommand_blen (cmdOp_commandWord ..), cmdC_commandWord, cmdD_commandWord, mod_of_fitsByte hi]
  | bat index n buf =>
    obtain ⟨hindex, hn⟩ := Bool.and_eq_true_iff.1 hi
    rw [encode, decode, decodeCommand_bat (cmdOp_commandWord ..), cmdA_commandWord, cmdC_commandWord, cmdD_commandWord,
      mod_of_fitsByte hindex, mod_of_fitsByte hn]
  | brng lower upper n buf =>
    obtain ⟨hrange, hn⟩ := Bool.and_eq_true_iff.1 hi
    obtain ⟨hlower, hupper⟩ := Bool.and_eq_true_iff.1 hrange
    rw [encode, decode, decodeCommand_brng (cmdOp_commandWord ..), cmdA_commandWord, cmdB_commandWord, cmdC_commandWord,
      cmdD_commandWord, mod_of_fitsByte hlower, mod_of_fitsByte hupper, mod_of_fitsByte hn]
  | crc n buf =>
    rw [encode, decode, decodeCommand_crc (cmdOp_commandWord ..), cmdC_commandWord, cmdD_commandWord, mod_of_fitsByte hi]
  | cprd xze yze xzo yzo p =>
    simp only [Instr.wellFormed, Bool.and_eq_true] at hi
    obtain ⟨⟨⟨hxze, hyze⟩, hxzo⟩, hyzo⟩ := hi
    rw [encode, decode, decodeCommand_cprd (cmdOp_commandWord ..), cmdD_commandWord, dXze_packCpr, dYze_packCpr, dXzo_packCpr,
      dYzo_packCpr, dParity_packCpr, mod_of_fitsCpr hxze, mod_of_fitsCpr hyze, mod_of_fitsCpr hxzo, mod_of_fitsCpr hyzo]
  | popf => exact decodeCommand_popf (cmdOp_commandWord 8 0 0 0 0)
  | wget k =>
    rw [encode, decode, decodeCommand_wget (cmdOp_commandWord ..), cmdD_commandWord, Machine.dIndex_ofNat, Nat.mod_mod,
      mod_of_fitsIndex hi]
  | rdsr n =>
    rw [encode, decode, decodeCommand_rdsr (cmdOp_commandWord ..), cmdA_commandWord, mod_of_fitsByte hi]
  | inByte d => rw [encode, decode, decodeBeat_setWidth]
  | inLast => rfl

/-! ### The bits a command reads (R83, R92) -/

/-- A command word as its five fields (R82). -/
theorem commandWord_fields (w : CommandWord) :
    commandWord (cmdOp w).toNat (cmdA w).toNat (cmdB w).toNat (cmdC w).toNat (cmdD w) = w := by
  simp only [commandWord, BitVec.ofNat_toNat, BitVec.setWidth_eq]
  rw [cmdOp, cmdA, cmdB, cmdC, cmdD, BitVec.extractLsb'_append_extractLsb'_eq_extractLsb' (show 136 = 128 + 8 from rfl),
    BitVec.extractLsb'_append_extractLsb'_eq_extractLsb' (show 128 = 120 + 8 from rfl),
    BitVec.extractLsb'_append_extractLsb'_eq_extractLsb' (show 120 = 112 + 8 from rfl),
    BitVec.extractLsb'_append_extractLsb'_eq_extractLsb' (show 112 = 0 + 112 from rfl)]
  exact BitVec.extractLsb'_eq_self

/-- What a command reads besides OP: which of the fields A, B and C, and how many of D's bits from the lowest up. -/
structure ReadFields where
  a : Bool
  b : Bool
  c : Bool
  d : Nat

/-- R83's table by opcode, with the packs of R106 and of WGET's index counted in bits. -/
def readFields : Nat → ReadFields
  | 1 => ⟨true, true, false, 64⟩
  | 2 => ⟨true, false, false, 64⟩
  | 3 => ⟨false, false, true, 112⟩
  | 4 => ⟨true, false, true, 112⟩
  | 5 => ⟨true, true, true, 112⟩
  | 6 => ⟨false, false, true, 112⟩
  | 7 => ⟨false, false, false, 69⟩
  | 8 => ⟨false, false, false, 0⟩
  | 9 => ⟨false, false, false, 16⟩
  | 10 => ⟨true, false, false, 0⟩
  | _ => ⟨false, false, false, 0⟩

/-- The word of opcode `op` with the fields of `w` that `f` marks, zeros in the others. -/
def keepFields (f : ReadFields) (op : Nat) (w : CommandWord) : CommandWord :=
  commandWord op (if f.a then (cmdA w).toNat else 0) (if f.b then (cmdB w).toNat else 0)
    (if f.c then (cmdC w).toNat else 0) (BitVec.ofNat 112 ((cmdD w).toNat % 2 ^ f.d))

theorem readMask_eq (op : Nat) :
    readMask op =
      commandWord 255 (if (readFields op).a then 255 else 0) (if (readFields op).b then 255 else 0)
        (if (readFields op).c then 255 else 0) (BitVec.ofNat 112 (2 ^ (readFields op).d - 1)) := by
  unfold readMask
  split
  case h_11 =>
    rw [readFields]
    · rfl
    all_goals assumption
  all_goals rfl

/-- The five fields of a conjunction of words. -/
theorem commandWord_and (op a b c op' a' b' c' : Nat) (d d' : Wide) :
    commandWord op a b c d &&& commandWord op' a' b' c' d' =
      commandWord (op &&& op') (a &&& a') (b &&& b') (c &&& c') (d &&& d') := by
  simp only [commandWord, BitVec.ofNat_and]
  exact BitVec.and_append.trans (congrArg (· ++ (d &&& d')) (BitVec.and_append.trans (congrArg (· ++ _)
    (BitVec.and_append.trans (congrArg (· ++ _) BitVec.and_append)))))

/-- A byte is kept whole or cleared. -/
theorem byte_and_mask (x : Byte) (a : Bool) :
    x.toNat &&& (if a then 255 else 0) = if a then x.toNat else 0 := by
  cases a with
  | false => exact Nat.and_zero _
  | true => exact (Nat.and_two_pow_sub_one_eq_mod x.toNat 8).trans (Nat.mod_eq_of_lt x.isLt)

/-- Of D the lowest bits are kept. -/
theorem wide_and_mask (x : Wide) (d : Nat) :
    x &&& BitVec.ofNat 112 (2 ^ d - 1) = BitVec.ofNat 112 (x.toNat % 2 ^ d) := by
  rw [← Nat.and_two_pow_sub_one_eq_mod, BitVec.ofNat_and, BitVec.ofNat_toNat, BitVec.setWidth_eq]

/-- R92: the mask of an opcode keeps OP and what R83 lets it read, and clears the rest. -/
theorem and_readMask (w : CommandWord) (op : Nat) :
    w &&& readMask op = keepFields (readFields op) (cmdOp w).toNat w := by
  have hop : (cmdOp w).toNat &&& 255 = (cmdOp w).toNat := byte_and_mask (cmdOp w) true
  calc w &&& readMask op
      = commandWord (cmdOp w).toNat (cmdA w).toNat (cmdB w).toNat (cmdC w).toNat (cmdD w) &&& readMask op := by
        rw [commandWord_fields]
    _ = keepFields (readFields op) (cmdOp w).toNat w := by
        rw [readMask_eq, commandWord_and, hop, byte_and_mask, byte_and_mask, byte_and_mask, wide_and_mask, keepFields]

/-- OP is read whatever the opcode. -/
theorem cmdOp_and_readMask (w : CommandWord) (op : Nat) : cmdOp (w &&& readMask op) = cmdOp w := by
  apply BitVec.eq_of_toNat_eq
  rw [and_readMask, keepFields, cmdOp_commandWord, Nat.mod_eq_of_lt (cmdOp w).isLt]

/-! ### What field D of an encoded command is (R83, R106) -/

section
variable (d : Wide)

theorem dValue_setWidth_eq_mod : (dValue d).setWidth 112 = BitVec.ofNat 112 (d.toNat % 2 ^ 64) := by
  rw [← BitVec.ofNat_toNat, dValue, BitVec.extractLsb'_toNat, Nat.shiftRight_zero]

theorem dIndex_eq_mod : dIndex d = d.toNat % 65536 := by
  rw [dIndex, BitVec.extractLsb'_toNat, Nat.shiftRight_zero]

theorem ofNat_toNat_mod : BitVec.ofNat 112 (d.toNat % 2 ^ 112) = d := by
  rw [Nat.mod_eq_of_lt d.isLt, BitVec.ofNat_toNat, BitVec.setWidth_eq]

/-- R106: packing the operands of a pack gives its 69 bits back. -/
theorem packCpr_fields :
    packCpr (dXze d) (dYze d) (dXzo d) (dYzo d) (dParity d) = BitVec.ofNat 112 (d.toNat % 2 ^ 69) := by
  have hparity : BitVec.ofBool (dParity d) = d.extractLsb' 68 1 := by
    ext k hk
    obtain rfl : k = 0 := by omega
    simp [dParity]
  rw [packCpr, hparity, dXze, dYze, dXzo, dYzo]
  simp only [BitVec.ofNat_toNat, BitVec.setWidth_eq]
  rw [BitVec.extractLsb'_append_extractLsb'_eq_extractLsb' (show 68 = 51 + 17 from rfl),
    BitVec.extractLsb'_append_extractLsb'_eq_extractLsb' (show 51 = 34 + 17 from rfl),
    BitVec.extractLsb'_append_extractLsb'_eq_extractLsb' (show 34 = 17 + 17 from rfl),
    BitVec.extractLsb'_append_extractLsb'_eq_extractLsb' (show 17 = 0 + 17 from rfl), ← BitVec.ofNat_toNat,
    BitVec.extractLsb'_toNat, Nat.shiftRight_zero]

end

/-- R95: encoding a decoded command keeps what it reads of the word. -/
theorem encode_of_decodeCommand {w : CommandWord} {i : Instr} (h : decodeCommand w = .ok i) :
    encode i = .command (w &&& readMask (cmdOp w).toNat) := by
  rw [and_readMask]
  refine decodeCommand_elim (P := fun op i => encode i = .command (keepFields (readFields op) op w)) h
    ?xtru ?tbit ?blen ?bat ?brng ?crc ?cprd ?popf ?wget ?rdsr
  case xtru => rw [encode, dValue_setWidth_eq_mod]; rfl
  case tbit => rw [encode, dValue_setWidth_eq_mod]; rfl
  case cprd => rw [encode, packCpr_fields]; rfl
  case popf => rw [encode, keepFields, readFields, pow_zero, Nat.mod_one]; rfl
  case wget => rw [encode, dIndex_eq_mod, Nat.mod_mod]; rfl
  case rdsr => rw [encode, keepFields, readFields, pow_zero, Nat.mod_one]; rfl
  all_goals -- D is read whole
    rw [encode, keepFields, readFields, ofNat_toNat_mod]; rfl

/-- Settles O2: the decoder reads each operand from a field of its width, and the encoder writes back just what was read. -/
theorem encodeOfDecodeKeepsReadBits : Obligations.EncodeOfDecodeKeepsReadBits := by
  refine ⟨fun e i h => ?wellFormed, fun c i h => encode_of_decodeCommand h⟩
  cases e with
  | command w => exact wellFormed_of_decodeCommand h
  | beat b =>
    obtain rfl : decodeBeat b = i := Except.ok.inj h
    exact wellFormed_decodeBeat b

/-- R92: the bits that a command does not read do not count in decoding. -/
theorem decodeCommand_and_readMask (w : CommandWord) : decodeCommand (w &&& readMask (cmdOp w).toNat) = decodeCommand w := by
  rcases hd : decodeCommand w with err | i
  · have hreserved := reserved_of_decodeCommand_error hd
    rw [decodeCommand_of_reserved (by rwa [cmdOp_and_readMask]), cmdOp_and_readMask, ← hd,
      decodeCommand_of_reserved hreserved]
  · have hback := decodeOfEncodeIsIdentity i (wellFormed_of_decodeCommand hd)
    rwa [encode_of_decodeCommand hd] at hback

end Sys2Proof
end

section
/-! R91 and R92 at the machine: what a word's reserved opcode, its unread bits and the unread bytes of a buffer do
(30_encoding.md), and the fields of a response word (R84, R290). -/

namespace Sys2Proof.Machine

/-! ### Buffers that agree below N (R92) -/

section
variable {n : Nat} {buf buf' : Wide} (h : ∀ j : Nat, j < n → byteAt buf j = byteAt buf' j)
include h

theorem bufBytes_congr : bufBytes n buf = bufBytes n buf' :=
  List.map_congr_left fun j hj => h j (List.mem_range.1 hj)

theorem memRead_congr {addr k : Nat} (hk : addr + k ≤ n) : memRead buf addr k = memRead buf' addr k := by
  have hbytes : ((List.range k).map fun j => byteAt buf (addr + j)) = (List.range k).map fun j => byteAt buf' (addr + j) :=
    List.map_congr_left fun j hj => h (addr + j) (by have := List.mem_range.1 hj; omega)
  rw [memRead, memRead, hbytes]

theorem execBat_congr (index : Nat) (s : State) : execBat index n buf s = execBat index n buf' s := by
  unfold execBat
  split
  · rename_i hvalid
    rw [h index (of_decide_eq_true (Bool.and_eq_true_iff.1 hvalid).2)]
  · rfl

theorem execBrng_congr (lower upper : Nat) (s : State) : execBrng lower upper n buf s = execBrng lower upper n buf' s := by
  unfold execBrng
  split
  · rename_i hvalid
    simp only [validRange, Bool.and_eq_true, decide_eq_true_eq] at hvalid
    obtain ⟨_, ⟨hle, hupper⟩, _⟩ := hvalid
    rw [memRead_congr h (by omega)]
  · rfl

theorem execCrc_congr (s : State) : execCrc n buf s = execCrc n buf' s := by
  rw [execCrc, execCrc, bufBytes_congr h]

end

/-- Settles O3: masked-equal words have one opcode, and decoding sees no more of either than the mask keeps. -/
theorem ignoredFieldsHaveNoEffect : Obligations.IgnoredFieldsHaveNoEffect := by
  refine ⟨fun c c' h => ?words, fun n buf buf' s h => ?bytes⟩
  case words =>
    have hop : cmdOp c = cmdOp c' := by
      rw [← cmdOp_and_readMask c (cmdOp c).toNat, h, cmdOp_and_readMask]
    rw [← decodeCommand_and_readMask c, h, hop, decodeCommand_and_readMask]
  case bytes =>
    exact ⟨rfl, fun index => execBat_congr h index s, fun lower upper => execBrng_congr h lower upper s, execCrc_congr h s⟩

/-! ### Reserved opcodes (R91) -/

/-- R91: HOST takes the command, refuses it, and looks at nothing else. -/
theorem hostTurn_of_reserved {s : State} {c : CommandWord} {cs : List CommandWord} (hc : s.cmds = c :: cs)
    (h : (cmdOp c).toNat = 0 ∨ 11 ≤ (cmdOp c).toNat) : hostTurn s = .next (raise .errIllegalOp { s with cmds := cs }) := by
  simp [hostTurn, fetchCommand, hc, decodeCommand_of_reserved h]

/-- Settles O6: decoding fails exactly on the reserved opcodes, and HOST refuses what fails. -/
theorem reservedOpcodeAnswersIllegalOp : Obligations.ReservedOpcodeAnswersIllegalOp := by
  refine ⟨fun c => ⟨fun ⟨i, hi⟩ => ?selects, fun hop => ?selected⟩, fun s c cs ts ht hc hreserved => ?answer⟩
  case selects =>
    by_contra hop
    rw [decodeCommand_of_reserved (by omega)] at hi
    cases hi
  case selected =>
    rcases hd : decodeCommand c with err | i
    · have hreserved := reserved_of_decodeCommand_error hd
      omega
    · exact ⟨i, rfl⟩
  case answer =>
    rw [step_of_turns_cons ht]
    exact hostTurn_of_reserved hc hreserved

/-! ### Words written out -/

/-- Settles O4: each word's opcode selects the operation, and its fields are the operands. -/
theorem sampleWordsDecode : Obligations.SampleWordsDecode :=
  ⟨decodeCommand_xtru rfl, decodeCommand_brng rfl, decodeCommand_cprd rfl, decodeCommand_wget rfl, rfl, rfl⟩

/-! ### The response word (R84, R290) -/

/-- The status that a code stands for (R290); no other code is produced, and each of the rest is read as OK here. -/
def statusOfCode (code : Byte) : Status :=
  if code = 0x01 then .errIllegalOp
  else if code = 0x02 then .errArg
  else if code = 0x03 then .errEmpty
  else if code = 0x04 then .errNotAvail
  else if code = 0x10 then .cprBand
  else if code = 0x11 then .cprLat
  else .ok

theorem statusOfCode_statusCode (status : Status) : statusOfCode (statusCode status) = status := by
  cases status <;> rfl

/-- Settles O45: the word is its three fields side by side, and a code tells its status. -/
theorem responseWordLayout : Obligations.ResponseWordLayout := by
  refine ⟨fun r => ⟨?status, ?t, ?r⟩, rfl, rfl, rfl, rfl, rfl, rfl, rfl, fun a b h => ?distinct⟩
  case status =>
    exact (BitVec.extractLsb'_append_eq_of_le (by decide)).trans BitVec.extractLsb'_append_eq_left
  case t =>
    exact (BitVec.extractLsb'_append_eq_of_le (by decide)).trans BitVec.extractLsb'_append_eq_right
  case r => exact BitVec.extractLsb'_append_eq_right
  case distinct => rw [← statusOfCode_statusCode a, h, statusOfCode_statusCode]

end Sys2Proof.Machine
end

section
/-! Command lines and pseudo-commands (30_encoding.md R95, R97): what a command line whose numbers fit does to the bench,
line by line of R95's table as far as R97's expansions use it, and the fields of a frame that the expansions answer. -/

namespace Sys2Proof.Machine

/-! ### The bytes of a buffer as a number (R53, R56) -/

/-- R56: one more byte comes below those read before it. -/
theorem memRead_succ (buf : Wide) (addr n : Nat) :
    memRead buf addr (n + 1) = memRead buf addr n * 256 + (byteAt buf (addr + n)).toNat := by
  rw [memRead, List.range_succ, List.map_append, bigEndian_append, ← memRead]
  simp [bigEndian]

/-- A number in base 256, one more digit read. -/
theorem div_mod_succ_byte (x m n : Nat) : x / (256 * m) % 2 ^ (8 * n) * 256 + x / m % 256 = x / m % 2 ^ (8 * (n + 1)) := by
  rw [show (256 : Nat) = 2 ^ 8 from rfl, mul_comm (2 ^ 8) m, ← Nat.div_div_eq_div_mul, Nat.mul_succ, add_comm (8 * n) 8,
    pow_add, Nat.mod_mul]
  ring

/-- R53, R56: a range of bytes is the number that its bits of D are. -/
theorem memRead_eq_div_mod (buf : Wide) {addr n : Nat} (h : addr + n ≤ 14) :
    memRead buf addr n = buf.toNat / 2 ^ (112 - 8 * (addr + n)) % 2 ^ (8 * n) := by
  induction n with
  | zero => simp [memRead, Nat.mod_one]
  | succ n ih =>
    have hpow : 2 ^ (112 - 8 * (addr + n)) = 256 * 2 ^ (104 - 8 * (addr + n)) := by
      rw [show 112 - 8 * (addr + n) = 8 + (104 - 8 * (addr + n)) by omega, pow_add]
      norm_num
    rw [memRead_succ, ih (by omega), byteAt_toNat, hpow, div_mod_succ_byte]
    congr 3
    omega

/-! ### The commands within their limits -/

/-- R212: XTRU answers the field. -/
theorem exec_xtru_of_valid {start size : Nat} (h : validField start size = true) (value : Word64) (s : State) :
    exec (.xtru start size value) s = .next (respond 0 (BitVec.ofNat 112 (extractField value start size).toNat) s) := by
  rw [exec, execXtru, if_pos h, BitVec.ofNat_toNat]

/-- R213: TBIT answers the bit. -/
theorem exec_tbit_of_valid {index : Nat} (h : index < 64) (value : Word64) (s : State) :
    exec (.tbit index value) s = .next (respond 0 (BitVec.ofNat 112 (value.getLsbD index).toNat) s) := by
  rw [exec, execTbit, if_pos h, ← BitVec.toNat_ofBool, BitVec.ofNat_toNat]

/-- R197: CRC answers the CRC-24 of the bytes. -/
theorem exec_crc_of_valid {n : Nat} (h : n ≤ 14) (buf : Wide) (s : State) :
    exec (.crc n buf) s = .next (respond 0 (BitVec.ofNat 112 (crc24 (bufBytes n buf)).toNat) s) := by
  rw [exec, execCrc, if_pos (by simpa [validLength] using h), BitVec.ofNat_toNat]

/-! ### One command line -/

/-- The bench after `steps` steps that end with the answer OK, T = 0 and R the number `v`. -/
def Bench.answered (b : Bench) (steps v : Nat) : Bench :=
  { b with machine := { b.machine with tick := b.machine.tick + steps, rsp := some ⟨.ok, 0, BitVec.ofNat 112 v⟩ } }

theorem answered_answered (b : Bench) (j k u v : Nat) : (b.answered j u).answered k v = b.answered (j + k) v := by
  simp [Bench.answered, Nat.add_assoc]

/-- `$` after an answer is its lowest 64 bits (R95). -/
theorem value_dollar_answered (b : Bench) (steps : Nat) {v : Nat} (h : v < 2 ^ 64) :
    NumberOperand.dollar.value (b.answered steps v).tokens = some v := by
  have hlow : (BitVec.extractLsb' 0 64 (BitVec.ofNat 112 v)).toNat = v := by
    rw [BitVec.extractLsb'_toNat, BitVec.toNat_ofNat, Nat.shiftRight_zero]
    omega
  simp only [Bench.answered, value_dollar, tokens_dollar, Option.map_some, hlow]

/-- Numbers that fit their fields (R82). -/
theorem fit_of_lt {op a b c d : Nat} (hop : op < 256) (ha : a < 256) (hb : b < 256) (hc : c < 256) (hd : d < 2 ^ 112) :
    CommandFields.fit ⟨op, a, b, c, d⟩ = true :=
  (fit_iff _).2 ⟨hop, ha, hb, hc, hd⟩

/-- A line whose numbers fit, and whose word decodes to an operation that answers OK and is no POPF, is one step with that
answer. -/
theorem runCommand_of_fields {c : Command} {b : Bench} {f : CommandFields} {i : Instr} {v : Nat}
    (hf : c.fields b.tokens = some f) (hfit : f.fit = true) (hd : decodeCommand f.word = .ok i) (hi : i ≠ .popf)
    (hx : ∀ s, exec i s = .next (respond 0 (BitVec.ofNat 112 v) s)) : runCommand c b = some (b.answered 1 v) := by
  have hword : c.assemble b.tokens = some f.word := (assemble_eq_some_iff _ _ _).2 ⟨f, hf, hfit, rfl⟩
  have hpopf : decodeCommand f.word ≠ .ok .popf := by
    rw [hd]
    exact fun he => hi (Except.ok.inj he)
  rw [runCommand, hword]
  simp only [presentWord_of_decodeCommand hd, hx, nextState_next, Option.map_some, poppedFrame_of_not_popf hpopf]
  rfl

section
variable {b : Bench} {buf : BufferOperand} {n : Nat} {frame : Wide}
  (hbuf : buf.field b.tokens = some (n, frame)) (hn : n ≤ 14)
include hbuf hn

/-- `BAT buf, index` on a buffer long enough. -/
theorem runCommand_bat {index : Nat} (hi : index < n) :
    runCommand (.bat buf (.lit index)) b = some (b.answered 1 (byteAt frame index).toNat) := by
  have hfit : CommandFields.fit ⟨4, index, 0, n, frame.toNat⟩ = true :=
    fit_of_lt (by decide) (by omega) (by omega) (by omega) frame.isLt
  obtain ⟨hop, ha, -, hc, hd⟩ := word_fields hfit
  refine runCommand_of_fields (by simp [Command.fields, hbuf]) hfit (decodeCommand_bat hop) nofun ?_
  rw [ha, hc, hd, BitVec.ofNat_toNat, BitVec.setWidth_eq]
  exact exec_bat_of_valid hn hi frame

/-- `BRNG buf, lower, upper` on a range that the buffer has. -/
theorem runCommand_brng {lower upper : Nat} (hlu : lower ≤ upper) (hun : upper ≤ n) (hspan : upper - lower ≤ 7) :
    runCommand (.brng buf (.lit lower) (.lit upper)) b = some (b.answered 1 (memRead frame lower (upper - lower))) := by
  have hfit : CommandFields.fit ⟨5, lower, upper, n, frame.toNat⟩ = true :=
    fit_of_lt (by decide) (by omega) (by omega) (by omega) frame.isLt
  obtain ⟨hop, ha, hb, hc, hd⟩ := word_fields hfit
  refine runCommand_of_fields (by simp [Command.fields, hbuf]) hfit (decodeCommand_brng hop) nofun ?_
  rw [ha, hb, hc, hd, BitVec.ofNat_toNat, BitVec.setWidth_eq]
  exact exec_brng_of_valid hn hlu hun hspan frame

/-- `CRC buf`. -/
theorem runCommand_crc : runCommand (.crc buf) b = some (b.answered 1 (crc24 (bufBytes n frame)).toNat) := by
  have hfit : CommandFields.fit ⟨6, 0, 0, n, frame.toNat⟩ = true :=
    fit_of_lt (by decide) (by omega) (by omega) (by omega) frame.isLt
  obtain ⟨hop, -, -, hc, hd⟩ := word_fields hfit
  refine runCommand_of_fields (by simp [Command.fields, hbuf]) hfit (decodeCommand_crc hop) nofun ?_
  rw [hc, hd, BitVec.ofNat_toNat, BitVec.setWidth_eq]
  exact exec_crc_of_valid hn frame

end

section
variable {b : Bench} {x : NumberOperand} {v : Nat} (hx : x.value b.tokens = some v) (hv : v < 2 ^ 112)
include hx hv

/-- `XTRU x, start, size` on a valid field of the lowest 64 bits of the number. -/
theorem runCommand_xtru {start size : Nat} (h : validField start size = true) :
    runCommand (.xtru x (.lit start) (.lit size)) b =
      some (b.answered 1 (extractField (BitVec.ofNat 64 v) start size).toNat) := by
  have hfit : CommandFields.fit ⟨1, start, size, 0, v⟩ = true := by
    simp only [validField, Bool.and_eq_true, decide_eq_true_eq, Config.maxFieldBits, Config.wordBits] at h
    exact fit_of_lt (by decide) (by omega) (by omega) (by decide) hv
  obtain ⟨hop, ha, hb, -, hd⟩ := word_fields hfit
  refine runCommand_of_fields (by simp [Command.fields, hx]) hfit (decodeCommand_xtru hop) nofun ?_
  rw [ha, hb, hd, dValue_ofNat]
  exact exec_xtru_of_valid h _

/-- `TBIT x, index` on a bit of the lowest 64 of the number. -/
theorem runCommand_tbit {index : Nat} (h : index < 64) :
    runCommand (.tbit x (.lit index)) b = some (b.answered 1 ((BitVec.ofNat 64 v).getLsbD index).toNat) := by
  have hfit : CommandFields.fit ⟨2, index, 0, 0, v⟩ = true := fit_of_lt (by decide) (by omega) (by decide) (by decide) hv
  obtain ⟨hop, ha, -, -, hd⟩ := word_fields hfit
  refine runCommand_of_fields (by simp [Command.fields, hx]) hfit (decodeCommand_tbit hop) nofun ?_
  rw [ha, hd, dValue_ofNat]
  exact exec_tbit_of_valid h _

end

/-! ### The expansions (R97) -/

theorem runCommands_cons {c : Command} {b b' : Bench} (h : runCommand c b = some b') (rest : List Command) :
    runCommands (c :: rest) b = runCommands rest b' := by
  rw [runCommands, h]

/-- A field of the number that the line before has answered. -/
theorem runCommands_then_xtru {c : Command} {b : Bench} {u start size : Nat} (hc : runCommand c b = some (b.answered 1 u))
    (hu : u < 2 ^ 64) (h : validField start size = true) :
    runCommands [c, .xtru .dollar (.lit start) (.lit size)] b = some (b.answered 2 (u / 2 ^ start % 2 ^ size)) := by
  have hfield : (extractField (BitVec.ofNat 64 u) start size).toNat = u / 2 ^ start % 2 ^ size := by
    rw [extractField, BitVec.extractLsb'_toNat, BitVec.toNat_ofNat, Nat.mod_eq_of_lt hu, Nat.shiftRight_eq_div_pow]
  have hxtru := runCommand_xtru (value_dollar_answered b 1 hu) (hu.trans (by decide)) h
  rw [runCommands_cons hc, runCommands_cons hxtru, runCommands, answered_answered, hfield]

/-- Settles O50, line by line of R97: one command line, or two of which the second reads `$`. -/
theorem pseudoCommandsAnswerTheFields : Obligations.PseudoCommandsAnswerTheFields := by
  intro frame v buf x b hbuf hx hv m answer
  have hframe := frame.isLt
  have hbyte : runCommand (.bat buf (.lit 0)) b = some (b.answered 1 (frame.toNat / 2 ^ 104)) := by
    rw [runCommand_bat hbuf le_rfl (by decide), byteAt_toNat, Nat.mod_eq_of_lt (by omega)]
  have hrange {lower upper : Nat} (hlu : lower ≤ upper) (hu : upper ≤ 14) (hspan : upper - lower ≤ 7) :
      runCommand (.brng buf (.lit lower) (.lit upper)) b =
        some (b.answered 1 (frame.toNat / 2 ^ (112 - 8 * upper) % 2 ^ (8 * (upper - lower)))) := by
    rw [runCommand_brng hbuf le_rfl hlu hu hspan, memRead_eq_div_mod frame (by omega), Nat.add_sub_cancel' hlu]
  have hme := hrange (lower := 4) (upper := 11) (by decide) (by decide) (by decide)
  refine ⟨?df, ?ca, ?icao, ?me, ?parityField, ?tc, ?fvalid, ?cprx, ?cpry, ?cprf, ?altf⟩
  case df =>
    have h := runCommands_then_xtru (start := 3) (size := 5) hbyte (by omega) (by decide)
    rwa [show frame.toNat / 2 ^ 104 / 2 ^ 3 % 2 ^ 5 = frame.toNat / 2 ^ 107 by omega] at h
  case ca =>
    have h := runCommands_then_xtru (start := 0) (size := 3) hbyte (by omega) (by decide)
    rwa [pow_zero, Nat.div_one] at h
  case icao => exact runCommands_cons (hrange (lower := 1) (upper := 4) (by decide) (by decide) (by decide)) []
  case me => exact runCommands_cons hme []
  case parityField =>
    have h := runCommands_cons (hrange (lower := 11) (upper := 14) (by decide) (by decide) (by decide)) []
    rwa [show 112 - 8 * 14 = 0 by decide, pow_zero, Nat.div_one] at h
  case tc =>
    have h := runCommands_then_xtru (start := 51) (size := 5) hme (by omega) (by decide)
    rwa [show frame.toNat / 2 ^ (112 - 8 * 11) % 2 ^ (8 * (11 - 4)) / 2 ^ 51 % 2 ^ 5 = frame.toNat / 2 ^ 75 % 32 by omega] at h
  case fvalid => exact runCommands_cons (runCommand_crc hbuf le_rfl) []
  case cprx => exact runCommands_cons (runCommand_xtru hx hv (start := 0) (size := 17) (by decide)) []
  case cpry => exact runCommands_cons (runCommand_xtru hx hv (start := 17) (size := 17) (by decide)) []
  case cprf => exact runCommands_cons (runCommand_tbit hx hv (index := 34) (by decide)) []
  case altf => exact runCommands_cons (runCommand_xtru hx hv (start := 36) (size := 12) (by decide)) []

end Sys2Proof.Machine
end

section
/-! The stream directives (30_encoding.md R96): what a quiet step leaves alone, what `.feed` has done after any number of quiet
steps, and `.last` and `.settle`. -/

namespace Sys2Proof.Machine

/-! ### What COR's turn leaves as it is, and what the tracking sees of a state -/

section
variable (depth : FifoDepth) (s : State)

@[simp] theorem corTurnAt_toInputs : (corTurnAt depth s).toInputs = s.toInputs := by
  obtain ⟨a, x⟩ := s
  obtain ⟨b, hb, -⟩ := corTurnAt_inputs depth a x x
  rw [hb]

@[simp] theorem corTurnAt_rsp : (corTurnAt depth s).rsp = s.rsp := by
  rcases corTurnAt_cases depth s with ⟨_, h⟩ | ⟨_, _, h⟩ | ⟨_, _, _, h⟩ <;> simp [h]

@[simp] theorem corTurnAt_bph : (corTurnAt depth s).bph = s.bph := by
  rcases corTurnAt_cases depth s with ⟨_, h⟩ | ⟨_, _, h⟩ | ⟨_, _, _, h⟩ <;> simp [h]

@[simp] theorem corTurnAt_sph : (corTurnAt depth s).sph = s.sph := by
  rcases corTurnAt_cases depth s with ⟨_, h⟩ | ⟨_, _, h⟩ | ⟨_, _, _, h⟩ <;> simp [h]

theorem corTurnAt_length_le : (corTurnAt depth s).w.length ≤ s.w.length := by
  rcases corTurnAt_cases depth s with ⟨_, h⟩ | ⟨_, _, h⟩ | ⟨_, _, _, h⟩ <;> simp [h]

end

/-- The inputs are no part of what keeps step with R174's loop (R39). -/
theorem PipelineTracks.of_toAjrx {bytes : List Byte} {popped : List FrameEntry} {s t : State}
    (h : PipelineTracks bytes popped s) (ha : t.toAjrx = s.toAjrx) : PipelineTracks bytes popped t :=
  h.of_moved (h.window.of_unchanged (by rw [ha]) (by rw [ha]) (by rw [ha]) (by rw [ha]) (by rw [ha]) (by rw [ha]))
    (by rw [ha]) (by rw [ha]) (by rw [ha])

/-! ### How far the stream is, in bytes -/

/-- Four for each power value in the window and one for each byte of the pair under way (R23, R24, R61). -/
def streamFill (s : State) : Nat := 4 * s.w.length + (2 * s.sph.toNat + s.bph.toNat)

theorem streamFill_le (s : State) : streamFill s ≤ 4 * s.w.length + 3 := by
  have hs := Bool.toNat_le s.sph
  have hb := Bool.toNat_le s.bph
  unfold streamFill
  omega

/-- R121, R123, R125: an accepted byte is one more. -/
theorem streamFill_acceptByte (d : Byte) (s : State) : streamFill (acceptByte d s) = streamFill s + 1 := by
  unfold streamFill
  cases hb : s.bph with
  | false =>
    rw [acceptByte_low hb]
    rfl
  | true =>
    rw [acceptByte_high hb, decodeAndFilter_w, decodeAndFilter_sph, decodeAndFilter_bph]
    cases hs : s.sph with
    | false => simp
    | true =>
      simp only [if_true, List.length_append, List.length_singleton, Bool.not_true, Bool.toNat_true, Bool.toNat_false]
      omega

theorem streamFill_corTurnAt_le (depth : FifoDepth) (s : State) : streamFill (corTurnAt depth s) ≤ streamFill s := by
  have hlen := corTurnAt_length_le depth s
  unfold streamFill
  rw [corTurnAt_sph, corTurnAt_bph]
  omega

/-! ### `.feed` -/

/-- The beats of a byte stream (R81). -/
def dataBeats (bytes : List Byte) : List Beat := bytes.map fun d => d.setWidth 9

/-- Where a `.feed` of `bytes` from `s` stands after its first `k` bytes: the rest on offer, the machine in step with R174's
loop over those taken, no more than them in the window, and the rest of the machine as in `s`. -/
structure FeedStands (bytes : List Byte) (s : State) (k : Nat) (t : State) : Prop where
  bound : k ≤ bytes.length
  offered : t.beats = dataBeats (bytes.drop k)
  eos : t.eos = s.eos
  rsp : t.rsp = s.rsp
  cmds : t.cmds = s.cmds
  turns : t.turns = s.turns
  fill : streamFill t ≤ streamFill s + k
  tracks : ∀ (taken : List Byte) (popped : List FrameEntry),
    PipelineTracks taken popped s → PipelineTracks (taken ++ bytes.take k) popped t

/-- The bytes are on offer and none is taken. -/
theorem feedStands_start (bytes : List Byte) (s : State) : FeedStands bytes s 0 { s with beats := dataBeats bytes } where
  bound := Nat.zero_le _
  offered := rfl
  eos := rfl
  rsp := rfl
  cmds := rfl
  turns := rfl
  fill := le_rfl
  tracks := fun taken popped h => by
    rw [List.take_zero, List.append_nil]
    exact h.of_toAjrx rfl

/-- COR's step takes no byte. -/
theorem FeedStands.of_corTurn {bytes : List Byte} {s t : State} {k : Nat} (h : FeedStands bytes s k t) (depth : FifoDepth) :
    FeedStands bytes s k (corTurnAt depth { t with tick := t.tick + 1 }) where
  bound := h.bound
  offered := by rw [corTurnAt_toInputs]; exact h.offered
  eos := by rw [corTurnAt_eos]; exact h.eos
  rsp := by rw [corTurnAt_rsp]; exact h.rsp
  cmds := by rw [corTurnAt_toInputs]; exact h.cmds
  turns := by rw [corTurnAt_toInputs]; exact h.turns
  fill := (streamFill_corTurnAt_le depth _).trans h.fill
  tracks := fun taken popped hs =>
    PipelineTracks.of_corTurn ((h.tracks taken popped hs).of_toAjrx (t := { t with tick := t.tick + 1 }) rfl) depth

/-- A beat first on offer is the next byte of the stream. -/
theorem FeedStands.next_byte {bytes : List Byte} {s t : State} {k : Nat} (h : FeedStands bytes s k t) {b : Beat}
    {bs : List Beat} (hb : t.beats = b :: bs) :
    ∃ d : Byte, b = d.setWidth 9 ∧ bs = dataBeats (bytes.drop (k + 1)) ∧ k < bytes.length ∧
      bytes.take (k + 1) = bytes.take k ++ [d] := by
  rw [h.offered] at hb
  have hk : k < bytes.length := by
    by_contra hk
    rw [List.drop_eq_nil_of_le (by omega)] at hb
    cases hb
  rw [List.drop_eq_getElem_cons hk] at hb
  injection hb with hfirst hrest
  exact ⟨bytes[k], hfirst.symm, hrest.symm, hk, List.take_succ_eq_append_getElem hk⟩

/-- SRC's step takes the next byte. -/
theorem FeedStands.of_acceptByte {bytes : List Byte} {s t : State} {k : Nat} (h : FeedStands bytes s k t) {d : Byte}
    (hk : k < bytes.length) (hd : bytes.take (k + 1) = bytes.take k ++ [d]) :
    FeedStands bytes s (k + 1)
      (acceptByte d { t with beats := dataBeats (bytes.drop (k + 1)), tick := t.tick + 1 }) where
  bound := hk
  offered := acceptByte_beats ..
  eos := (acceptByte_eos ..).trans h.eos
  rsp := (acceptByte_rsp ..).trans h.rsp
  cmds := (acceptByte_cmds ..).trans h.cmds
  turns := (acceptByte_turns ..).trans h.turns
  fill := (streamFill_acceptByte ..).trans_le (Nat.succ_le_succ h.fill)
  tracks := fun taken popped hs => by
    have hoffer : PipelineTracks (taken ++ bytes.take k) popped
        { t with beats := dataBeats (bytes.drop (k + 1)), tick := t.tick + 1 } := (h.tracks taken popped hs).of_toAjrx rfl
    rw [hd, ← List.append_assoc]
    exact hoffer.of_acceptByte d

/-- R70, R96: every quiet step of a `.feed` is COR's, or takes the next byte. -/
theorem FeedStands.of_quietStep {bytes : List Byte} {s t u : State} {k : Nat} (h : FeedStands bytes s k t)
    (hq : quietStep t = some u) : ∃ j, FeedStands bytes s j u := by
  rcases quietStep_cases hq with ⟨_, rfl⟩ | ⟨_, hr, b, bs, hb, hx⟩
  · exact ⟨k, h.of_corTurn _⟩
  · obtain ⟨d, rfl, rfl, hk, hd⟩ := h.next_byte hb
    have hready : srcReady { t with beats := dataBeats (bytes.drop (k + 1)), tick := t.tick + 1 } = true := hr
    rw [decodeBeat_setWidth, exec, execInByte_of_ready hready] at hx
    injection hx with hx
    exact ⟨k + 1, hx ▸ h.of_acceptByte hk hd⟩

/-- R96: a `.feed` ends after some number of its bytes, with all of them taken or with nothing left that SRC or COR could do. -/
theorem feed_stands (bytes : List Byte) {s : State} (hs : s.beats = []) :
    ∃ k, FeedStands bytes s k (feed bytes s) ∧ (k < bytes.length → quietStep (feed bytes s) = none) := by
  have hstart : ({ s with beats := s.beats ++ dataBeats bytes } : State) = { s with beats := dataBeats bytes } := by
    rw [hs, List.nil_append]
  have hfeed : feed bytes s =
      runWhile inValid (quietBound { s with beats := dataBeats bytes }) { s with beats := dataBeats bytes } := by
    rw [← hstart]
    rfl
  rw [hfeed]
  obtain ⟨k, hk⟩ := runWhile_keeps (P := fun t => ∃ k, FeedStands bytes s k t) inValid
    (fun t u ⟨_, ht⟩ _ hq => ht.of_quietStep hq) _ _ ⟨0, feedStands_start bytes s⟩
  refine ⟨k, hk, fun hlt => (runWhile_stops inValid _ _ le_rfl).resolve_left fun hdone => ?_⟩
  rw [inValid, hk.offered] at hdone
  have hall : bytes.length ≤ k := by simpa [dataBeats] using hdone
  omega

/-- R96: a window that the bytes cannot fill holds SRC at none of them. -/
theorem FeedStands.all_taken {bytes : List Byte} {s t : State} {k : Nat} (h : FeedStands bytes s k t)
    (hend : k < bytes.length → quietStep t = none) (heos : s.eos = false)
    (hroom : s.w.length + (bytes.length + 3) / 4 < 1200) : k = bytes.length := by
  by_contra hne
  have hbound := h.bound
  have hk : k < bytes.length := by omega
  have hfill := h.fill
  have hstart := streamFill_le s
  have hready : srcReady t = true := by
    refine (srcReady_iff t).2 ⟨h.eos.trans heos, ?_⟩
    unfold streamFill at hfill
    unfold streamFill at hstart
    omega
  have hoffer : t.beats ≠ [] := by simp [h.offered, dataBeats, hk]
  obtain ⟨_, hheld⟩ := (quietStep_eq_none_iff t).1 (hend hk)
  rcases hheld with hheld | hempty
  · rw [hready] at hheld
    cases hheld
  · exact hoffer hempty

/-! ### `.last` and `.settle` -/

/-- R128: where SRC is enabled `.last` is its one step. -/
theorem feedLast_of_ready {s : State} (hs : s.beats = []) (hr : srcReady s = true) :
    feedLast s = { s with eos := true, tick := s.tick + 1 } := by
  have hready : srcReady { s with beats := [0x100] } = true := hr
  have hlast : decodeBeat 0x100 = .inLast := rfl
  have hq : quietStep { s with beats := [0x100] } = some { s with beats := [], eos := true, tick := s.tick + 1 } := by
    rw [quietStep_of_srcReady rfl hready, hlast, exec, execInLast_of_ready (by exact hr), nextState_next]
  have hrun (fuel : Nat) : runWhile inValid (fuel + 2) { s with beats := [0x100] } =
      { s with beats := [], eos := true, tick := s.tick + 1 } := by
    have hmore : inValid { s with beats := [0x100] } = true := rfl
    rw [runWhile, if_pos hmore, hq]
    exact if_neg (by simp [inValid])
  have hbound : quietBound { s with beats := [0x100] } = s.w.length + 2 := Nat.add_comm ..
  simp only [feedLast, presentBeats, hs, List.nil_append, hbound, hrun]

theorem quietStep_settle (s : State) : quietStep (settle s) = none :=
  (runWhile_stops (fun _ => true) _ s le_rfl).resolve_left nofun

/-- Settles O60: `.feed` by what every quiet step keeps, `.last` by its one step, `.settle` by the bound on quiet steps. -/
theorem streamDirectivesRunTheStream : Obligations.StreamDirectivesRunTheStream := by
  refine ⟨fun bytes s hs => ?feed, fun s hs heos hroom => ?last, quietStep_settle⟩
  case feed =>
    obtain ⟨k, hk, hend⟩ := feed_stands bytes hs
    exact ⟨⟨k, hk.bound, hk.offered, hend, hk.all_taken hend, hk.tracks⟩, hk.eos, hk.rsp, hk.cmds, hk.turns⟩
  case last => exact feedLast_of_ready hs ((srcReady_iff s).2 ⟨heos, hroom⟩)

end Sys2Proof.Machine
end

section
/-! The two steps of SRC (40_sample_power.md): where it is held, what a beat decodes to, the sample word and its power value, and
the statements about IN.BYTE, IN.LAST and the filter's arithmetic that follow. -/

namespace Sys2Proof.Machine

/-! ### Where SRC is held -/

theorem srcReady_eq_false_iff (s : State) : srcReady s = false ↔ s.eos = true ∨ 1200 ≤ s.w.length := by
  rw [← Bool.not_eq_true, srcReady_iff, not_and_or, Bool.not_eq_false, not_lt]

/-- R121, R128: a beat that reaches a held SRC is no step of it. -/
theorem exec_decodeBeat_of_held {s : State} (h : srcReady s = false) (b : Beat) : exec (decodeBeat b) s = .next s := by
  unfold decodeBeat
  split
  · exact execInLast_of_held h
  · exact execInByte_of_held h _

/-- Settles O35: the port keeps the beat of a held SRC, and the operation that the beat stands for changes nothing. -/
theorem heldBeatChangesNothing : Obligations.HeldBeatChangesNothing := by
  intro s b bs ts hheld ht hb
  have hr : srcReady s = false := (srcReady_eq_false_iff s).2 hheld
  have hoffer : { s with turns := ts, tick := s.tick + 1, beats := b :: bs } = { s with turns := ts, tick := s.tick + 1 } := by
    rw [← hb]
  calc step s = exec (decodeBeat b) { s with turns := ts, tick := s.tick + 1, beats := if srcReady s then bs else b :: bs } :=
        stepRunsTheDecodedOperation.2 s b bs ts ht hb
    _ = exec (decodeBeat b) { s with turns := ts, tick := s.tick + 1 } := by
        rw [hr, if_neg Bool.false_ne_true, hoffer]
    _ = .next { s with turns := ts, tick := s.tick + 1 } := exec_decodeBeat_of_held (by exact hr) b

/-! ### IN.LAST -/

theorem doneFlag_iff (s : State) : doneFlag s = true ↔ s.eos = true ∧ s.w.length < 1200 := by
  simp [doneFlag, count, Config.windowSize]

/-- Settles O34: `done` needs EOS and a window short of full, SRC needs EOS clear and COR a full window. -/
theorem inLastEndsTheStream : Obligations.InLastEndsTheStream := by
  refine ⟨fun b h8 => decodeBeat_eq_inLast h8, fun s => ⟨fun hheld => ?held, fun heos hroom => ⟨?taken, ?done, ?src, ?cor⟩⟩⟩
  case held => exact execInLast_of_held ((srcReady_eq_false_iff s).2 hheld)
  case taken => exact execInLast_of_ready ((srcReady_iff s).2 ⟨heos, hroom⟩)
  case done => exact (doneFlag_iff _).2 ⟨rfl, hroom⟩
  case src => exact (srcReady_eq_false_iff _).2 (.inl rfl)
  case cor => exact fun depth => not_corReadyAt_of_srcReady (s := s) ((srcReady_iff s).2 ⟨heos, hroom⟩) depth

/-! ### The filter's arithmetic -/

/-- Settles O33: a sample is a 12-bit number, each sum is four samples, and the two squares fit 27 bits. -/
theorem filterArithmeticIsExact : Obligations.FilterArithmeticIsExact := by
  refine ⟨fun w => ?sample, fun h => ⟨abs_le.2 (sumA_bounds h), abs_le.2 (sumB_bounds h), ?exact, powerOf_le h⟩⟩
  case sample =>
    obtain ⟨hlow, hhigh⟩ := sample_bounds (sampleOf w)
    exact ⟨sampleOf_toInt w, hlow, hhigh, fun hw => by rw [sampleOf_toInt, Nat.mod_eq_of_lt hw]⟩
  case exact => rw [powerOf_toNat, Int.toNat_of_nonneg (powerSum_bounds h).1]

/-! ### IN.BYTE -/

theorem decodeBeat_eq_inByte {b : Beat} (h : b.getLsbD 8 = false) : decodeBeat b = .inByte (b.extractLsb' 0 8) := by
  rw [decodeBeat, if_neg (Bool.eq_false_iff.1 h)]

/-- R55: the second byte of a word is its high byte. -/
theorem sampleWord_toNat (d lo : Byte) : (d ++ lo : SampleWord).toNat = lo.toNat + 256 * d.toNat := by
  rw [toNat_append_eq]
  omega

/-- R122: a word's top four bits are not all clear exactly where it is above 4095. -/
theorem outOfRange_eq (w : SampleWord) : outOfRange w = decide (4096 ≤ w.toNat) := by
  have htop : (w.extractLsb' 12 4).toNat = w.toNat / 4096 := by
    rw [BitVec.extractLsb'_toNat, Nat.shiftRight_eq_div_pow]
    omega
  have hiff : outOfRange w = true ↔ 4096 ≤ w.toNat := by
    rw [outOfRange, bne_iff_ne, ← BitVec.toNat_inj.ne, htop]
    simp only [BitVec.ofNat_eq_ofNat, BitVec.toNat_ofNat]
    omega
  exact Bool.eq_iff_iff.2 (hiff.trans decide_eq_true_iff.symm)

/-- R120: the sample as a function of the word's number. -/
theorem sampleOf_eq_ofInt (w : SampleWord) : sampleOf w = BitVec.ofInt 12 (((w.toNat % 4096 : Nat) : Int) - 2048) := by
  rw [← sampleOf_toInt, BitVec.ofInt_toInt]

/-- R125: the two sums after a shift, over the history before it. -/
theorem powerOf_shiftHistory (x : Sample) (h : History) :
    powerOf (shiftHistory x h) = BitVec.ofNat 27
      ((x.toInt - h.h1.toInt + h.h3.toInt - h.h5.toInt) * (x.toInt - h.h1.toInt + h.h3.toInt - h.h5.toInt) +
        (h.h0.toInt - h.h2.toInt + h.h4.toInt - h.h6.toInt) * (h.h0.toInt - h.h2.toInt + h.h4.toInt - h.h6.toInt)).toNat :=
  rfl

/-- Settles O32: a taken byte is the low byte of a word, or the high byte of the first or of the second word of a pair. -/
theorem inByteTakesTheByte : Obligations.InByteTakesTheByte := by
  refine ⟨fun b h8 => decodeBeat_eq_inByte h8, fun d s => ⟨fun hheld => ?held, fun heos hroom => ?ready⟩⟩
  case held =>
    have hr : srcReady s = false := (srcReady_eq_false_iff s).2 hheld
    exact ⟨hr, execInByte_of_held hr d⟩
  case ready =>
    have hr : srcReady s = true := (srcReady_iff s).2 ⟨heos, hroom⟩
    have hexec : exec (.inByte d) s = .next (acceptByte d s) := execInByte_of_ready hr d
    have hrange : outOfRange (d ++ s.lo) = decide (4096 ≤ s.lo.toNat + 256 * d.toNat) := by
      rw [outOfRange_eq, sampleWord_toNat]
    have hsample : sampleOf (d ++ s.lo) =
        BitVec.ofInt 12 ((((s.lo.toNat + 256 * d.toNat) % 4096 : Nat) : Int) - 2048) := by
      rw [sampleOf_eq_ofInt, sampleWord_toNat]
    refine ⟨hr, fun hb => ?low, fun hb => ⟨fun hp => ?first, fun hp => ?second⟩⟩
    case low => rw [hexec, acceptByte_low hb]
    case first =>
      rw [hexec, acceptByte_high hb, decodeAndFilter_first (by exact hp), hrange, hsample]
      rfl
    case second =>
      rw [hexec, acceptByte_high hb, decodeAndFilter_second (by exact hp), powerOf_shiftHistory, hrange, hsample]
      rfl

end Sys2Proof.Machine
end

section
/-! The window operations (41_window.md): `advanceBy(n)` as n times `advance()`, and what it does to the window and to POS. -/

namespace Sys2Proof.Machine

/-! ### advanceBy and advance -/

theorem advanceBy_zero (s : State) : advanceBy 0 s = s := by
  simp [advanceBy]

/-- R145, R146: one more `advance()` drops one more entry and moves POS on by one more. -/
theorem advanceBy_succ (n : Nat) (s : State) : advanceBy (n + 1) s = advance (advanceBy n s) := by
  have hw : s.w.drop (n + 1) = (s.w.drop n).tail := List.tail_drop.symm
  have hpos : s.pos + BitVec.ofNat 64 (n + 1) = s.pos + BitVec.ofNat 64 n + 1 := by
    rw [BitVec.ofNat_add, ← BitVec.add_assoc]
    rfl
  rw [advanceBy, hw, hpos]
  rfl

/-- R146 for every n: where the window runs out, both sides leave it empty and move POS on alike. -/
theorem advanceBy_eq_iterate (n : Nat) (s : State) : advanceBy n s = advance^[n] s := by
  induction n with
  | zero => exact advanceBy_zero s
  | succ n ih => rw [advanceBy_succ, ih, Function.iterate_succ_apply']

/-! ### What advanceBy does to the window and to POS -/

theorem windowGet_advanceBy (n : Nat) (s : State) (i : Nat) : windowGet (advanceBy n s) i = windowGet s (n + i) := by
  simp only [windowGet, advanceBy_w, List.getD_eq_getElem?_getD, List.getElem?_drop]

theorem advanceBy_w_length (n : Nat) (s : State) : (advanceBy n s).w.length = s.w.length - n := by
  rw [advanceBy_w, List.length_drop]

/-- R22: POS moves on by n modulo 2^64, and nothing but the window and POS changes. -/
theorem advanceBy_frame (n : Nat) (s : State) :
    advanceBy n s = { s with w := (advanceBy n s).w, pos := BitVec.ofNat 64 (s.pos.toNat + n) } := by
  have hpos : BitVec.ofNat 64 (s.pos.toNat + n) = s.pos + BitVec.ofNat 64 n := by
    rw [BitVec.ofNat_add, BitVec.ofNat_toNat, BitVec.setWidth_eq]
  rw [hpos]
  rfl

/-- Settles O36: the iterate by induction on n, the rest from the window's drop and the sum in POS. -/
theorem advanceByIsRepeatedAdvance : Obligations.AdvanceByIsRepeatedAdvance := fun n s _ _ =>
  ⟨advanceBy_eq_iterate n s, fun i _ => windowGet_advanceBy n s i, advanceBy_frame n s, advanceBy_w_length n s⟩

end Sys2Proof.Machine
end

section
/-! COR's turn (42_correlator_slicer.md R161 to R173): where it is an evaluation and where it is held, the slicer's bits as the
numbers that they are, and what an evaluation makes of them. -/

namespace Sys2Proof.Machine

/-! ### Where COR is enabled and where it is held -/

theorem corTurnAt_of_enabled {depth : FifoDepth} {s : State} (hfull : s.w.length = 1200)
    (hroom : ∀ d, depth = some d → s.fifo.length < d.val) : corTurnAt depth s = corEval s := by
  rw [corTurnAt, if_pos ((corReadyAt_iff depth s).2 ⟨hfull, hroom⟩)]

theorem corTurnAt_of_held {depth : FifoDepth} {s : State}
    (h : s.w.length ≠ 1200 ∨ ∃ d, depth = some d ∧ d.val ≤ s.fifo.length) : corTurnAt depth s = s := by
  have hr : ¬ corReadyAt depth s = true := by
    rw [corReadyAt_iff]
    rintro ⟨hfull, hroom⟩
    rcases h with hshort | ⟨d, hd, hle⟩
    · exact hshort hfull
    · exact absurd (hroom d hd) (Nat.not_lt.2 hle)
  rw [corTurnAt, if_neg hr]

/-- Settles O38: COR's two conditions one by one, and a POPF from a full queue leaves room for one entry. -/
theorem corIsHeldUntilEnabled : Obligations.CorIsHeldUntilEnabled := by
  refine ⟨fun s ts ht => step_of_turns_cons ht, fun depth s hshort => corTurnAt_of_held (.inl hshort),
    fun d s hqueue => ⟨?held, fun hfull => ⟨?src, ?popf⟩⟩, fun d s hqueue hfull => corTurnAt_of_enabled hfull ?room,
    fun s hfull => corTurnAt_of_enabled hfull nofun⟩
  case held => exact corTurnAt_of_held (.inr ⟨d, rfl, hqueue.ge⟩)
  case src => exact (srcReady_eq_false_iff s).2 (.inr hfull.ge)
  case popf =>
    have hdepth := d.property
    obtain ⟨e, rest, hf⟩ := List.exists_cons_of_length_pos (l := s.fifo) (by omega)
    refine ⟨_, execPopf_cons hf, corTurnAt_of_enabled hfull ?_⟩
    rintro _ ⟨rfl⟩
    rw [hf, List.length_cons] at hqueue
    exact Nat.lt_of_succ_le hqueue.le
  case room =>
    rintro _ ⟨rfl⟩
    exact hqueue

/-! ### The sliced bytes as numbers (R166, R167) -/

/-- Bits taken in one after another, the first the most significant, as a sum of powers of two. -/
theorem foldl_bits_eq_sum (b : Nat → Nat) (n : Nat) :
    (List.range n).foldl (fun acc i => 2 * acc + b i) 0 = ∑ i ∈ Finset.range n, b i * 2 ^ (n - 1 - i) := by
  induction n with
  | zero => rfl
  | succ n ih =>
    have hshift : ∀ i ∈ Finset.range n, 2 * (b i * 2 ^ (n - 1 - i)) = b i * 2 ^ (n + 1 - 1 - i) := fun i hi => by
      have hi := Finset.mem_range.1 hi
      rw [mul_left_comm, ← pow_succ', show n - 1 - i + 1 = n + 1 - 1 - i by omega]
    rw [List.range_succ, List.foldl_append, ih, Finset.sum_range_succ, List.foldl_cons, List.foldl_nil, Finset.mul_sum,
      Finset.sum_congr rfl hshift, Nat.add_sub_cancel, Nat.sub_self, pow_zero, mul_one]

theorem slicedBit_toNat (get : Nat → Nat) (k : Nat) :
    (slicedBit get k).toNat = if get (80 + 10 * k) < get (85 + 10 * k) then 0 else 1 := by
  unfold slicedBit
  split
  · next h => rw [decide_eq_true h]; rfl
  · next h => rw [decide_eq_false h]; rfl

/-- The number that frame byte `j` is: bit 8j + i has weight 2^(7-i). -/
def slicedNumber (get : Nat → Nat) (j : Nat) : Nat :=
  ∑ i ∈ Finset.range 8, (if get (80 + 10 * (8 * j + i)) < get (85 + 10 * (8 * j + i)) then 0 else 1) * 2 ^ (7 - i)

theorem slicedNumber_lt (get : Nat → Nat) (j : Nat) : slicedNumber get j < 256 := by
  have hbits : slicedNumber get j ≤ ∑ i ∈ Finset.range 8, 1 * 2 ^ (7 - i) :=
    Finset.sum_le_sum fun i _ => Nat.mul_le_mul_right _ (by split <;> decide)
  exact hbits.trans_lt (by decide)

theorem slicedByte_eq_ofNat (get : Nat → Nat) (j : Nat) : slicedByte get j = BitVec.ofNat 8 (slicedNumber get j) := by
  rw [slicedByte, foldl_bits_eq_sum fun i => (slicedBit get (8 * j + i)).toNat]
  simp only [slicedBit_toNat]
  rfl

theorem slicedByte_toNat (get : Nat → Nat) (j : Nat) : (slicedByte get j).toNat = slicedNumber get j := by
  rw [slicedByte_eq_ofNat, BitVec.toNat_ofNat, Nat.mod_eq_of_lt (slicedNumber_lt get j)]

theorem slicedBytes_eq_map (get : Nat → Nat) :
    slicedBytes get = (List.range 14).map fun j => BitVec.ofNat 8 (slicedNumber get j) :=
  List.map_congr_left fun j _ => slicedByte_eq_ofNat get j

/-- R30, R88: frame byte j stands at bits 111-8j to 104-8j of the queued word. -/
theorem packBytes_slicedBytes (get : Nat → Nat) :
    packBytes (slicedBytes get) = BitVec.ofNat 112 (∑ j ∈ Finset.range 14, slicedNumber get j * 2 ^ (104 - 8 * j)) := by
  have hweight : ∀ j ∈ Finset.range 14,
      (slicedByte get j).toNat * 256 ^ (14 - 1 - j) = slicedNumber get j * 2 ^ (104 - 8 * j) := fun j hj => by
    have hj := Finset.mem_range.1 hj
    rw [slicedByte_toNat, show (256 : Nat) = 2 ^ 8 from rfl, ← pow_mul, show 8 * (14 - 1 - j) = 104 - 8 * j by omega]
  rw [packBytes, slicedBytes_length, Nat.sub_self, pow_zero, mul_one, slicedBytes, bigEndian_map_range,
    Finset.sum_congr rfl hweight]

/-! ### What an evaluation decides and does -/

/-- The preamble test, the DF gate and the CRC gate (R164, R168, R169), over the numbers sliced. -/
def FrameAccepted (get : Nat → Nat) (prev : Nat) : Prop :=
  2 * valleySum get ≤ peakSum get 0 ∧ prev < peakSum get 0 ∧ peakSum get 1 < peakSum get 0 ∧ slicedNumber get 0 / 8 = 17 ∧
    crc24 ((List.range 14).map fun j => BitVec.ofNat 8 (slicedNumber get j)) = 0

theorem frameAccepted_iff (get : Nat → Nat) (prev : Nat) :
    FrameAccepted get prev ↔
      preambleTest get prev = true ∧ (slicedByte get 0).toNat / 8 = 17 ∧ crc24 (slicedBytes get) = 0 := by
  rw [slicedByte_toNat, slicedBytes_eq_map]
  simp only [FrameAccepted, preambleTest, Bool.and_eq_true, decide_eq_true_iff, and_assoc]

theorem candidateFrame_of_accepted {get : Nat → Nat} {prev : Nat} (h : FrameAccepted get prev) :
    candidateFrame get prev = some (packBytes (slicedBytes get)) := by
  obtain ⟨hpreamble, hdf, hcrc⟩ := (frameAccepted_iff get prev).1 h
  rw [candidateFrame, if_pos hpreamble, if_pos hdf, if_pos hcrc]

theorem candidateFrame_of_not_accepted {get : Nat → Nat} {prev : Nat} (h : ¬ FrameAccepted get prev) :
    candidateFrame get prev = none := by
  rcases hc : candidateFrame get prev with _ | frame
  · rfl
  · obtain ⟨hpreamble, hdf, hcrc, _⟩ := candidateFrame_eq_some hc
    exact absurd ((frameAccepted_iff get prev).2 ⟨hpreamble, hdf, hcrc⟩) h

/-- R169, R171: from a full window, acceptance empties it. -/
theorem acceptFrame_of_full {s : State} (hfull : s.w.length = 1200) (frame : Wide) :
    acceptFrame frame s =
      { s with
        w := []
        pos := s.pos + 1200
        prev := 0
        fifo := s.fifo ++ [⟨BitVec.ofNat 64 (s.pos.toNat * 100), frame⟩] } := by
  have hw : s.w.drop 1200 = [] := List.drop_eq_nil_of_le hfull.le
  have hts : timestampNow s = BitVec.ofNat 64 (s.pos.toNat * 100) := by
    rw [timestampNow, BitVec.ofNat_mul, BitVec.ofNat_toNat, BitVec.setWidth_eq]
  simp only [acceptFrame, advanceBy, emit, Config.windowSize, hts, hw, BitVec.ofNat_eq_ofNat]

theorem corEval_of_accepted {s : State} (hfull : s.w.length = 1200) (h : FrameAccepted (windowGet s) s.prev.toNat) :
    corEval s =
      { s with
        w := []
        pos := s.pos + 1200
        prev := 0
        fifo := s.fifo ++ [⟨BitVec.ofNat 64 (s.pos.toNat * 100),
          BitVec.ofNat 112 (∑ j ∈ Finset.range 14, slicedNumber (windowGet s) j * 2 ^ (104 - 8 * j))⟩] } := by
  rw [corEval, candidateFrame_of_accepted h, packBytes_slicedBytes]
  exact acceptFrame_of_full hfull _

theorem corEval_of_not_accepted {s : State} (h : ¬ FrameAccepted (windowGet s) s.prev.toNat) :
    corEval s = rejectPosition s := by
  rw [corEval, candidateFrame_of_not_accepted h]

/-- Settles O37: the conditions of the statement are `FrameAccepted` of the window written out. -/
theorem corEvaluatesOnePosition : Obligations.CorEvaluatesOnePosition := by
  refine ⟨fun s ts ht hfull hroom => ?enabled, fun s ts ht hheld => ?held⟩
  case enabled =>
    have hstep : step s = .next (corEval { s with turns := ts, tick := s.tick + 1 }) :=
      (step_of_turns_cons ht).trans (congrArg _ (corTurnAt_of_enabled (by exact hfull) (by exact hroom)))
    refine ⟨fun haccepted => ?accepted, fun hrejected => ⟨?rejected, peakSum_windowGet_lt s 0⟩⟩
    case accepted => exact hstep.trans (congrArg _ (corEval_of_accepted (by exact hfull) (by exact haccepted)))
    case rejected => exact hstep.trans (congrArg _ (corEval_of_not_accepted (by exact hrejected)))
  case held => exact (step_of_turns_cons ht).trans (congrArg _ (corTurnAt_of_held (by exact hheld)))

end Sys2Proof.Machine
end

section
/-! The whole run of a stream (42_correlator_slicer.md R174, 30_encoding.md R96): a queue with room for all of R174's output never
holds COR, so `.feed` takes every byte, `.last` ends the stream and nothing is left to settle. -/

namespace Sys2Proof.Machine

/-! ### Quiet steps keep a good state good -/

theorem eq_next_of_nextState {r : Host.Outcome State Fault Refusal} {t : State} (h : nextState r = some t) : r = .next t := by
  cases r with
  | next u => exact congrArg _ (Option.some.inj h)
  | fault f => cases h
  | refused f => cases h

theorem step_of_quietStep {s t : State} (h : quietStep s = some t) :
    ∃ turn : Turn, step { s with turns := turn :: s.turns } = .next t := by
  unfold quietStep at h
  split at h
  · exact ⟨.cor, eq_next_of_nextState h⟩
  · split at h
    · exact ⟨.src, eq_next_of_nextState h⟩
    · cases h

theorem GoodState.of_quietStep {s t : State} (h : GoodState s) (hq : quietStep s = some t) : GoodState t := by
  obtain ⟨turn, hstep⟩ := step_of_quietStep hq
  have hturn : GoodState { s with turns := turn :: s.turns } := h.of_suffix rfl rfl rfl (List.suffix_refl _)
  exact stepKeepsGoodState _ t hturn hstep

theorem GoodState.of_feed {s : State} (h : GoodState s) (bytes : List Byte) : GoodState (feed bytes s) :=
  runWhile_keeps inValid (fun _ _ hs _ hq => hs.of_quietStep hq) _ _ (h.of_suffix rfl rfl rfl (List.suffix_refl _))

/-! ### A queue with room holds nobody -/

/-- R161, R121: a full window is COR's, and any other is SRC's while the stream has not ended. -/
theorem quietStep_ne_none_of_room {s : State} (hgood : GoodState s) (heos : s.eos = false) (hbeats : s.beats ≠ [])
    (hroom : ∀ d, Config.fifoDepth = some d → s.fifo.length < d.val) : quietStep s ≠ none := by
  rw [Ne, quietStep_eq_none_iff]
  rintro ⟨hcor, hsrc⟩
  have hfits := hgood.windowFits
  by_cases hfull : s.w.length = 1200
  · exact Bool.eq_false_iff.1 hcor ((corReadyAt_iff _ s).2 ⟨hfull, hroom⟩)
  · rcases hsrc with hheld | hempty
    · exact Bool.eq_false_iff.1 hheld ((srcReady_iff s).2 ⟨heos, by omega⟩)
    · exact hbeats hempty

theorem powerSeq_prefix_append (bytes more : List Byte) : powerSeq bytes <+: powerSeq (bytes ++ more) := by
  induction more generalizing bytes with
  | nil => rw [List.append_nil]
  | cons d more ih =>
    rw [List.append_cons]
    exact (powerSeq_prefix_concat bytes d).trans (ih _)

/-- R70: what a longer stream puts out begins with what a shorter one does. -/
theorem demod_out_prefix_append (bytes more : List Byte) :
    (demod (powerSeq bytes)).out <+: (demod (powerSeq (bytes ++ more))).out := by
  obtain ⟨powers, hpowers⟩ := powerSeq_prefix_append bytes more
  obtain ⟨j, hj⟩ := demodLoop_append (powerSeq bytes) powers (powerSeq bytes).length demodStart
  rw [demod, ← hj, hpowers]
  exact demodLoop_out_prefix_demod _ j

/-- R70: before any POPF the queue is never longer than R174's output for the whole stream. -/
theorem PipelineTracks.fifo_length_le {bytes : List Byte} {s : State} (h : PipelineTracks bytes [] s) (more : List Byte) :
    s.fifo.length ≤ (demod (powerSeq (bytes ++ more))).out.length := by
  obtain ⟨k, hout, _, _⟩ := h.loop
  rw [List.nil_append] at hout
  rw [hout]
  exact ((demodLoop_out_prefix_demod _ k).trans (demod_out_prefix_append bytes more)).length_le

/-! ### `.feed` and `.last` from reset -/

/-- A stream all taken, not ended, with nothing on offer, and the machine in step with R174's loop over it. -/
structure StreamTaken (bytes : List Byte) (s : State) : Prop where
  good : GoodState s
  tracks : PipelineTracks bytes [] s
  beats : s.beats = []
  eos : s.eos = false

/-- Where a `.last` after the whole stream stands: the IN.LAST beat on offer, or taken with the stream ended. -/
structure LastStands (bytes : List Byte) (s : State) : Prop where
  good : GoodState s
  tracks : PipelineTracks bytes [] s
  phase : (s.beats = [0x100] ∧ s.eos = false) ∨ (s.beats = [] ∧ s.eos = true)

/-- A quiet step is COR's, or takes the IN.LAST beat. -/
theorem LastStands.of_quietStep {s t : State} (h : LastStands bytes s) (hq : quietStep s = some t) : LastStands bytes t := by
  have hgood := h.good.of_quietStep hq
  rcases quietStep_cases hq with ⟨_, rfl⟩ | ⟨_, hr, b, bs, hb, hx⟩
  · -- COR
    have htick : PipelineTracks bytes [] { s with tick := s.tick + 1 } := h.tracks.of_toAjrx rfl
    refine ⟨hgood, htick.of_corTurn _, ?_⟩
    rw [corTurnAt_toInputs, corTurnAt_eos]
    exact h.phase
  · -- SRC takes IN.LAST
    rcases h.phase with ⟨hlast, _⟩ | ⟨hnone, _⟩
    · rw [hlast] at hb
      injection hb with hfirst hrest
      subst hfirst hrest
      have hdecode : decodeBeat 0x100 = .inLast := rfl
      rw [hdecode, exec, execInLast_of_ready (by exact hr)] at hx
      injection hx with hx
      subst hx
      exact ⟨hgood, h.tracks.of_moved (h.tracks.window.of_unchanged rfl rfl rfl rfl rfl rfl) rfl rfl rfl, .inr ⟨rfl, rfl⟩⟩
    · rw [hnone] at hb
      cases hb

section
variable {bytes : List Byte} (hroom : ∀ d, Config.fifoDepth = some d → (demod (powerSeq bytes)).out.length < d.val)
include hroom

theorem streamTaken_feed_reset : StreamTaken bytes (feed bytes State.reset) := by
  obtain ⟨hgood, _, htracks⟩ := resetStartsTheInvariants
  obtain ⟨k, hk, hend⟩ := feed_stands bytes (s := State.reset) rfl
  have hnow : PipelineTracks (bytes.take k) [] (feed bytes State.reset) := hk.tracks [] [] htracks
  have hqueue := hnow.fifo_length_le (bytes.drop k)
  rw [List.take_append_drop] at hqueue
  have hall : bytes.length ≤ k := by
    by_contra hlt
    have hbeats : (feed bytes State.reset).beats ≠ [] := by
      rw [hk.offered]
      simp [dataBeats, hlt]
    exact quietStep_ne_none_of_room (hgood.of_feed bytes) hk.eos hbeats (fun d hd => hqueue.trans_lt (hroom d hd))
      (hend (Nat.not_le.1 hlt))
  refine ⟨hgood.of_feed bytes, ?_, ?_, hk.eos⟩
  · rwa [List.take_of_length_le hall] at hnow
  · rw [hk.offered, List.drop_eq_nil_of_le hall]
    rfl

/-- R96, R128: `.last` ends the stream, after COR's steps where the window was full. -/
theorem StreamTaken.lastStands_feedLast {s : State} (h : StreamTaken bytes s) :
    LastStands bytes (feedLast s) ∧ (feedLast s).eos = true := by
  have hstart : LastStands bytes { s with beats := s.beats ++ [0x100] } :=
    ⟨h.good.of_suffix rfl rfl rfl (List.suffix_refl _), h.tracks.of_toAjrx rfl, .inl ⟨by rw [h.beats]; rfl, h.eos⟩⟩
  have hlast : LastStands bytes (feedLast s) :=
    runWhile_keeps inValid (fun _ _ hs _ hq => hs.of_quietStep hq) _ _ hstart
  have hstops : inValid (feedLast s) = false ∨ quietStep (feedLast s) = none :=
    runWhile_stops inValid _ _ le_rfl
  refine ⟨hlast, ?_⟩
  rcases hlast.phase with ⟨hbeats, heos⟩ | ⟨_, heos⟩
  · have hqueue := hlast.tracks.fifo_length_le []
    rw [List.append_nil] at hqueue
    have hmoves : quietStep (feedLast s) ≠ none :=
      quietStep_ne_none_of_room hlast.good heos (by simp [hbeats]) fun d hd => hqueue.trans_lt (hroom d hd)
    have hdone := hstops.resolve_right hmoves
    rw [inValid, hbeats] at hdone
    cases hdone
  · exact heos

end

/-! ### The settled state -/

/-- Where neither SRC nor COR has a step, `.settle` is none. -/
theorem settle_of_quiet {s : State} (h : quietStep s = none) : settle s = s := by
  unfold settle
  rcases quietBound s with _ | fuel
  · rfl
  · rw [runWhile, if_pos rfl, h]

/-- R128: once the stream has ended, the window stays short of full and neither SRC nor COR has a step. -/
theorem quietStep_of_ended {s : State} (hgood : GoodState s) (heos : s.eos = true) : quietStep s = none := by
  have hshort := hgood.endedNotFull heos
  refine (quietStep_eq_none_iff s).2 ⟨Bool.eq_false_iff.2 fun hcor => ?_, .inl ((srcReady_eq_false_iff s).2 (.inl heos))⟩
  exact hshort.ne ((corReadyAt_iff _ s).1 hcor).1

/-- Settles O56: the ended stream leaves a window short of full, where O55 has R174's loop at its end. -/
theorem settledStreamIsDemod : Obligations.SettledStreamIsDemod := by
  intro bytes hroom
  obtain ⟨hlast, heos⟩ := (streamTaken_feed_reset hroom).lastStands_feedLast hroom
  have hquiet := quietStep_of_ended hlast.good heos
  have hshort := hlast.good.endedNotFull heos
  obtain ⟨_, hended⟩ := poppedFramesLeadDemod bytes [] _ hlast.tracks
  obtain ⟨hout, hpos, hcount, hprev⟩ := hended hshort
  rw [settle_of_quiet hquiet]
  exact ⟨hout, hpos, hcount, hshort, hprev, heos, hquiet⟩

end Sys2Proof.Machine
end

section
/-! The CRC register (43_crc24.md R192, R193): the bits after one shift, linearity of the register over GF(2), that no shift loses
anything, and that a short register only shifts. -/

namespace Sys2Proof.Machine

/-! ### One shift, bit by bit -/

theorem crcBit_of_top_clear {c : Crc} (h : c.getLsbD 23 = false) (b : Bool) :
    crcBit c b = (c <<< 1) ||| (BitVec.ofBool b).setWidth 24 := by
  rw [crcBit, h, if_neg Bool.false_ne_true]

theorem crcBit_of_top_set {c : Crc} (h : c.getLsbD 23 = true) (b : Bool) :
    crcBit c b = ((c <<< 1) ||| (BitVec.ofBool b).setWidth 24) ^^^ Config.crcGenerator := by
  rw [crcBit, if_pos h]

/-- The generator's constant term is 1 (R191). -/
theorem getLsbD_crcBit_zero (c : Crc) (b : Bool) : (crcBit c b).getLsbD 0 = (b ^^ c.getLsbD 23) := by
  cases htop : c.getLsbD 23
  case false => simp [crcBit_of_top_clear htop]
  case true => simp [crcBit_of_top_set htop]

theorem getLsbD_crcBit_succ (c : Crc) (b : Bool) {k : Nat} (hk : k < 23) :
    (crcBit c b).getLsbD (k + 1) = (c.getLsbD k ^^ (c.getLsbD 23 && Config.crcGenerator.getLsbD (k + 1))) := by
  have hwidth : k + 1 < 24 := by omega
  cases htop : c.getLsbD 23
  case false => simp [crcBit_of_top_clear htop, hwidth, -BitVec.getLsbD_eq_getElem]
  case true => simp [crcBit_of_top_set htop, hwidth, -BitVec.getLsbD_eq_getElem]

/-- Two registers are equal when they agree at bit 0 and at every bit above another. -/
theorem crc_eq_of_bits {c d : Crc} (hzero : c.getLsbD 0 = d.getLsbD 0)
    (hsucc : ∀ k, k < 23 → c.getLsbD (k + 1) = d.getLsbD (k + 1)) : c = d := by
  refine BitVec.eq_of_getLsbD_eq fun i hi => ?_
  cases i with
  | zero => exact hzero
  | succ k => exact hsucc k (by omega)

/-! ### Linearity (R193, item 2) -/

theorem crcBit_xor (c d : Crc) (a b : Bool) : crcBit (c ^^^ d) (a ^^ b) = crcBit c a ^^^ crcBit d b := by
  refine crc_eq_of_bits ?zero fun k hk => ?succ
  case zero =>
    simp only [BitVec.getLsbD_xor, getLsbD_crcBit_zero, Bool.xor_assoc, Bool.xor_left_comm]
  case succ =>
    simp only [BitVec.getLsbD_xor, getLsbD_crcBit_succ _ _ hk, Bool.and_xor_distrib_right, Bool.xor_assoc,
      Bool.xor_left_comm]

theorem crcByte_xor (c d : Crc) (x y : Byte) : crcByte (c ^^^ d) (x ^^^ y) = crcByte c x ^^^ crcByte d y := by
  simp [crcByte, byteBits, crcBit_xor]

theorem foldl_crcByte_xor {xs ys : List Byte} (h : xs.length = ys.length) (c d : Crc) :
    (List.zipWith (fun x y => x ^^^ y) xs ys).foldl crcByte (c ^^^ d) = xs.foldl crcByte c ^^^ ys.foldl crcByte d := by
  induction xs generalizing ys c d with
  | nil =>
    rw [List.eq_nil_of_length_eq_zero h.symm]
    rfl
  | cons x xs ih =>
    obtain _ | ⟨y, ys⟩ := ys
    · cases h
    · rw [List.zipWith_cons_cons, List.foldl_cons, crcByte_xor]
      exact ih (Nat.succ.inj h) _ _

/-- Zeros leave the zero register as it is. -/
theorem foldl_crcByte_zeros (n : Nat) : (List.replicate n 0).foldl crcByte 0 = 0 := by
  induction n with
  | zero => rfl
  | succ n ih => exact ih

/-! ### Nothing is lost -/

theorem crcBit_injective (b : Bool) : Function.Injective (crcBit · b) := by
  intro c d h
  have htop : c.getLsbD 23 = d.getLsbD 23 := by
    have hzero := congrArg (BitVec.getLsbD · 0) h
    simpa only [getLsbD_crcBit_zero, Bool.xor_right_inj] using hzero
  refine BitVec.eq_of_getLsbD_eq fun i hi => ?_
  obtain rfl | hbelow : i = 23 ∨ i < 23 := by omega
  · exact htop
  · have hsucc := congrArg (BitVec.getLsbD · (i + 1)) h
    simpa only [getLsbD_crcBit_succ _ _ hbelow, htop, Bool.xor_left_inj] using hsucc

/-- A loop whose body is injective in the register is. -/
theorem foldl_injective {α β : Type} {f : α → β → α} (hf : ∀ b, Function.Injective (f · b)) (l : List β) :
    Function.Injective (l.foldl f ·) := by
  induction l with
  | nil => exact Function.injective_id
  | cons b l ih => exact ih.comp (hf b)

theorem crcByte_injective (b : Byte) : Function.Injective (crcByte · b) := foldl_injective crcBit_injective _

/-! ### A register short enough only shifts -/

theorem crcBit_toNat {c : Crc} (h : c.toNat < 2 ^ 23) (b : Bool) : (crcBit c b).toNat = 2 * c.toNat + b.toNat := by
  have htop : c.getLsbD 23 = false := Nat.testBit_eq_false_of_lt h
  have hshift : (c <<< 1).toNat = c.toNat <<< 1 := by
    rw [BitVec.toNat_shiftLeft, Nat.shiftLeft_eq]
    exact Nat.mod_eq_of_lt (by omega)
  have hbit : ((BitVec.ofBool b).setWidth 24).toNat = b.toNat := by cases b <;> rfl
  rw [crcBit_of_top_clear htop, BitVec.toNat_or, hshift, hbit,
    ← Nat.shiftLeft_add_eq_or_of_lt (by simpa using b.toNat_lt), Nat.shiftLeft_eq]
  ring

theorem foldl_crcBit_toNat (bits : List Bool) {c : Crc} (h : (c.toNat + 1) * 2 ^ bits.length ≤ 2 ^ 24) :
    (bits.foldl crcBit c).toNat = bits.foldl (fun v b => 2 * v + b.toNat) c.toNat := by
  induction bits generalizing c with
  | nil => rfl
  | cons b bits ih =>
    rw [List.length_cons, pow_succ'] at h
    have hpos : 0 < 2 ^ bits.length := by positivity
    have hstep : (crcBit c b).toNat = 2 * c.toNat + b.toNat := crcBit_toNat (by nlinarith) b
    rw [List.foldl_cons, List.foldl_cons, ← hstep]
    refine ih (le_trans ?_ h)
    rw [hstep, ← mul_assoc]
    have hb := b.toNat_le
    exact Nat.mul_le_mul_right _ (by omega)

/-- The bits of a byte, most significant first, are its binary digits (R57). -/
theorem foldl_byteBits (b : Byte) (v : Nat) : (byteBits b).foldl (fun v b => 2 * v + b.toNat) v = 256 * v + b.toNat := by
  simp only [byteBits, List.map_cons, List.map_nil, List.foldl_cons, List.foldl_nil, BitVec.getLsbD, Nat.toNat_testBit]
  omega

/-- With its top byte 0 the register takes a byte in below what it holds. -/
theorem crcByte_toNat {c : Crc} (h : c.toNat < 2 ^ 16) (b : Byte) : (crcByte c b).toNat = 256 * c.toNat + b.toNat := by
  rw [crcByte, foldl_crcBit_toNat _ (by rw [byteBits_length]; omega), foldl_byteBits]

theorem foldl_crcByte_three (x y z : Byte) :
    ([x, y, z].foldl crcByte 0).toNat = 65536 * x.toNat + 256 * y.toNat + z.toNat := by
  have hx : (crcByte 0 x).toNat = x.toNat := by rw [crcByte_toNat (by decide)]; simp
  have hy : (crcByte (crcByte 0 x) y).toNat = 256 * x.toNat + y.toNat := by rw [crcByte_toNat (by omega), hx]
  rw [List.foldl_cons, List.foldl_cons, List.foldl_cons, List.foldl_nil, crcByte_toNat (by omega), hy]
  ring

/-- A register's three bytes, high byte first, load it. -/
theorem foldl_crcByte_bytes (c : Crc) :
    [c.extractLsb' 16 8, c.extractLsb' 8 8, c.extractLsb' 0 8].foldl crcByte 0 = c := by
  refine BitVec.eq_of_toNat_eq ?_
  rw [foldl_crcByte_three]
  simp only [BitVec.extractLsb'_toNat, Nat.shiftRight_eq_div_pow]
  omega

/-- Bytes that differ leave different registers: from the zero register the loop over a byte only shifts it in. -/
theorem crcByte_right_injective (c : Crc) : Function.Injective (crcByte c) := by
  intro x y h
  have hdiff : crcByte 0 (x ^^^ y) = 0 := by
    have hxor := crcByte_xor c c x y
    rwa [show crcByte c x = crcByte c y from h, BitVec.xor_self, BitVec.xor_self] at hxor
  have hzero := congrArg BitVec.toNat hdiff
  rw [crcByte_toNat (by decide)] at hzero
  exact BitVec.xor_eq_zero_iff.1 (BitVec.eq_of_toNat_eq (by simpa using hzero))

end Sys2Proof.Machine
end

section
/-! The function `crc24` (43_crc24.md R193 to R195) and the command CRC (R197). -/

namespace Sys2Proof.Machine

/-! ### Zeros and linearity (R193, items 1 and 2) -/

theorem crc24_zeros (n : Nat) : crc24 (List.replicate n 0) = 0 := by
  rw [crc24_eq_foldl, foldl_crcByte_zeros]
  exact foldl_crcByte_zeros 3

theorem crc24_xor {a b : List Byte} (h : a.length = b.length) :
    crc24 (List.zipWith (fun x y => x ^^^ y) a b) = crc24 a ^^^ crc24 b := by
  simp only [crc24_eq_foldl]
  rw [← foldl_crcByte_xor rfl, ← foldl_crcByte_xor h]
  rfl

/-- Settles O20: zeros leave the register at 0, and the loop is linear in register and bytes together. -/
theorem crcIsLinear : Obligations.CrcIsLinear := ⟨crc24_zeros, fun _ _ => crc24_xor⟩

/-! ### A message and its own CRC (R193, item 3) -/

/-- Three bytes above a register meet its three zero bytes of augmentation: what stays is their exclusive or. -/
theorem foldl_crcByte_three_eq_xor (c : Crc) (x y z : Byte) :
    [x, y, z].foldl crcByte c = [0, 0, 0].foldl crcByte c ^^^ [x, y, z].foldl crcByte 0 := by
  have hxor := foldl_crcByte_xor (xs := [0, 0, 0]) (ys := [x, y, z]) rfl c 0
  simpa using hxor

/-- After the message, its CRC's bytes take away from the register what the augmentation would leave there. -/
theorem foldl_crcByte_append_own_crc (m : List Byte) :
    (m ++ [(crc24 m).extractLsb' 16 8, (crc24 m).extractLsb' 8 8, (crc24 m).extractLsb' 0 8]).foldl crcByte 0 = 0 := by
  rw [List.foldl_append, foldl_crcByte_three_eq_xor, ← crc24_eq_foldl, foldl_crcByte_bytes]
  exact BitVec.xor_self

/-- Settles O21: the register is 0 after the CRC's bytes, and the augmentation leaves it so. -/
theorem crcOfMessageWithItsCrcIsZero : Obligations.CrcOfMessageWithItsCrcIsZero := by
  intro m
  rw [crc24_eq_foldl, foldl_crcByte_append_own_crc]
  exact foldl_crcByte_zeros 3

/-! ### One byte changed (R193, item 5) -/

/-- What follows a change in the register cannot undo it. -/
theorem crc24_append_cons_inj {pre post : List Byte} {x y : Byte} :
    crc24 (pre ++ x :: post) = crc24 (pre ++ y :: post) ↔ x = y := by
  refine ⟨fun h => ?_, fun h => h ▸ rfl⟩
  simp only [crc24_eq_foldl, List.foldl_append, List.foldl_cons (l := post)] at h
  have haugment := foldl_injective crcByte_injective [0, 0, 0] h
  exact crcByte_right_injective _ (foldl_injective crcByte_injective post haugment)

theorem crc24_set_inj {m : List Byte} {j : Nat} (hj : j < m.length) (x : Byte) :
    crc24 (m.set j x) = crc24 m ↔ x = m.getD j 0 := by
  have hsplit : m = m.take j ++ m.getD j 0 :: m.drop (j + 1) := by
    rw [List.getD_eq_getElem _ _ hj, List.getElem_cons_drop, List.take_append_drop]
  rw [List.set_eq_take_append_cons_drop, if_pos hj]
  conv_lhs => rhs; rw [hsplit]
  exact crc24_append_cons_inj

/-- Settles O22: a byte changed in place changes the CRC, and a byte with a bit flipped is another byte. -/
theorem crcDetectsSingleBitFlips : Obligations.CrcDetectsSingleBitFlips := by
  intro m j k hj hk hzero hflipped
  have hsame := (crc24_set_inj hj _).1 (hflipped.trans hzero.symm)
  have hmask : BitVec.ofNat 8 (1 <<< k) = 0 := by simpa using hsame
  have hbit : (BitVec.ofNat 8 (1 <<< k)).getLsbD k = true := by
    rw [BitVec.getLsbD_ofNat]
    simp [hk, Nat.testBit_shiftLeft]
  rw [hmask] at hbit
  exact Bool.false_ne_true (BitVec.getLsbD_zero.symm.trans hbit)

/-! ### The table (R194, R195) -/

/-- The CRC of one byte: the byte above 16 zeros, taken on by one more zero byte. -/
theorem crc24_singleton (t : Byte) : crc24 [t] = crcByte (t.setWidth 24 <<< 16) 0 := by
  have hload : [t, 0, 0].foldl crcByte 0 = t.setWidth 24 <<< 16 := by
    refine BitVec.eq_of_toNat_eq ?_
    rw [foldl_crcByte_three, BitVec.toNat_shiftLeft, Nat.shiftLeft_eq, BitVec.toNat_setWidth]
    simp only [BitVec.ofNat_eq_ofNat, BitVec.toNat_ofNat]
    omega
  rw [← hload]
  rfl

/-- R195: `CRC_TABLE[b] = crc24([b])`. -/
theorem crcTable_getD (t : Byte) : crcTable.getD t.toNat 0 = crc24 [t] := by
  have hrow : ∀ i : Fin 256, crcTable.getD i.val 0 = crc24 [BitVec.ofNat 8 i.val] := by decide +kernel
  have ht := hrow t.toFin
  rwa [BitVec.val_toFin, BitVec.ofNat_toNat, BitVec.setWidth_eq] at ht

/-- A register is its low 16 bits and its top byte. -/
theorem crc_eq_low_xor_high (c : Crc) :
    c = (c.setWidth 16).setWidth 24 ^^^ (c.extractLsb' 16 8).setWidth 24 <<< 16 := by
  refine BitVec.eq_of_getLsbD_eq fun i hi => ?_
  rcases Nat.lt_or_ge i 16 with hlow | hhigh
  · simp [hlow, hi, -BitVec.getLsbD_eq_getElem]
  · have hbyte : i - 16 < 8 := by omega
    simp [hhigh, hi, hbyte, (by omega : i - 16 < 24), -BitVec.getLsbD_eq_getElem]

/-- The low 16 bits alone move up by the byte taken in. -/
theorem crcByte_low (c : Crc) (b : Byte) : crcByte ((c.setWidth 16).setWidth 24) b = (c <<< 8) ||| b.setWidth 24 := by
  have hlow : ((c.setWidth 16).setWidth 24 : Crc).toNat = c.toNat % 2 ^ 16 := by
    rw [BitVec.toNat_setWidth, BitVec.toNat_setWidth]
    omega
  have hshift : (c <<< 8).toNat = (c.toNat % 2 ^ 16) <<< 8 := by
    rw [BitVec.toNat_shiftLeft, Nat.shiftLeft_eq, Nat.shiftLeft_eq]
    omega
  have hbyte : (b.setWidth 24 : Crc).toNat = b.toNat := by
    rw [BitVec.toNat_setWidth]
    omega
  refine BitVec.eq_of_toNat_eq ?_
  rw [crcByte_toNat (by omega), hlow, BitVec.toNat_or, hshift, hbyte, ← Nat.shiftLeft_add_eq_or_of_lt b.isLt,
    Nat.shiftLeft_eq]
  ring

/-- R194: the byte shifted out acts on the register as its table entry. -/
theorem crcByteByTable_eq_crcByte (c : Crc) (b : Byte) : crcByteByTable c b = crcByte c b := by
  conv_rhs => rw [crc_eq_low_xor_high c, show b = b ^^^ 0 from BitVec.xor_zero.symm, crcByte_xor, crcByte_low, ← crc24_singleton]
  rw [crcByteByTable, crcTable_getD]

/-- Settles O18: the two loops have the same body. -/
theorem crcTableAlgorithmAgrees : Obligations.CrcTableAlgorithmAgrees := by
  intro bytes
  have hbody : crcByteByTable = crcByte := funext₂ crcByteByTable_eq_crcByte
  rw [crc24ByTable_eq_foldl, crc24_eq_foldl, hbody]

/-! ### The command CRC (R197) -/

theorem exec_crc_of_long {n : Nat} (h : 14 < n) (buf : Wide) (s : State) :
    exec (.crc n buf) s = .next (raise .errArg s) := by
  rw [exec, execCrc, if_neg (by simpa [validLength] using h)]

theorem crc24_bufBytes_of_zero {n : Nat} {buf : Wide} (h : ∀ j, j < n → byteAt buf j = 0) : crc24 (bufBytes n buf) = 0 := by
  have hbytes : bufBytes n buf = List.replicate n 0 :=
    List.eq_replicate_iff.2 ⟨by simp [bufBytes], by simpa [bufBytes] using h⟩
  rw [hbytes, crc24_zeros]

/-- Settles O17: decoding is by the opcode, and a buffer of zeros has CRC 0. -/
theorem crcAnswersTheRemainder : Obligations.CrcAnswersTheRemainder := by
  refine ⟨fun c hop => decodeCommand_crc (congrArg BitVec.toNat hop), fun n buf s => ⟨fun hn => ⟨?answer, fun hzero => ?zero⟩,
    fun hn => exec_crc_of_long hn buf s⟩⟩
  case answer => exact exec_crc_of_valid hn buf s
  case zero =>
    rw [exec_crc_of_valid hn, crc24_bufBytes_of_zero hzero]
    rfl

end Sys2Proof.Machine
end

section
/-! The CRC register as a polynomial over GF(2) (43_crc24.md R191, R192): the bit loop is division by the generator. -/

namespace Sys2Proof.Machine

open Polynomial

/-- A bit as a constant polynomial. -/
noncomputable def bitTerm (b : Bool) : (ZMod 2)[X] := if b then 1 else 0

/-- The bits of a register as coefficients. -/
noncomputable def regPoly (c : Crc) : (ZMod 2)[X] := ∑ k ∈ Finset.range 24, if c.getLsbD k then X ^ k else 0

/-- `G(x)` (R191). -/
noncomputable def generatorPoly : (ZMod 2)[X] := X ^ 24 + regPoly Config.crcGenerator

/-- Bits as coefficients, the first the highest (R192). -/
noncomputable def bitsPoly (bits : List Bool) : (ZMod 2)[X] :=
  ∑ k ∈ Finset.range bits.length, if bits.getD (bits.length - 1 - k) false then X ^ k else 0

/-! ### Bits -/

theorem bitTerm_mul_X_pow (b : Bool) (k : Nat) : bitTerm b * X ^ k = if b then X ^ k else 0 := by
  cases b <;> simp [bitTerm]

theorem bitTerm_xor (a b : Bool) : bitTerm (a ^^ b) = bitTerm a + bitTerm b := by
  cases a <;> cases b <;> simp [bitTerm, CharTwo.add_self_eq_zero]

theorem bitTerm_and (a b : Bool) : bitTerm (a && b) = bitTerm a * bitTerm b := by
  cases a <;> simp [bitTerm]

/-! ### Messages -/

theorem bitsPoly_concat (bits : List Bool) (b : Bool) : bitsPoly (bits ++ [b]) = bitsPoly bits * X + bitTerm b := by
  rw [bitsPoly, List.length_append, List.length_singleton, Finset.sum_range_succ', bitsPoly, Finset.sum_mul]
  congr 1
  · refine Finset.sum_congr rfl fun k hk => ?_
    have hlt := Finset.mem_range.1 hk
    rw [List.getD_append _ _ _ _ (by omega), show bits.length + 1 - 1 - (k + 1) = bits.length - 1 - k by omega, ite_mul,
      zero_mul, ← pow_succ]
  · rw [List.getD_append_right _ _ _ _ (by omega)]
    simp [bitTerm]

/-- The augmentation multiplies by a power of x (R192). -/
theorem bitsPoly_append_zeros (bits : List Bool) (n : Nat) :
    bitsPoly (bits ++ List.replicate n false) = bitsPoly bits * X ^ n := by
  induction n with
  | zero => simp
  | succ n ih =>
    rw [List.replicate_succ', ← List.append_assoc, bitsPoly_concat, ih, pow_succ, mul_assoc]
    exact add_zero _

/-! ### The register -/

theorem regPoly_eq_sum (c : Crc) : regPoly c = ∑ k ∈ Finset.range 24, bitTerm (c.getLsbD k) * X ^ k := by
  simp only [regPoly, bitTerm_mul_X_pow]

/-- R192: one shift multiplies by x, adds the bit, and takes the generator away (adds it, over GF(2)) if the top bit was 1. -/
theorem regPoly_crcBit (c : Crc) (b : Bool) :
    regPoly (crcBit c b) = regPoly c * X + bitTerm b + bitTerm (c.getLsbD 23) * generatorPoly := by
  have hconst : bitTerm (Config.crcGenerator.getLsbD 0) = 1 := rfl
  have hsucc : ∀ k ∈ Finset.range 23, bitTerm ((crcBit c b).getLsbD (k + 1)) * X ^ (k + 1) =
      bitTerm (c.getLsbD k) * X ^ k * X +
        bitTerm (c.getLsbD 23) * (bitTerm (Config.crcGenerator.getLsbD (k + 1)) * X ^ (k + 1)) := fun k hk => by
    rw [getLsbD_crcBit_succ c b (Finset.mem_range.1 hk), bitTerm_xor, bitTerm_and]
    ring
  rw [generatorPoly, regPoly_eq_sum, regPoly_eq_sum c, regPoly_eq_sum Config.crcGenerator, Finset.sum_range_succ',
    Finset.sum_congr rfl hsucc, getLsbD_crcBit_zero, bitTerm_xor, Finset.sum_add_distrib, ← Finset.sum_mul, ← Finset.mul_sum,
    Finset.sum_range_succ (fun k => bitTerm (c.getLsbD k) * X ^ k) 23,
    Finset.sum_range_succ' (fun k => bitTerm (Config.crcGenerator.getLsbD k) * X ^ k) 23, hconst]
  linear_combination (-bitTerm (c.getLsbD 23) * X ^ 24) * (CharTwo.two_eq_zero : (2 : (ZMod 2)[X]) = 0)

/-- The bit loop divides: what it leaves in the register is the remainder. -/
theorem bitsPoly_eq_quotient_add_register (bits : List Bool) :
    ∃ quotient, bitsPoly bits = quotient * generatorPoly + regPoly (bits.foldl crcBit 0) := by
  induction bits using List.reverseRecOn with
  | nil => exact ⟨0, by simp [bitsPoly, regPoly]⟩
  | append_singleton bits b ih =>
    obtain ⟨quotient, hquotient⟩ := ih
    refine ⟨quotient * X + bitTerm ((bits.foldl crcBit 0).getLsbD 23), ?_⟩
    rw [bitsPoly_concat, hquotient, List.foldl_append, List.foldl_cons, List.foldl_nil, regPoly_crcBit]
    linear_combination
      (-bitTerm ((bits.foldl crcBit 0).getLsbD 23) * generatorPoly) * (CharTwo.two_eq_zero : (2 : (ZMod 2)[X]) = 0)

/-- `crc24` as one loop over the bits, those of the augmentation included. -/
theorem crc24_eq_foldl_crcBit (bytes : List Byte) :
    crc24 bytes = (bytes.flatMap byteBits ++ List.replicate 24 false).foldl crcBit 0 := by
  rw [crc24_eq_foldl, List.foldl_append, List.foldl_flatMap]
  rfl

/-- Settles O19: the loop over the augmented bits divides M(x) * x^24. -/
theorem crcIsPolynomialRemainder : Obligations.CrcIsPolynomialRemainder := by
  intro bytes
  obtain ⟨quotient, hquotient⟩ := bitsPoly_eq_quotient_add_register (bytes.flatMap byteBits ++ List.replicate 24 false)
  rw [bitsPoly_append_zeros, ← crc24_eq_foldl_crcBit] at hquotient
  exact ⟨quotient, hquotient⟩

end Sys2Proof.Machine
end

section
/-! The bit-field extractor and the byte buffer (44_bitfield_bytes.md R210 to R218): the limits of the operands, what each command
answers within them and ERR_ARG outside, and the number that a field is. -/

namespace Sys2Proof.Machine

/-! ### The limits of the operands (R211, R215, R218) -/

theorem validField_iff (start size : Nat) : validField start size = true ↔ 1 ≤ size ∧ size ≤ 31 ∧ start + size ≤ 64 := by
  simp [validField, and_assoc]

theorem validLength_iff (n : Nat) : validLength n = true ↔ n ≤ 14 := decide_eq_true_iff

theorem validRange_iff (lower upper n : Nat) :
    validRange lower upper n = true ↔ lower ≤ upper ∧ upper ≤ n ∧ upper - lower ≤ 7 := by
  simp [validRange, and_assoc]

/-! ### Outside the limits: ERR_ARG -/

section
variable (s : State)

/-- R212: a size of 0 or above 31, or a field that leaves the word. -/
theorem exec_xtru_of_invalid {start size : Nat} (h : size = 0 ∨ 32 ≤ size ∨ 64 < start + size) (value : Word64) :
    exec (.xtru start size value) s = .next (raise .errArg s) := by
  have hinvalid : ¬ validField start size = true := by
    rw [validField_iff]
    omega
  rw [exec, execXtru, if_neg hinvalid]

/-- R213: an index past the word. -/
theorem exec_tbit_of_outside {index : Nat} (h : 64 ≤ index) (value : Word64) :
    exec (.tbit index value) s = .next (raise .errArg s) := by
  rw [exec, execTbit, if_neg (Nat.not_lt.2 h)]

/-- R216: a length above the buffer's capacity. -/
theorem exec_blen_of_long {n : Nat} (h : 14 < n) (buf : Wide) : exec (.blen n buf) s = .next (raise .errArg s) := by
  rw [exec, execBlen, if_neg (mt (validLength_iff n).1 (Nat.not_le.2 h))]

/-- R217: a length above the buffer's capacity, or an index past the length. -/
theorem exec_bat_of_invalid {index n : Nat} (h : 14 < n ∨ n ≤ index) (buf : Wide) :
    exec (.bat index n buf) s = .next (raise .errArg s) := by
  have hinvalid : ¬ (validLength n && decide (index < n)) = true := by
    rw [Bool.and_eq_true, validLength_iff, decide_eq_true_iff]
    omega
  rw [exec, execBat, if_neg hinvalid]

/-- R218: a length above the buffer's capacity, or a range that is reversed, outside the buffer or too long. -/
theorem exec_brng_of_invalid {lower upper n : Nat} (h : 14 < n ∨ upper < lower ∨ n < upper ∨ 7 < upper - lower)
    (buf : Wide) : exec (.brng lower upper n buf) s = .next (raise .errArg s) := by
  have hinvalid : ¬ (validLength n && validRange lower upper n) = true := by
    rw [Bool.and_eq_true, validLength_iff, validRange_iff]
    omega
  rw [exec, execBrng, if_neg hinvalid]

end

/-! ### The number a field is (R210, R214) -/

section
variable (v : Word64) (start size : Nat)

theorem extractField_toNat : (extractField v start size).toNat = v.toNat / 2 ^ start % 2 ^ size := by
  rw [extractField, BitVec.extractLsb'_toNat, Nat.shiftRight_eq_div_pow]

/-- R213: a bit as a number. -/
theorem toNat_getLsbD (index : Nat) : (v.getLsbD index).toNat = v.toNat / 2 ^ index % 2 := by
  rw [← BitVec.testBit_toNat, Nat.toNat_testBit]

section
variable {k : Nat} (hk : k < 64)
include hk

/-- R214: the mask of a field has ones inside the field and zeros outside it. -/
theorem getLsbD_fieldMask :
    (BitVec.ofNat 64 (2 ^ size - 1) <<< start : Word64).getLsbD k = decide (start ≤ k ∧ k < start + size) := by
  rw [BitVec.getLsbD_shiftLeft, BitVec.getLsbD_ofNat, Nat.testBit_two_pow_sub_one]
  by_cases hstart : start ≤ k
  · simp [hk, hstart, show k - start < 64 by omega, Nat.sub_lt_iff_lt_add' hstart]
  · simp [hstart]

/-- R214: a field shifted back has the bits of the word inside the field and zeros outside it. -/
theorem getLsbD_extractField_shiftLeft :
    ((extractField v start size).setWidth 64 <<< start : Word64).getLsbD k =
      (v.getLsbD k && decide (start ≤ k ∧ k < start + size)) := by
  rw [BitVec.getLsbD_shiftLeft, BitVec.getLsbD_setWidth, extractField, BitVec.getLsbD_extractLsb']
  by_cases hstart : start ≤ k
  · simp [hk, hstart, show k - start < 64 by omega, Nat.sub_lt_iff_lt_add' hstart, Bool.and_comm]
  · simp [hstart]

end

end

/-- Settles O15, bit by bit: both sides are the word's bits inside the field and zeros outside it. -/
theorem fieldReassembles : Obligations.FieldReassembles := by
  intro v start size _ _ _
  refine ⟨(extractField v start size).isLt, BitVec.eq_of_getLsbD_eq fun k hk => ?_⟩
  rw [getLsbD_extractField_shiftLeft v start size hk, BitVec.getLsbD_and, getLsbD_fieldMask start size hk]

/-! ### XTRU and TBIT (R212, R213) -/

/-- The 64-bit word of a command word is its lowest 64 bits (R83). -/
theorem dValue_cmdD (c : CommandWord) : dValue (cmdD c) = c.extractLsb' 0 64 := by
  rw [dValue, cmdD, BitVec.extractLsb'_extractLsb'_of_le (by decide)]

/-- R212: within its limits XTRU answers the number that the field is. -/
theorem exec_xtru_eq_div_mod {start size : Nat} (hlow : 1 ≤ size) (hhigh : size ≤ 31) (hend : start + size ≤ 64)
    (value : Word64) (s : State) :
    exec (.xtru start size value) s = .next (respond 0 (BitVec.ofNat 112 (value.toNat / 2 ^ start % 2 ^ size)) s) := by
  rw [exec_xtru_of_valid ((validField_iff start size).2 ⟨hlow, hhigh, hend⟩), extractField_toNat]

/-- Settles O9: the operands are the word's fields, and a field is valid or one of the three refused forms. -/
theorem xtruAnswersTheField : Obligations.XtruAnswersTheField := by
  refine ⟨fun c hop => ?decode, fun start size value s =>
    ⟨fun hlow hhigh hend => exec_xtru_eq_div_mod hlow hhigh hend value s, fun h => exec_xtru_of_invalid s h value⟩⟩
  case decode => rw [decodeCommand_xtru (congrArg BitVec.toNat hop), dValue_cmdD, cmdA, cmdB]

/-- R213: TBIT answers the bit as a number. -/
theorem exec_tbit_eq_div_mod {index : Nat} (h : index < 64) (value : Word64) (s : State) :
    exec (.tbit index value) s = .next (respond 0 (BitVec.ofNat 112 (value.toNat / 2 ^ index % 2)) s) := by
  rw [exec_tbit_of_valid h, toNat_getLsbD]

/-- R213: TBIT is XTRU of one bit. -/
theorem exec_tbit_eq_exec_xtru {index : Nat} (h : index < 64) (value : Word64) (s : State) :
    exec (.tbit index value) s = exec (.xtru index 1 value) s := by
  rw [exec_tbit_eq_div_mod h, exec_xtru_eq_div_mod le_rfl (by decide) h, pow_one]

/-- Settles O10: the bit's answer is that of XTRU with a field of one bit. -/
theorem tbitAnswersTheBit : Obligations.TbitAnswersTheBit := by
  refine ⟨fun c hop => ?decode, fun index value s =>
    ⟨fun h => ⟨exec_tbit_eq_div_mod h value s, exec_tbit_eq_exec_xtru h value s⟩, fun h => exec_tbit_of_outside s h value⟩⟩
  case decode => rw [decodeCommand_tbit (congrArg BitVec.toNat hop), dValue_cmdD, cmdA]

/-! ### BLEN, BAT and BRNG (R216 to R218) -/

/-- R216: BLEN answers the length of a buffer that a command can carry. -/
theorem exec_blen_of_valid {n : Nat} (h : n ≤ 14) (buf : Wide) (s : State) :
    exec (.blen n buf) s = .next (respond 0 (BitVec.ofNat 112 n) s) := by
  rw [exec, execBlen, if_pos ((validLength_iff n).2 h)]

/-- Settles O11: the buffer's capacity is the one condition. -/
theorem blenAnswersTheLength : Obligations.BlenAnswersTheLength :=
  ⟨fun _ hop => decodeCommand_blen (congrArg BitVec.toNat hop), fun _ buf s =>
    ⟨fun h => exec_blen_of_valid h buf s, fun h => exec_blen_of_long s h buf⟩⟩

/-- Settles O12, with the byte read from D by arithmetic. -/
theorem batAnswersTheByte : Obligations.BatAnswersTheByte := by
  refine ⟨fun c hop => decodeCommand_bat (congrArg BitVec.toNat hop), fun index n buf s =>
    ⟨fun hn hi => ?answer, fun h => exec_bat_of_invalid s h buf⟩⟩
  case answer =>
    rw [exec_bat_of_valid hn hi, byteAt_toNat]
    rfl

/-- R53, R56: a range of bytes as the sum of the bytes of D, each moved up by the bytes after it. -/
theorem memRead_eq_sum_of_bits (buf : Wide) (addr n : Nat) :
    memRead buf addr n =
      ∑ j ∈ Finset.range n, (buf.toNat / 2 ^ (104 - 8 * (addr + j)) % 256) * 2 ^ (8 * (n - 1 - j)) := by
  rw [memRead_eq_sum]
  refine Finset.sum_congr rfl fun j _ => ?_
  rw [byteAt_toNat, pow_mul, show 2 ^ 8 = 256 from rfl]

/-- Settles O13: the range is valid or one of the four refused forms, and its number is the sum over its bytes. -/
theorem brngAnswersTheBigEndianRange : Obligations.BrngAnswersTheBigEndianRange := by
  refine ⟨fun c hop => decodeCommand_brng (congrArg BitVec.toNat hop), fun lower upper n buf s =>
    ⟨fun hn hlu hun hspan => ?answer, fun h => exec_brng_of_invalid s h buf⟩⟩
  case answer =>
    rw [exec_brng_of_valid hn hlu hun hspan, memRead_eq_sum_of_bits]
    rfl

end Sys2Proof.Machine
end

section
/-! The roundings of the CPR decoder (45_cpr.md R233, R246): `round_tie` is a nearest integer and goes as its rule says on an
exact half; the conversion to T32 has no exact half, and keeps bounds. -/

namespace Sys2Proof.Machine

/-! ### round_tie (R233) -/

section
variable {num den : Int} (tie : RoundTie)

theorem roundTie_halfUp_of_half (h : 2 * (num % den) = den) : roundTie .halfUp num den = num / den + 1 := by
  simp [roundTie, h]

theorem roundTie_halfEven_of_half (h : 2 * (num % den) = den) :
    roundTie .halfEven num den = if num / den % 2 = 0 then num / den else num / den + 1 := by
  simp [roundTie, h]

theorem roundTie_halfAway_of_half (h : 2 * (num % den) = den) :
    roundTie .halfAway num den = if 0 ≤ num then num / den + 1 else num / den := by
  simp [roundTie, h]

/-- The floor is taken up to the half, and the integer above it from the half on. -/
theorem roundTie_cases (num den : Int) :
    (roundTie tie num den = num / den ∧ 2 * (num % den) ≤ den) ∨
    (roundTie tie num den = num / den + 1 ∧ den ≤ 2 * (num % den)) := by
  obtain hbelow | hhalf | habove := lt_trichotomy (2 * (num % den)) den
  · exact .inl ⟨if_pos hbelow, hbelow.le⟩
  · cases tie with
    | halfUp => exact .inr ⟨roundTie_halfUp_of_half hhalf, hhalf.ge⟩
    | halfEven =>
      rw [roundTie_halfEven_of_half hhalf]
      split
      · exact .inl ⟨rfl, hhalf.le⟩
      · exact .inr ⟨rfl, hhalf.ge⟩
    | halfAway =>
      rw [roundTie_halfAway_of_half hhalf]
      split
      · exact .inr ⟨rfl, hhalf.ge⟩
      · exact .inl ⟨rfl, hhalf.le⟩
  · exact .inr ⟨(if_neg habove.not_gt).trans (if_pos habove), habove.le⟩

theorem roundTie_nearest (num : Int) (hden : 0 < den) : 2 * |den * roundTie tie num den - num| ≤ den := by
  have hrem := Int.emod_nonneg num hden.ne'
  have hlt := Int.emod_lt_of_pos num hden
  have hfloor := Int.mul_ediv_self num den
  obtain ⟨heq, hhalf⟩ | ⟨heq, hhalf⟩ := roundTie_cases tie num den
  · rw [heq, hfloor, sub_sub_cancel_left, abs_neg, abs_of_nonneg hrem]
    exact hhalf
  · rw [heq, mul_add, hfloor, show num - num % den + den * 1 - num = den - num % den by ring, abs_of_nonneg (by omega)]
    omega

end

/-- Settles O25: the nearest of the two neighbours, and for an exact half the neighbour that each rule takes. -/
theorem roundTieIsNearest : Obligations.RoundTieIsNearest := by
  intro tie num den hden
  refine ⟨roundTie_nearest tie num hden, fun hhalf => ?_⟩
  have hfloor := Int.mul_ediv_self num den
  cases tie with
  | halfUp =>
    dsimp only
    rw [roundTie_halfUp_of_half hhalf, mul_assoc, mul_add, hfloor]
    omega
  | halfEven =>
    dsimp only
    rw [roundTie_halfEven_of_half hhalf]
    split <;> omega
  | halfAway =>
    dsimp only
    rw [roundTie_halfAway_of_half hhalf, mul_assoc]
    split
    · rw [mul_add, hfloor, abs_of_nonneg (by omega), abs_of_nonneg (by omega)]
      omega
    · rw [hfloor, abs_of_neg (by omega), abs_of_neg (by omega)]
      omega

/-! ### round_nearest and T32 (R246) -/

section
variable {den : Int} (hden : 0 < den)
include hden

theorem roundNearest_bounds (num : Int) :
    2 * (den * roundNearest num den) ≤ 2 * num + den ∧ 2 * num + den < 2 * (den * roundNearest num den) + 2 * den := by
  have hlow := Int.mul_ediv_self_le (x := 2 * num + den) (k := 2 * den) (by omega)
  have hhigh := Int.lt_mul_ediv_self_add (x := 2 * num + den) (k := 2 * den) (by omega)
  rw [mul_assoc] at hlow hhigh
  exact ⟨hlow, hhigh⟩

theorem roundNearest_mono {x y : Int} (h : x ≤ y) : roundNearest x den ≤ roundNearest y den :=
  Int.ediv_le_ediv (by omega) (by omega)

/-- A multiple of the divisor is converted exactly. -/
theorem roundNearest_mul (k : Int) : roundNearest (den * k) den = k := by
  rw [roundNearest, show 2 * (den * k) + den = den + 2 * den * k by ring, Int.add_mul_ediv_left _ _ (by omega),
    Int.ediv_eq_zero_of_lt hden.le (by omega), zero_add]

theorem abs_roundNearest_le {num k : Int} (h : |num| ≤ den * k) : |roundNearest num den| ≤ k := by
  obtain ⟨hlow, hhigh⟩ := abs_le.1 h
  rw [← mul_neg] at hlow
  have hle := roundNearest_mono hden hhigh
  have hge := roundNearest_mono hden hlow
  rw [roundNearest_mul hden] at hle hge
  exact abs_le.2 ⟨hge, hle⟩

end

/-- R246: an odd multiple of half the zone count is no multiple of 2^15, because the zone count is no multiple of 2^16. -/
theorem twice_t32_ne_odd_mul {zones : Int} (hpos : 0 < zones) (hle : zones ≤ 60) (v k : Int) :
    2 * (v * 32768) ≠ zones * (2 * k + 1) := by
  intro heq
  have hodd : IsCoprime (2 ^ 16 : Int) (2 * k + 1) := IsCoprime.pow_left ⟨-k, 1, by ring⟩
  have hdvd : (2 ^ 16 : Int) ∣ zones := hodd.dvd_of_dvd_mul_right ⟨v, by linarith⟩
  have := Int.le_of_dvd hpos hdvd
  omega

/-- Settles O29: a tie, or a converted number half a unit away, would be an odd multiple of half the zone count. -/
theorem t32ConversionHasNoTie : Obligations.T32ConversionHasNoTie := by
  intro v zones hone hle
  have hpos : 0 < zones := by omega
  have hnotie := twice_t32_ne_odd_mul hpos hle v
  constructor
  · intro htie
    refine hnotie (v * 32768 / zones) ?_
    have := Int.mul_ediv_self (v * 32768) zones
    linarith
  · obtain ⟨hlow, hhigh⟩ := roundNearest_bounds hpos (v * 32768)
    have hne := hnotie (roundNearest (v * 32768) zones - 1)
    rw [show ∀ m : Int, zones * (2 * (m - 1) + 1) = 2 * (zones * m) - zones by intro m; ring] at hne
    have habs : |2 * (zones * toT32 v zones - v * 32768)| < zones := by
      rw [abs_lt, toT32]
      omega
    rwa [abs_mul, abs_two] at habs

/-- R247: an angle within a quarter turn is at most 2^30 in T32 units. -/
theorem abs_toT32_le {l zones : Int} (hpos : 0 < zones) (h : 4 * |l| ≤ zones * cprS) : |toT32 l zones| ≤ 2 ^ 30 := by
  refine abs_roundNearest_le hpos ?_
  rw [abs_mul]
  simp only [cprS, Config.cprScale] at h
  norm_num
  omega

theorem wrap32_bounds (v : Int) : -2 ^ 31 ≤ wrap32 v ∧ wrap32 v < 2 ^ 31 := by
  rw [wrap32]
  omega

/-- R246: the wrap sees a longitude modulo one turn. -/
theorem wrap32_sub_turn (v : Int) : wrap32 (v - 2 ^ 32) = wrap32 v := by
  rw [wrap32, wrap32]
  omega

theorem toT32_one (v : Int) : toT32 v 1 = v * 32768 := by
  rw [toT32, ← one_mul (v * 32768), roundNearest_mul one_pos, one_mul]

/-- Settles O31: recentering takes away one turn or nothing. -/
theorem oneZoneRecenteringIsInvisible : Obligations.OneZoneRecenteringIsInvisible := by
  intro x _ _
  rw [recenter]
  split
  · rw [toT32_one, toT32_one, ← wrap32_sub_turn (x * 32768)]
    congr 1
    simp only [cprS, Config.cprScale]
    ring
  · rfl

end Sys2Proof.Machine
end

section
/-! The latitudes and the number of longitude zones (45_cpr.md R235 to R241): the ranges of the zone index and of the recentered
latitudes, the fold about a quarter turn, and what the zone count reads from the two tables. -/

namespace Sys2Proof.Machine

/-! ### The zone procedure (R236 to R238) -/

theorem addBack_of_neg {z : Int} (h : z < 0) (zones : Int) : addBack z zones = z + zones := if_pos h

theorem addBack_of_nonneg {z : Int} (h : 0 ≤ z) (zones : Int) : addBack z zones = z := if_neg h.not_gt

/-- R238: one shift brings an angle of at most one turn into (-half a turn, half a turn]. -/
theorem recenter_bounds {v zones : Int} (hlow : -(zones * cprS) < 2 * v) (hhigh : 2 * v ≤ 3 * (zones * cprS)) :
    -(zones * cprS) < 2 * recenter v zones ∧ 2 * recenter v zones ≤ zones * cprS := by
  rw [recenter]
  split <;> omega

theorem roundTie_bounds (tie : RoundTie) (num : Int) {den : Int} (hden : 0 < den) :
    2 * num - den ≤ 2 * (den * roundTie tie num den) ∧ 2 * (den * roundTie tie num den) ≤ 2 * num + den := by
  have hnear : |2 * (den * roundTie tie num den - num)| ≤ den := by
    rw [abs_mul, abs_two]
    exact roundTie_nearest tie num hden
  obtain ⟨hlow, hhigh⟩ := abs_le.1 hnear
  omega

/-- R235: half a zone of rounding does not take the index out of its range. -/
theorem latZoneIndex_bounds (p : CprParams) {yze yzo : Nat} (he : yze < 131072) (ho : yzo < 131072) :
    -60 ≤ latZoneIndex p yze yzo ∧ latZoneIndex p yze yzo ≤ 59 := by
  obtain ⟨hlow, hhigh⟩ := roundTie_bounds p.tie (59 * yze - 60 * yzo) (den := cprS) (by decide)
  rw [← latZoneIndex] at hlow hhigh
  simp only [cprS, Config.cprScale] at hlow hhigh
  omega

/-- R236: one addition brings the index into the 60 even zones; of the 59 odd zones it may miss the first by one. -/
theorem addBack_bounds {z : Int} (hlow : -60 ≤ z) (hhigh : z ≤ 59) :
    (0 ≤ addBack z 60 ∧ addBack z 60 ≤ 59) ∧ (-1 ≤ addBack z 59 ∧ addBack z 59 ≤ 59) := by
  obtain hneg | hnonneg := lt_or_ge z 0
  · rw [addBack_of_neg hneg, addBack_of_neg hneg]
    omega
  · rw [addBack_of_nonneg hnonneg, addBack_of_nonneg hnonneg]
    omega

/-- Settles O26: the ranges of the index, of the two normalised indices and of the latitudes follow from one another. -/
theorem cprLatitudeRanges : Obligations.CprLatitudeRanges := by
  intro p yze yzo he ho
  obtain ⟨hlow, hhigh⟩ := latZoneIndex_bounds p he ho
  obtain ⟨heven, hodd⟩ := addBack_bounds hlow hhigh
  refine ⟨⟨hlow, hhigh⟩, heven, hodd, ?even, ?odd⟩
  case even =>
    rw [neg_mul]
    exact recenter_bounds (by simp only [cprS, Config.cprScale]; omega) (by simp only [cprS, Config.cprScale]; omega)
  case odd =>
    rw [neg_mul]
    exact recenter_bounds (by simp only [cprS, Config.cprScale]; omega) (by simp only [cprS, Config.cprScale]; omega)

/-! ### The fold about a quarter turn (R240) -/

section
variable (l zones : Int)

theorem foldLatitude_neg : foldLatitude (-l) zones = foldLatitude l zones := by
  rw [foldLatitude, foldLatitude, abs_neg]

variable {l zones}

/-- A latitude from the equator to the pole is its own fold. -/
theorem foldLatitude_of_le_pole (hlow : 0 ≤ l) (hhigh : 4 * l ≤ zones * cprS) : foldLatitude l zones = l := by
  rw [foldLatitude, abs_of_nonneg hlow, if_neg hhigh.not_gt]

/-- A latitude beyond the pole folds to what is left to half a turn. -/
theorem foldLatitude_of_beyond_pole (hlow : 0 ≤ l) (hhigh : zones * cprS < 4 * l) :
    foldLatitude l zones = zones * (cprS / 2) - l := by
  rw [foldLatitude, abs_of_nonneg hlow, if_pos hhigh]

theorem foldLatitude_half_sub (hlow : 0 ≤ l) (hhigh : l ≤ zones * (cprS / 2)) :
    foldLatitude (zones * (cprS / 2) - l) zones = foldLatitude l zones := by
  have htwice : zones * cprS = 2 * (zones * (cprS / 2)) := by
    rw [mul_left_comm]
    rfl
  obtain hsouth | hpole | hnorth := lt_trichotomy (4 * l) (zones * cprS)
  · rw [foldLatitude_of_beyond_pole (by omega) (by omega), foldLatitude_of_le_pole hlow hsouth.le, sub_sub_cancel]
  · rw [show zones * (cprS / 2) - l = l by omega]
  · rw [foldLatitude_of_le_pole (by omega) (by omega), foldLatitude_of_beyond_pole hlow hnorth]

end

theorem foldLatitude_even (l : Int) :
    foldLatitude l 60 = if 60 * 131072 < 4 * |l| then 60 * 65536 - |l| else |l| := rfl

theorem foldLatitude_odd (l : Int) :
    foldLatitude l 59 = if 59 * 131072 < 4 * |l| then 59 * 65536 - |l| else |l| := rfl

/-! ### Reading a table (R240) -/

/-- What the two grids of R240 have in common: a table of 58 falling entries, with 87 degrees first on the even grid. -/
structure ZoneTable (zones : Int) (table : List Int) : Prop where
  zones_pos : 0 < zones
  length_eq : table.length = 58
  decreasing : table.Pairwise (· > ·)
  degree_87 : zones = 60 → threshold table 2 = 1900544

theorem zoneTable_even : ZoneTable 60 teTable := ⟨by decide, teTable_length, teTable_decreasing, fun _ => rfl⟩

theorem zoneTable_odd : ZoneTable 59 toTable := ⟨by decide, toTable_length, toTable_decreasing, fun h => absurd h (by decide)⟩

/-- The scan down from 59 stops at the first entry that is not passed, or comes to 1. -/
theorem largestZone_cases (table : List Int) (a : Int) :
    (largestZone table a = 1 ∧ ∀ k, 2 ≤ k → k ≤ 59 → threshold table k < a) ∨
    ((2 ≤ largestZone table a ∧ largestZone table a ≤ 59) ∧ a ≤ threshold table (largestZone table a) ∧
      ∀ k, largestZone table a < k → k ≤ 59 → threshold table k < a) := by
  rw [largestZone, List.find?_map]
  cases hfind : (List.range 58).find? ((fun k => decide (a ≤ threshold table k)) ∘ fun j => 59 - j) with
  | none =>
    refine .inl ⟨rfl, fun k hlow hhigh => ?_⟩
    have hpassed := List.find?_eq_none.1 hfind (59 - k) (List.mem_range.2 (by omega))
    rwa [Function.comp_apply, Nat.sub_sub_self hhigh, decide_eq_true_iff, not_le] at hpassed
  | some j =>
    obtain ⟨hstop, hmem, hbefore⟩ := List.find?_range_eq_some.1 hfind
    have hj := List.mem_range.1 hmem
    rw [Option.map_some, Option.getD_some]
    refine .inr ⟨⟨by omega, by omega⟩, of_decide_eq_true hstop, fun k hlow hhigh => ?_⟩
    have hpassed := hbefore (59 - k) (by omega)
    rwa [Function.comp_apply, Nat.sub_sub_self hhigh, Bool.not_eq_true', decide_eq_false_iff_not, not_le] at hpassed

theorem largestZone_bounds (table : List Int) (a : Int) : 1 ≤ largestZone table a ∧ largestZone table a ≤ 59 := by
  obtain ⟨hone, -⟩ | ⟨hrange, -, -⟩ := largestZone_cases table a <;> omega

section
variable {zones : Int} {table : List Int} (htable : ZoneTable zones table)
include htable

/-- The value read outside the table plays no part for k from 2 to 59. -/
theorem ZoneTable.threshold_eq_getD {k : Nat} (hlow : 2 ≤ k) (hhigh : k ≤ 59) (d : Int) :
    threshold table k = table.getD (k - 2) d := by
  have hk : k - 2 < table.length := by
    rw [htable.length_eq]
    omega
  rw [threshold, List.getD_eq_getElem _ _ hk, List.getD_eq_getElem _ _ hk]

theorem ZoneTable.threshold_anti {j k : Nat} (hlow : 2 ≤ j) (hjk : j ≤ k) (hhigh : k ≤ 59) :
    threshold table k ≤ threshold table j := by
  obtain rfl | hlt := hjk.eq_or_lt
  · rfl
  · have hlen := htable.length_eq
    rw [threshold, threshold, List.getD_eq_getElem _ _ (show k - 2 < table.length by omega),
      List.getD_eq_getElem _ _ (show j - 2 < table.length by omega)]
    exact (List.pairwise_iff_getElem.1 htable.decreasing _ _ _ _ (by omega)).le

/-- R240: the largest k is reached exactly by the entries that are not passed, because the table falls. -/
theorem ZoneTable.le_largestZone_iff (a : Int) {k : Nat} (hlow : 2 ≤ k) (hhigh : k ≤ 59) :
    k ≤ largestZone table a ↔ a ≤ threshold table k := by
  obtain ⟨hone, hpassed⟩ | ⟨⟨hge, hle⟩, hstop, hpassed⟩ := largestZone_cases table a
  · have := hpassed k hlow hhigh
    omega
  · refine ⟨fun hk => hstop.trans (htable.threshold_anti hlow hk hle), fun hk => ?_⟩
    by_contra habove
    exact (hpassed k (by omega) hhigh).not_ge hk

theorem ZoneTable.largestZone_anti {a b : Int} (h : a ≤ b) : largestZone table b ≤ largestZone table a := by
  obtain ⟨hone, -⟩ | ⟨⟨hge, hle⟩, hstop, -⟩ := largestZone_cases table b
  · rw [hone]
    exact (largestZone_bounds table a).1
  · exact (htable.le_largestZone_iff a hge hle).2 (h.trans hstop)

end

/-! ### The zone count (R240, R241) -/

theorem nlEqCount_bounds (choice : NlEq) : 59 ≤ nlEqCount choice ∧ nlEqCount choice ≤ 60 := by
  cases choice <;> decide

theorem nl87Count_bounds (choice : Nl87) : 1 ≤ nl87Count choice ∧ nl87Count choice ≤ 2 := by
  cases choice <;> decide

section
variable (p : CprParams) {l zones : Int} {table : List Int}

/-- The zone count depends on the latitude only through the fold. -/
theorem nlGrid_congr {l' : Int} (h : foldLatitude l zones = foldLatitude l' zones) (table : List Int) :
    nlGrid p l zones table = nlGrid p l' zones table := by
  rw [nlGrid, nlGrid, h]

theorem nlGrid_of_equator (h : foldLatitude l zones = 0) (table : List Int) : nlGrid p l zones table = nlEqCount p.nlEq :=
  if_pos h

theorem nlGrid_of_pole (hpos : 0 < zones) (h : 4 * foldLatitude l zones = zones * cprS) (table : List Int) :
    nlGrid p l zones table = 1 := by
  have hne : foldLatitude l zones ≠ 0 := by
    simp only [cprS, Config.cprScale] at h
    omega
  rw [nlGrid, if_neg hne, if_pos h]

theorem nlGrid_of_87 (h : foldLatitude l 60 = 1900544) (table : List Int) : nlGrid p l 60 table = nl87Count p.nl87 := by
  rw [nlGrid, h]
  rfl

theorem nlGrid_of_ordinary (hzero : foldLatitude l zones ≠ 0) (hpole : 4 * foldLatitude l zones ≠ zones * cprS)
    (h87 : ¬ (zones = 60 ∧ foldLatitude l zones = 1900544)) (table : List Int) :
    nlGrid p l zones table = largestZone table (foldLatitude l zones) := by
  rw [nlGrid, if_neg hzero, if_neg hpole, if_neg h87]

/-- The cases of R240: equator, pole, 87 degrees on the even grid, and the table everywhere else. -/
theorem nlGrid_cases (htable : ZoneTable zones table) (l : Int) :
    (foldLatitude l zones = 0 ∧ nlGrid p l zones table = nlEqCount p.nlEq) ∨
    (4 * foldLatitude l zones = zones * cprS ∧ nlGrid p l zones table = 1) ∨
    (threshold table 2 = foldLatitude l zones ∧ nlGrid p l zones table = nl87Count p.nl87) ∨
    nlGrid p l zones table = largestZone table (foldLatitude l zones) := by
  by_cases hzero : foldLatitude l zones = 0
  · exact .inl ⟨hzero, nlGrid_of_equator p hzero table⟩
  by_cases hpole : 4 * foldLatitude l zones = zones * cprS
  · exact .inr (.inl ⟨hpole, nlGrid_of_pole p htable.zones_pos hpole table⟩)
  by_cases h87 : zones = 60 ∧ foldLatitude l zones = 1900544
  · obtain ⟨rfl, hfold⟩ := h87
    exact .inr (.inr (.inl ⟨(htable.degree_87 rfl).trans hfold.symm, nlGrid_of_87 p hfold table⟩))
  · exact .inr (.inr (.inr (nlGrid_of_ordinary p hzero hpole h87 table)))

theorem nlGrid_bounds (htable : ZoneTable zones table) (l : Int) :
    1 ≤ nlGrid p l zones table ∧ nlGrid p l zones table ≤ 60 := by
  have heq := nlEqCount_bounds p.nlEq
  have h87 := nl87Count_bounds p.nl87
  have hlargest := largestZone_bounds table (foldLatitude l zones)
  obtain ⟨-, h⟩ | ⟨-, h⟩ | ⟨-, h⟩ | h := nlGrid_cases p htable l <;> omega

/-- Away from the equator the special points only lower the count that the table gives. -/
theorem nlGrid_le_largestZone (htable : ZoneTable zones table) (hzero : foldLatitude l zones ≠ 0) :
    nlGrid p l zones table ≤ largestZone table (foldLatitude l zones) := by
  obtain ⟨h, -⟩ | ⟨-, h⟩ | ⟨hentry, h⟩ | h := nlGrid_cases p htable l
  · exact absurd h hzero
  · rw [h]
    exact (largestZone_bounds table _).1
  · rw [h]
    exact (nl87Count_bounds p.nl87).2.trans ((htable.le_largestZone_iff _ le_rfl (by decide)).2 hentry.ge)
  · exact h.le

/-- Short of the pole the count is at least what the table gives anywhere nearer to the pole. -/
theorem largestZone_le_nlGrid (htable : ZoneTable zones table) (hpole : 4 * foldLatitude l zones < zones * cprS) {b : Int}
    (hb : foldLatitude l zones < b) : largestZone table b ≤ nlGrid p l zones table := by
  obtain ⟨-, h⟩ | ⟨h, -⟩ | ⟨hentry, h⟩ | h := nlGrid_cases p htable l
  · rw [h]
    exact (largestZone_bounds table b).2.trans (nlEqCount_bounds p.nlEq).1
  · exact absurd h hpole.ne
  · have hpassed : ¬ 2 ≤ largestZone table b := by
      rw [htable.le_largestZone_iff b le_rfl (by decide)]
      omega
    have := (nl87Count_bounds p.nl87).1
    omega
  · rw [h]
    exact htable.largestZone_anti hb.le

/-- R239, fact 2, on a grid: from the equator to the pole the count does not rise. -/
theorem nlGrid_anti (htable : ZoneTable zones table) {a b : Int} (ha : 0 ≤ a) (hab : a ≤ b) (hb : 4 * b ≤ zones * cprS) :
    nlGrid p b zones table ≤ nlGrid p a zones table := by
  obtain rfl | hlt := hab.eq_or_lt
  · rfl
  have hfolda := foldLatitude_of_le_pole ha (show 4 * a ≤ zones * cprS by omega)
  have hfoldb := foldLatitude_of_le_pole (ha.trans hab) hb
  calc nlGrid p b zones table ≤ largestZone table b := by
        simpa only [hfoldb] using nlGrid_le_largestZone p htable (l := b) (by omega)
    _ ≤ nlGrid p a zones table := largestZone_le_nlGrid p htable (by omega) (by omega)

/-- Where the table is read, the count reaches k exactly where the latitude has not passed the entry for k. -/
theorem nlGrid_reads_table (htable : ZoneTable zones table) (hzero : foldLatitude l zones ≠ 0)
    (hpole : 4 * foldLatitude l zones ≠ zones * cprS) (h87 : ¬ (zones = 60 ∧ foldLatitude l zones = 1900544)) :
    1 ≤ nlGrid p l zones table ∧ nlGrid p l zones table ≤ 59 ∧
      ∀ k : Nat, 2 ≤ k → k ≤ 59 → (k ≤ nlGrid p l zones table ↔ foldLatitude l zones ≤ table.getD (k - 2) 0) := by
  rw [nlGrid_of_ordinary p hzero hpole h87]
  obtain ⟨hone, hle⟩ := largestZone_bounds table (foldLatitude l zones)
  refine ⟨hone, hle, fun k hlow hhigh => ?_⟩
  rw [htable.le_largestZone_iff _ hlow hhigh, htable.threshold_eq_getD hlow hhigh 0]

end

/-- Settles O27: on each grid the three special points, and the table elsewhere. -/
theorem zoneCountReadsTheTable : Obligations.ZoneCountReadsTheTable := by
  intro p l
  refine ⟨fun a ha => ?even, fun a ha => ?odd⟩
  case even =>
    rw [← foldLatitude_even] at ha
    subst ha
    exact ⟨fun h => nlGrid_of_equator p h _, fun h => nlGrid_of_pole p (by decide) h _, fun h => nlGrid_of_87 p h _,
      fun hzero hpole h87 => nlGrid_reads_table p zoneTable_even hzero hpole fun h => h87 h.2⟩
  case odd =>
    rw [← foldLatitude_odd] at ha
    subst ha
    exact ⟨fun h => nlGrid_of_equator p h _, fun h => nlGrid_of_pole p (by decide) h _,
      fun hzero hpole => nlGrid_reads_table p zoneTable_odd hzero hpole fun h => absurd h.1 (by decide)⟩

/-- Settles O28: the fold does not see the sign or the side of the pole, and on a grid the count falls within its bounds. -/
theorem zoneCountIsEvenAndFalling : Obligations.ZoneCountIsEvenAndFalling := by
  intro p
  refine ⟨fun l => ⟨nlGrid_congr p (foldLatitude_neg l 60) _, nlGrid_congr p (foldLatitude_neg l 59) _⟩,
    fun l hlow hhigh => ?halfEven, fun l hlow hhigh => ?halfOdd,
    fun a b ha hab hb => nlGrid_anti p zoneTable_even ha hab hb, fun a b ha hab hb => nlGrid_anti p zoneTable_odd ha hab hb,
    fun l => ?bounds⟩
  case halfEven => exact nlGrid_congr p (foldLatitude_half_sub hlow (show l ≤ 60 * 65536 by omega)) _
  case halfOdd => exact nlGrid_congr p (foldLatitude_half_sub hlow (show l ≤ 59 * 65536 by omega)) _
  case bounds =>
    obtain ⟨heven, heven'⟩ := nlGrid_bounds p zoneTable_even l
    obtain ⟨hodd, hodd'⟩ := nlGrid_bounds p zoneTable_odd l
    exact ⟨heven, heven', hodd, hodd'⟩

end Sys2Proof.Machine
end

section
/-! The command CPRD (45_cpr.md R243 to R248): what the whole procedure comes to when the zone counts differ and when they agree,
the longitudes, and the command's answer. -/

namespace Sys2Proof.Machine

/-! ### What the procedure comes to (R242, R246, R247) -/

section
variable (p : CprParams) (xze xzo : Nat) {yze yzo : Nat}

theorem cprDecode_of_bands_differ (odd : Bool) (h : nlEven p (latEven p yze yzo) ≠ nlOdd p (latOdd p yze yzo)) :
    cprDecode p xze yze xzo yzo odd = .band := if_pos h

variable (h : nlEven p (latEven p yze yzo) = nlOdd p (latOdd p yze yzo))
include h

theorem cprDecode_even_of_outside (hl : 60 * cprS < 4 * |latEven p yze yzo|) :
    cprDecode p xze yze xzo yzo false = .latitude :=
  (if_neg (not_not_intro h)).trans (if_pos (decide_eq_true hl))

theorem cprDecode_odd_of_outside (hl : 59 * cprS < 4 * |latOdd p yze yzo|) :
    cprDecode p xze yze xzo yzo true = .latitude :=
  (if_neg (not_not_intro h)).trans (if_pos (decide_eq_true hl))

theorem cprDecode_even_of_within (hl : 4 * |latEven p yze yzo| ≤ 60 * cprS) :
    cprDecode p xze yze xzo yzo false =
      .position (toT32 (latEven p yze yzo) 60)
        (wrap32 (toT32 (lonEven p (nlEven p (latEven p yze yzo)) xze xzo) (lonZonesEven (nlEven p (latEven p yze yzo))))) :=
  (if_neg (not_not_intro h)).trans (if_neg fun hout => hl.not_gt (of_decide_eq_true hout))

theorem cprDecode_odd_of_within (hl : 4 * |latOdd p yze yzo| ≤ 59 * cprS) :
    cprDecode p xze yze xzo yzo true =
      .position (toT32 (latOdd p yze yzo) 59)
        (wrap32 (toT32 (lonOdd p (nlEven p (latEven p yze yzo)) xze xzo) (lonZonesOdd (nlEven p (latEven p yze yzo))))) :=
  (if_neg (not_not_intro h)).trans (if_neg fun hout => hl.not_gt (of_decide_eq_true hout))

end

/-- R246, R247: a position is a latitude within a quarter turn on its grid and a wrapped longitude. -/
theorem cprDecode_eq_position {p : CprParams} {xze yze xzo yzo : Nat} {odd : Bool} {lat32 lon32 : Int}
    (h : cprDecode p xze yze xzo yzo odd = .position lat32 lon32) :
    (∃ l zones, 0 < zones ∧ 4 * |l| ≤ zones * cprS ∧ lat32 = toT32 l zones) ∧ ∃ v, lon32 = wrap32 v := by
  by_cases hband : nlEven p (latEven p yze yzo) = nlOdd p (latOdd p yze yzo)
  · cases odd with
    | false =>
      obtain hl | hl := le_or_gt (4 * |latEven p yze yzo|) (60 * cprS)
      · rw [cprDecode_even_of_within p xze xzo hband hl, CprOutcome.position.injEq] at h
        exact ⟨⟨_, 60, by decide, hl, h.1.symm⟩, _, h.2.symm⟩
      · rw [cprDecode_even_of_outside p xze xzo hband hl] at h
        cases h
    | true =>
      obtain hl | hl := le_or_gt (4 * |latOdd p yze yzo|) (59 * cprS)
      · rw [cprDecode_odd_of_within p xze xzo hband hl, CprOutcome.position.injEq] at h
        exact ⟨⟨_, 59, by decide, hl, h.1.symm⟩, _, h.2.symm⟩
      · rw [cprDecode_odd_of_outside p xze xzo hband hl] at h
        cases h
  · rw [cprDecode_of_bands_differ p xze xzo odd hband] at h
    cases h

/-- Settles O30: the conversion keeps a quarter turn within 2^30, and the wrap is into its interval. -/
theorem decodedPositionRanges : Obligations.DecodedPositionRanges := by
  intro p xze yze xzo yzo odd lat32 lon32 h
  obtain ⟨⟨l, zones, hpos, hl, rfl⟩, v, rfl⟩ := cprDecode_eq_position h
  exact ⟨abs_toT32_le hpos hl, wrap32_bounds v⟩

/-! ### The command (R248, R250) -/

section
variable {xze yze xzo yzo : Nat} {odd : Bool} (s : State)

theorem exec_cprd_of_position {lat32 lon32 : Int}
    (h : cprDecode Config.cprParams xze yze xzo yzo odd = .position lat32 lon32) :
    exec (.cprd xze yze xzo yzo odd) s = .next (respond 0 (packPosition lat32 lon32) s) := by
  rw [exec, execCprd, cprdAt, h, answerCpr]

theorem exec_cprd_of_band (h : cprDecode Config.cprParams xze yze xzo yzo odd = .band) :
    exec (.cprd xze yze xzo yzo odd) s = .next (raise .cprBand s) := by
  rw [exec, execCprd, cprdAt, h, answerCpr]

theorem exec_cprd_of_latitude (h : cprDecode Config.cprParams xze yze xzo yzo odd = .latitude) :
    exec (.cprd xze yze xzo yzo odd) s = .next (raise .cprLat s) := by
  rw [exec, execCprd, cprdAt, h, answerCpr]

end

/-- Settles O24: the band check comes first, then the latitude of the report selected. -/
theorem cprdRejectsBandAndLatitude : Obligations.CprdRejectsBandAndLatitude := by
  intro xze yze xzo yzo odd s
  refine ⟨fun hband => exec_cprd_of_band s (cprDecode_of_bands_differ _ xze xzo odd hband), fun hband hl => ?_⟩
  cases odd with
  | false => exact exec_cprd_of_latitude s (cprDecode_even_of_outside _ xze xzo hband hl)
  | true => exact exec_cprd_of_latitude s (cprDecode_odd_of_outside _ xze xzo hband hl)

/-- R106: the operand pack lies at the low end of the command word. -/
theorem decodeCommand_cprd_fields {c : CommandWord} (hop : c.extractLsb' 136 8 = 0x07) :
    decodeCommand c =
      .ok (.cprd (c.extractLsb' 0 17).toNat (c.extractLsb' 17 17).toNat (c.extractLsb' 34 17).toNat
        (c.extractLsb' 51 17).toNat (c.getLsbD 68)) := by
  rw [decodeCommand_cprd (congrArg BitVec.toNat hop), dXze, dYze, dXzo, dYzo, dParity, cmdD,
    BitVec.extractLsb'_extractLsb'_of_le (by decide), BitVec.extractLsb'_extractLsb'_of_le (by decide),
    BitVec.extractLsb'_extractLsb'_of_le (by decide), BitVec.extractLsb'_extractLsb'_of_le (by decide),
    BitVec.getLsbD_extractLsb']
  rfl

/-- R243 to R245: one zone takes the input as it is, and the recentering is the same for one zone as for more. -/
theorem lonEven_eq_recenter (p : CprParams) (nl xze xzo : Nat) :
    lonEven p nl xze xzo =
      recenter (if nl = 1 then (xze : Int) else addBack (lonZoneIndex p nl xze xzo) (lonZonesEven nl) * cprS + xze)
        (lonZonesEven nl) := by
  obtain rfl | hne := eq_or_ne nl 1
  · rfl
  · rw [lonEven, if_neg hne, if_neg hne, zonePosition]

theorem lonOdd_eq_recenter (p : CprParams) (nl xze xzo : Nat) :
    lonOdd p nl xze xzo =
      recenter (if nl = 1 then (xzo : Int) else addBack (lonZoneIndex p nl xze xzo) (lonZonesOdd nl) * cprS + xzo)
        (lonZonesOdd nl) := by
  obtain rfl | hne := eq_or_ne nl 1
  · rfl
  · rw [lonOdd, if_neg hne, if_neg hne, zonePosition]

theorem toT32_eq (v zones : Int) : toT32 v zones = (2 * (v * 2 ^ 15) + zones) / (2 * zones) := by
  rw [toT32, roundNearest]
  norm_num

theorem wrap32_eq (v : Int) : wrap32 v = (v + 2 ^ 31) % 2 ^ 32 - 2 ^ 31 := by
  rw [wrap32]
  norm_num

/-- Settles O23: the operands are the fields of the pack, and each value of R248's pseudocode is the decoder's. -/
theorem cprdAnswersThePosition : Obligations.CprdAnswersThePosition := by
  refine ⟨fun c hop => decodeCommand_cprd_fields hop, fun xze yze xzo yzo odd s => ?_⟩
  intro z le0 lo0 le lo nl ne no m me0 mo0 me mo l zones v n lat32 lon32 hband hl
  have hlat : toT32 l zones = lat32 := toT32_eq l zones
  have hlon : wrap32 (toT32 v n) = lon32 := by rw [wrap32_eq, toT32_eq]
  have hme : lonEven Config.cprParams nl xze xzo = me := lonEven_eq_recenter _ nl xze xzo
  have hmo : lonOdd Config.cprParams nl xze xzo = mo := lonOdd_eq_recenter _ nl xze xzo
  have hposition : cprDecode Config.cprParams xze yze xzo yzo odd = .position (toT32 l zones) (wrap32 (toT32 v n)) := by
    cases odd with
    | false =>
      exact (cprDecode_even_of_within _ xze xzo hband.symm hl).trans
        (congrArg (fun angle => CprOutcome.position (toT32 l zones) (wrap32 (toT32 angle n))) hme)
    | true =>
      exact (cprDecode_odd_of_within _ xze xzo hband.symm hl).trans
        (congrArg (fun angle => CprOutcome.position (toT32 l zones) (wrap32 (toT32 angle n))) hmo)
  rw [hlat, hlon] at hposition
  exact exec_cprd_of_position s hposition

end Sys2Proof.Machine
end

section
/-! The three host commands that read AJRX's state (46_host_system.md R272, R274, R276): what POPF, WGET and RDSR answer, case by
case of each, and a POPF beside an evaluation of COR (R295). -/

namespace Sys2Proof.Machine

/-! ### POPF -/

section
variable {s : State}

/-- R272: POPF of a queue that holds an entry. -/
theorem exec_popf_of_cons {e : FrameEntry} {rest : List FrameEntry} (h : s.fifo = e :: rest) :
    exec .popf s = .next { s with fifo := rest, rsp := some ⟨.ok, e.ts, e.frame⟩ } :=
  execPopf_cons h

/-- R272: POPF of an empty queue. -/
theorem exec_popf_of_nil (h : s.fifo = []) : exec .popf s = .next { s with rsp := some ⟨.errEmpty, 0, 0⟩ } :=
  execPopf_nil h

end

/-- Settles O41: the queue holds an entry or is empty. -/
theorem popfAnswersTheOldestFrame : Obligations.PopfAnswersTheOldestFrame :=
  ⟨fun _ hop => decodeCommand_popf (congrArg BitVec.toNat hop), fun _ =>
    ⟨fun _ _ hf => exec_popf_of_cons hf, fun hf => exec_popf_of_nil hf⟩⟩

/-! ### WGET -/

/-- WGET's index is the lowest 16 bits of its command word (R83). -/
theorem dIndex_cmdD (c : CommandWord) : dIndex (cmdD c) = (c.extractLsb' 0 16).toNat := by
  rw [dIndex, cmdD, BitVec.extractLsb'_extractLsb'_of_le (by decide)]

section
variable {s : State} {i : Nat}

theorem exec_wget_of_outside (h : 1200 ≤ i) : exec (.wget i) s = .next (raise .errArg s) := by
  rw [exec, execWget, if_pos h]

theorem exec_wget_of_missing (hi : i < 1200) (h : s.w.length ≤ i) : exec (.wget i) s = .next (raise .errNotAvail s) := by
  rw [exec, execWget, if_neg hi.not_ge, if_pos h]

/-- R144, R274: the entry at the index, as a number. -/
theorem exec_wget_of_getElem? (hi : i < 1200) {v : Power} (h : s.w[i]? = some v) :
    exec (.wget i) s = .next (respond 0 (BitVec.ofNat 112 v.toNat) s) := by
  obtain ⟨hlen, -⟩ := List.getElem?_eq_some_iff.1 h
  have hget : windowGet s i = v.toNat := by rw [windowGet, List.getD_eq_getElem?_getD, h, Option.getD_some]
  rw [exec, execWget, if_neg hi.not_ge, if_neg hlen.not_ge, hget]

end

/-- Settles O42: the index is outside the window size, at COUNT or above, or that of an entry. -/
theorem wgetAnswersTheEntry : Obligations.WgetAnswersTheEntry := by
  refine ⟨fun c hop => ?decode, fun s i =>
    ⟨exec_wget_of_outside, exec_wget_of_missing, fun _ hi h => exec_wget_of_getElem? hi h⟩⟩
  case decode => rw [decodeCommand_wget (congrArg BitVec.toNat hop), dIndex_cmdD]

/-! ### RDSR -/

section
variable {s : State} {n : Nat}

/-- R276: RDSR of a register that exists. -/
theorem exec_rdsr_of_some {v : Word64} (h : statusRegister n s = some v) :
    exec (.rdsr n) s = .next (respond 0 (BitVec.ofNat 112 v.toNat) s) := by
  simp only [exec, execRdsr, h, BitVec.ofNat_toNat]

theorem exec_rdsr_of_none (h : statusRegister n s = none) : exec (.rdsr n) s = .next (raise .errArg s) := by
  simp only [exec, execRdsr, h]

/-- R33: there are six status registers. -/
theorem statusRegister_of_ge (h : 6 ≤ n) : statusRegister n s = none := by
  obtain ⟨k, rfl⟩ := Nat.exists_eq_add_of_le' h
  rfl

end

/-- Settles O43: COUNT and FCNT are read modulo 2^64, and PREV's 29 bits whole. -/
theorem rdsrAnswersTheRegister : Obligations.RdsrAnswersTheRegister := by
  refine ⟨fun c hop => decodeCommand_rdsr (congrArg BitVec.toNat hop), fun s =>
    ⟨exec_rdsr_of_some rfl, exec_rdsr_of_some rfl, ?count, ?prev, ?fcnt, exec_rdsr_of_some (v := Config.idConstant) rfl,
      fun n hn => exec_rdsr_of_none (statusRegister_of_ge hn)⟩⟩
  case count =>
    rw [exec_rdsr_of_some rfl, BitVec.toNat_ofNat]
    rfl
  case prev =>
    rw [exec_rdsr_of_some rfl, BitVec.toNat_setWidth_of_le (by decide)]
    rfl
  case fcnt =>
    rw [exec_rdsr_of_some rfl, BitVec.toNat_ofNat]
    rfl

/-! ### POPF beside an evaluation of COR (R295) -/

theorem corEval_of_none {s : State} (h : candidateFrame (windowGet s) s.prev.toNat = none) : corEval s = rejectPosition s := by
  rw [corEval, h]

theorem corEval_of_some {s : State} {frame : Wide} (h : candidateFrame (windowGet s) s.prev.toNat = some frame) :
    corEval s = acceptFrame frame s := by
  rw [corEval, h]

/-- R271, R295: an evaluation works at the queue's tail and reads neither the queue nor the response, so that it leaves the head
entry first in line and does the same where that entry has been popped. -/
theorem corTurnAt_of_popped {depth : FifoDepth} {s : State} {e : FrameEntry} {rest : List FrameEntry}
    (hr : corReadyAt depth s = true) (hf : s.fifo = e :: rest) (answer : Option Response) :
    ∃ queue, (corTurnAt depth s).fifo = e :: queue ∧
      corTurnAt depth { s with fifo := rest, rsp := answer } =
        { corTurnAt depth s with fifo := queue, rsp := answer } := by
  obtain ⟨hfull, hroom⟩ := (corReadyAt_iff depth s).1 hr
  have hroom' : ∀ d, depth = some d → rest.length < d.val := fun d hd => by
    have hlen := hroom d hd
    rw [hf, List.length_cons] at hlen
    omega
  rw [corTurnAt_of_enabled (s := { s with fifo := rest, rsp := answer }) hfull hroom', corTurnAt_of_enabled hfull hroom]
  rcases hc : candidateFrame (windowGet s) s.prev.toNat with _ | frame
  · rw [corEval_of_none hc, corEval_of_none (s := { s with fifo := rest, rsp := answer }) hc]
    exact ⟨rest, hf, rfl⟩
  · rw [corEval_of_some hc, corEval_of_some (s := { s with fifo := rest, rsp := answer }) hc]
    exact ⟨rest ++ [⟨timestampNow s, frame⟩], by rw [acceptFrame_fifo, hf, List.cons_append], rfl⟩

/-- Settles O49: the head entry is the same before and after the evaluation. -/
theorem evaluationAndPopfCommute : Obligations.EvaluationAndPopfCommute := by
  intro depth s t hr hne ht
  obtain ⟨e, rest, hf⟩ := List.exists_cons_of_ne_nil hne
  rw [exec_popf_of_cons hf] at ht
  injection ht with ht
  obtain ⟨queue, hqueue, hcor⟩ := corTurnAt_of_popped hr hf (some ⟨.ok, e.ts, e.frame⟩)
  rw [exec_popf_of_cons hqueue, ← ht, hcor]

end Sys2Proof.Machine
end

section
/-! The order of the queued timestamps (46_host_system.md R271; 42_correlator_slicer.md R169, R171): each kind of update keeps it,
as long as POS does not wrap, so every step does. -/

namespace Sys2Proof.Machine

/-- An update that does not move POS back, and at most takes entries off the head of the FIFO. -/
theorem TimestampsOrdered.of_suffix {s t : State} (h : TimestampsOrdered s) (hpos : s.pos.toNat ≤ t.pos.toNat)
    (hf : t.fifo <:+ s.fifo) : TimestampsOrdered t where
  belowPosition := fun e he => by
    obtain ⟨hmul, hbelow⟩ := h.belowPosition e (hf.subset he)
    exact ⟨hmul, by omega⟩
  spaced := h.spaced.sublist hf.sublist

theorem timestampsOrdered_of_empty {t : State} (h : t.fifo = []) : TimestampsOrdered t where
  belowPosition := by simp [h]
  spaced := by simp [h]

/-- R22: POS moved on by `n` without a wrap. -/
theorem toNat_pos_add {pos : Word64} {n : Nat} (h : pos.toNat + n < 2 ^ 64) :
    (pos + BitVec.ofNat 64 n).toNat = pos.toNat + n := by
  rw [BitVec.toNat_add, BitVec.toNat_ofNat, Nat.add_mod_mod, Nat.mod_eq_of_lt h]

/-- R169: as long as POS*100 does not wrap, the timestamp found now is that number. -/
theorem timestampNow_toNat {s : State} (h : s.pos.toNat * 100 < 2 ^ 64) : (timestampNow s).toNat = s.pos.toNat * 100 := by
  rw [timestampNow, BitVec.toNat_mul, BitVec.toNat_ofNat]
  exact Nat.mod_eq_of_lt h

/-- R169, R171: the new timestamp is 100 times a position that POS then lies 1200 above, and the timestamps queued before it lie
120 000 below it. -/
theorem TimestampsOrdered.of_acceptFrame {s : State} (h : TimestampsOrdered s) (hwrap : 100 * s.pos.toNat + 120000 < 2 ^ 64)
    (frame : Wide) : TimestampsOrdered (acceptFrame frame s) := by
  have hts : (timestampNow s).toNat = s.pos.toNat * 100 := timestampNow_toNat (by omega)
  have hpos : (acceptFrame frame s).pos.toNat = s.pos.toNat + 1200 := by
    rw [acceptFrame_pos]
    exact toNat_pos_add (n := 1200) (by omega)
  have hbefore : ∀ e ∈ s.fifo, e.ts.toNat + 120000 ≤ (timestampNow s).toNat := fun e he => by
    have hbelow := (h.belowPosition e he).2
    omega
  constructor
  case belowPosition =>
    rw [acceptFrame_fifo, hpos]
    intro e he
    rcases List.mem_append.1 he with he | he
    · obtain ⟨hmul, hbelow⟩ := h.belowPosition e he
      exact ⟨hmul, by omega⟩
    · obtain rfl := List.mem_singleton.1 he
      rw [hts]
      exact ⟨Nat.mul_mod_left _ _, by omega⟩
  case spaced =>
    rw [acceptFrame_fifo, List.pairwise_append]
    exact ⟨h.spaced, List.pairwise_singleton _ _, fun e he f hf => List.mem_singleton.1 hf ▸ hbefore e he⟩

theorem TimestampsOrdered.of_corTurn {s : State} (h : TimestampsOrdered s) (hwrap : 100 * s.pos.toNat + 120000 < 2 ^ 64)
    (depth : FifoDepth) : TimestampsOrdered (corTurnAt depth s) := by
  rcases corTurnAt_cases depth s with ⟨_, hs⟩ | ⟨_, _, hs⟩ | ⟨frame, _, _, hs⟩
  · rw [hs]
    exact h
  · have hpos : (rejectPosition s).pos.toNat = s.pos.toNat + 1 := toNat_pos_add (n := 1) (by omega)
    rw [hs]
    exact h.of_suffix (by omega) (List.suffix_refl _)
  · rw [hs]
    exact h.of_acceptFrame hwrap frame

/-- Settles O57, by the cases of a step: a reset empties the queue, COR's turn appends to it, and POPF takes its head. -/
theorem stepKeepsTimestampsOrdered : Obligations.StepKeepsTimestampsOrdered := by
  intro s t hordered hwrap hstep
  rcases step_next_cases hstep with ⟨_, rfl⟩ | ⟨_, rfl⟩ | ⟨_, _, rfl⟩ | ⟨b, bs, _, _, _, _, rfl⟩ |
    ⟨b, bs, _, _, _, _, rfl⟩ | ⟨_, _, rfl⟩ | ⟨c, cs, _, _, r, rfl⟩
  · -- reset
    exact timestampsOrdered_of_empty rfl
  · -- COR
    have hturn : TimestampsOrdered (takeTurn s).2 := hordered.of_suffix (by simp) (by simp)
    exact hturn.of_corTurn (by simpa using hwrap) _
  all_goals -- SRC and HOST
    exact hordered.of_suffix (by simp) (by simp [popped_suffix])

end Sys2Proof.Machine
end

section
/-! The token `$F` over a program's lines (30_encoding.md R95; 46_host_system.md R273): the line POPF sets it, no other line touches
it, and the frame it stands for has CRC 0. -/

namespace Sys2Proof.Machine

/-! ### The line POPF -/

/-- R95, R272: the line POPF with a queued entry is one step, which answers the entry and makes `$F` its frame. -/
theorem runLine_popf {b : Bench} {e : FrameEntry} {rest : List FrameEntry} (hf : b.machine.fifo = e :: rest) :
    runLine (.command .popf) b =
      some {
        machine := { b.machine with tick := b.machine.tick + 1, fifo := rest, rsp := some ⟨.ok, e.ts, e.frame⟩ }
        popped := some e.frame } := by
  have hfit : CommandFields.fit ⟨8, 0, 0, 0, 0⟩ = true :=
    fit_of_lt (by decide) (by decide) (by decide) (by decide) (by decide)
  have hword : Command.popf.assemble b.tokens = some (CommandFields.word ⟨8, 0, 0, 0, 0⟩) :=
    (assemble_eq_some_iff _ _ _).2 ⟨_, rfl, hfit, rfl⟩
  have hdecode : decodeCommand (CommandFields.word ⟨8, 0, 0, 0, 0⟩) = .ok .popf := decodeCommand_popf (word_fields hfit).1
  rw [runLine, runCommand, hword]
  simp only [presentWord_of_decodeCommand hdecode, exec_popf_of_cons (s := { b.machine with tick := b.machine.tick + 1 }) hf,
    nextState_next, Option.map_some, poppedFrame_popf hdecode]

/-! ### The lines that leave `$F` -/

section
variable {b u : Bench}

theorem popped_of_presentWord {w : CommandWord} (hw : decodeCommand w ≠ .ok .popf) (h : presentWord w b = some u) :
    u.popped = b.popped := by
  unfold presentWord at h
  split at h
  · obtain rfl := Option.some.inj h
    exact poppedFrame_of_not_popf hw _ _
  · cases h

theorem popped_of_runCommand {c : Command} (hc : c ≠ .popf) (h : runCommand c b = some u) : u.popped = b.popped := by
  unfold runCommand at h
  split at h
  · next w hw => exact popped_of_presentWord (fun hd => hc (decode_assemble_popf hw hd)) h
  · cases h

theorem popped_of_runCommands {cs : List Command} (hcs : Command.popf ∉ cs) (h : runCommands cs b = some u) :
    u.popped = b.popped := by
  induction cs generalizing b with
  | nil =>
    obtain rfl := Option.some.inj h
    rfl
  | cons c rest ih =>
    obtain ⟨hc, hrest⟩ := List.ne_and_not_mem_of_not_mem_cons hcs
    unfold runCommands at h
    split at h
    · next b' hb' => exact (ih hrest h).trans (popped_of_runCommand hc.symm hb')
    · cases h

/-- R97: a pseudo-command expands to byte and bit commands alone. -/
theorem popf_not_mem_expansion (p : Pseudo) : Command.popf ∉ p.expansion := by
  cases p <;> simp [Pseudo.expansion]

/-- R95: a line that is no POPF, written as a command or as a word, leaves `$F`. -/
theorem popped_of_runLine {line : Line} (hcommand : line ≠ .command .popf)
    (hraw : ∀ w, line = .raw w → decodeCommand w ≠ .ok .popf) (h : runLine line b = some u) : u.popped = b.popped := by
  cases line with
  | command c => exact popped_of_runCommand (fun hc => hcommand (congrArg Line.command hc)) h
  | raw w => exact popped_of_presentWord (hraw w rfl) h
  | pseudo p => exact popped_of_runCommands (popf_not_mem_expansion p) h
  | feed bytes => obtain rfl := Option.some.inj h; rfl
  | last => obtain rfl := Option.some.inj h; rfl
  | settle => obtain rfl := Option.some.inj h; rfl
  | comment => obtain rfl := Option.some.inj h; rfl

theorem popped_of_runLines {lines : List Line}
    (hlines : ∀ line ∈ lines, line ≠ .command .popf ∧ ∀ w, line = .raw w → decodeCommand w ≠ .ok .popf)
    (h : runLines lines b = some u) : u.popped = b.popped := by
  induction lines generalizing b with
  | nil =>
    obtain rfl := Option.some.inj h
    rfl
  | cons line rest ih =>
    obtain ⟨⟨hcommand, hraw⟩, hrest⟩ := List.forall_mem_cons.1 hlines
    unfold runLines at h
    split at h
    · next b' hb' => exact (ih hrest h).trans (popped_of_runLine hcommand hraw hb')
    · cases h

end

/-! ### The line `CRC $F` -/

/-- R95, R273: `$F` is a buffer of 14 bytes. -/
theorem runLine_crc_dollarF {u : Bench} {frame : Wide} (hpopped : u.popped = some frame)
    (hcrc : crc24 (bufBytes 14 frame) = 0) : runLine (.command (.crc .dollarF)) u = some (u.answered 1 0) := by
  have hfield : BufferOperand.dollarF.field u.tokens = some (14, frame) := by
    rw [field_dollarF, tokens_dollarF, hpopped, Option.map_some]
  rw [runLine, runCommand_crc hfield le_rfl, hcrc]
  rfl

/-- Settles O58: a queued entry of a good state has CRC 0, and `$F` is its frame from the line POPF on. -/
theorem poppedFrameHasZeroCrc : Obligations.PoppedFrameHasZeroCrc := by
  intro b e rest hgood hf
  refine ⟨_, runLine_popf hf, rfl, rfl, fun lines u hlines hrun => ?_⟩
  have hpopped : u.popped = some e.frame := popped_of_runLines hlines hrun
  have hcrc : crc24 (bufBytes 14 e.frame) = 0 := (hgood.framesValid e (hf ▸ List.mem_cons_self)).2
  exact ⟨hpopped, runLine_crc_dollarF hpopped hcrc⟩

end Sys2Proof.Machine
end

section
/-! How a command ends (60_exceptions.md R290 to R298): with OK, or raising a status other than OK, which changes nothing but the
response; which commands answer ERR_ARG, and when; and the next state that every operation and every step has. -/

namespace Sys2Proof.Machine

/-! ### OK or raise (R296) -/

/-- R8, R296: the outcome `r` of the command `i` in state `s` is an answer with status OK, with a queue that only POPF has changed,
or the state with a status other than OK raised. -/
def EndsCommand (i : Instr) (s : State) (r : Host.Outcome State Fault Refusal) : Prop :=
  (∃ t x f, r = .next (respond t x { s with fifo := f }) ∧ (i ≠ .popf → f = s.fifo)) ∨
  ∃ status, status ≠ .ok ∧ r = .next (raise status s)

section
variable (i : Instr) (s : State)

theorem endsCommand_respond (t : Word64) (x : Wide) : EndsCommand i s (.next (respond t x s)) :=
  .inl ⟨t, x, s.fifo, rfl, fun _ => rfl⟩

theorem endsCommand_raise {status : Status} (h : status ≠ .ok) : EndsCommand i s (.next (raise status s)) :=
  .inr ⟨status, h, rfl⟩

theorem endsCommand_of_guard (c : Prop) [Decidable c] (x : Wide) :
    EndsCommand i s (if c then .next (respond 0 x s) else .next (raise .errArg s)) := by
  by_cases hc : c
  · rw [if_pos hc]
    exact endsCommand_respond i s 0 x
  · rw [if_neg hc]
    exact endsCommand_raise i s (by decide)

theorem endsCommand_answerCpr (outcome : CprOutcome) : EndsCommand i s (.next (answerCpr outcome s)) := by
  cases outcome with
  | position lat32 lon32 => exact endsCommand_respond i s 0 _
  | band => exact endsCommand_raise i s (by decide)
  | latitude => exact endsCommand_raise i s (by decide)

/-- R272: POPF is the one command that answers with a queue changed. -/
theorem endsCommand_popf : EndsCommand .popf s (exec .popf s) := by
  rcases hf : s.fifo with _ | ⟨e, rest⟩
  · rw [exec_popf_of_nil hf]
    exact endsCommand_raise _ s (status := .errEmpty) (by decide)
  · rw [exec_popf_of_cons hf]
    exact .inl ⟨e.ts, e.frame, rest, rfl, fun h => absurd rfl h⟩

theorem endsCommand_wget (k : Nat) : EndsCommand (.wget k) s (exec (.wget k) s) := by
  rcases Nat.lt_or_ge k 1200 with hk | hk
  · rcases hv : s.w[k]? with _ | v
    · rw [exec_wget_of_missing hk (List.getElem?_eq_none_iff.1 hv)]
      exact endsCommand_raise _ s (by decide)
    · rw [exec_wget_of_getElem? hk hv]
      exact endsCommand_respond _ s 0 _
  · rw [exec_wget_of_outside hk]
    exact endsCommand_raise _ s (by decide)

theorem endsCommand_rdsr (n : Nat) : EndsCommand (.rdsr n) s (exec (.rdsr n) s) := by
  rcases hv : statusRegister n s with _ | v
  · rw [exec_rdsr_of_none hv]
    exact endsCommand_raise _ s (by decide)
  · rw [exec_rdsr_of_some hv]
    exact endsCommand_respond _ s 0 _

end

/-- R296: every command ends with OK or raises a status. -/
theorem exec_endsCommand {i : Instr} (h : i.isCommand = true) (s : State) : EndsCommand i s (exec i s) := by
  cases i with
  | xtru start size value => exact endsCommand_of_guard _ s _ _
  | tbit index value => exact endsCommand_of_guard _ s _ _
  | blen n buf => exact endsCommand_of_guard _ s _ _
  | bat index n buf => exact endsCommand_of_guard _ s _ _
  | brng lower upper n buf => exact endsCommand_of_guard _ s _ _
  | crc n buf => exact endsCommand_of_guard _ s _ _
  | cprd xze yze xzo yzo p => exact endsCommand_answerCpr _ s _
  | popf => exact endsCommand_popf s
  | wget k => exact endsCommand_wget s k
  | rdsr n => exact endsCommand_rdsr s n
  | inByte d => cases h
  | inLast => cases h

/-- Settles O46: an answer changes the response and POPF's queue, and a raise the response. -/
theorem commandsDoNotDisturbTheStream : Obligations.CommandsDoNotDisturbTheStream := by
  intro i s t hcommand ht
  rcases exec_endsCommand hcommand s with ⟨ts, x, f, h, hf⟩ | ⟨status, -, h⟩
  · obtain rfl : t = respond ts x { s with fifo := f } := Host.Outcome.next.inj (ht.symm.trans h)
    exact ⟨rfl, rfl, hf⟩
  · obtain rfl : t = raise status s := Host.Outcome.next.inj (ht.symm.trans h)
    exact ⟨rfl, rfl, fun _ => rfl⟩

/-- Settles O47: a command whose status is not OK has raised it. -/
theorem failingCommandChangesNothing : Obligations.FailingCommandChangesNothing := by
  intro i s t r hcommand ht hr hfail
  rcases exec_endsCommand hcommand s with ⟨ts, x, f, h, -⟩ | ⟨status, -, h⟩
  · obtain rfl : t = respond ts x { s with fifo := f } := Host.Outcome.next.inj (ht.symm.trans h)
    obtain rfl := Option.some.inj hr
    exact absurd rfl hfail
  · obtain rfl : t = raise status s := Host.Outcome.next.inj (ht.symm.trans h)
    obtain rfl := Option.some.inj hr
    rfl

/-! ### ERR_ARG (R291) -/

section
variable (s : State)

/-- R84: states that present different responses are different. -/
theorem next_ne_errArg {t : State} (h : t.rsp ≠ some ⟨.errArg, 0, 0⟩) :
    (.next t : Host.Outcome State Fault Refusal) ≠ .next (raise .errArg s) := fun heq =>
  h (congrArg (fun u : State => u.rsp) (Host.Outcome.next.inj heq))

theorem next_respond_ne_errArg (t : Word64) (x : Wide) (u : State) :
    (.next (respond t x u) : Host.Outcome State Fault Refusal) ≠ .next (raise .errArg s) :=
  next_ne_errArg s (by simp)

theorem next_raise_ne_errArg {status : Status} (h : status ≠ .errArg) :
    (.next (raise status s) : Host.Outcome State Fault Refusal) ≠ .next (raise .errArg s) :=
  next_ne_errArg s (by simpa using h)

/-- A command that answers under a condition `c` on its operands and refuses them otherwise. -/
theorem guard_eq_errArg_iff (c : Prop) [Decidable c] (x : Wide) :
    (if c then (.next (respond 0 x s) : Host.Outcome State Fault Refusal) else .next (raise .errArg s)) =
      .next (raise .errArg s) ↔ ¬ c := by
  by_cases hc : c
  · rw [if_pos hc]
    exact iff_of_false (next_respond_ne_errArg s 0 x s) (not_not_intro hc)
  · rw [if_neg hc]
    exact iff_of_true rfl hc

/-- R276: RDSR answers from the six registers and no others. -/
theorem statusRegister_eq_none_iff (n : Nat) : statusRegister n s = none ↔ 6 ≤ n := by
  refine ⟨fun h => ?_, statusRegister_of_ge⟩
  by_contra hn
  interval_cases n <;> cases h

theorem exec_xtru_eq_errArg_iff (start size : Nat) (value : Word64) :
    exec (.xtru start size value) s = .next (raise .errArg s) ↔ size = 0 ∨ 32 ≤ size ∨ 64 < start + size := by
  refine (guard_eq_errArg_iff s _ _).trans ?_
  rw [validField_iff]
  omega

theorem exec_tbit_eq_errArg_iff (index : Nat) (value : Word64) :
    exec (.tbit index value) s = .next (raise .errArg s) ↔ 64 ≤ index :=
  (guard_eq_errArg_iff s _ _).trans Nat.not_lt

theorem exec_blen_eq_errArg_iff (n : Nat) (buf : Wide) : exec (.blen n buf) s = .next (raise .errArg s) ↔ 14 < n := by
  refine (guard_eq_errArg_iff s _ _).trans ?_
  rw [validLength_iff, Nat.not_le]

theorem exec_bat_eq_errArg_iff (index n : Nat) (buf : Wide) :
    exec (.bat index n buf) s = .next (raise .errArg s) ↔ 14 < n ∨ n ≤ index := by
  refine (guard_eq_errArg_iff s _ _).trans ?_
  rw [Bool.and_eq_true, validLength_iff, decide_eq_true_iff]
  omega

theorem exec_brng_eq_errArg_iff (lower upper n : Nat) (buf : Wide) :
    exec (.brng lower upper n buf) s = .next (raise .errArg s) ↔
      14 < n ∨ upper < lower ∨ n < upper ∨ 7 < upper - lower := by
  refine (guard_eq_errArg_iff s _ _).trans ?_
  rw [Bool.and_eq_true, validLength_iff, validRange_iff]
  omega

theorem exec_crc_eq_errArg_iff (n : Nat) (buf : Wide) : exec (.crc n buf) s = .next (raise .errArg s) ↔ 14 < n := by
  refine (guard_eq_errArg_iff s _ _).trans ?_
  rw [validLength_iff, Nat.not_le]

/-- R274: below 1200 WGET answers the entry or raises ERR_NOT_AVAIL. -/
theorem exec_wget_eq_errArg_iff (k : Nat) : exec (.wget k) s = .next (raise .errArg s) ↔ 1200 ≤ k := by
  refine ⟨fun h => ?_, exec_wget_of_outside⟩
  by_contra hk
  rw [Nat.not_le] at hk
  rcases hv : s.w[k]? with _ | v
  · exact next_raise_ne_errArg s (by decide) ((exec_wget_of_missing hk (List.getElem?_eq_none_iff.1 hv)).symm.trans h)
  · exact next_respond_ne_errArg s _ _ _ ((exec_wget_of_getElem? hk hv).symm.trans h)

theorem exec_rdsr_eq_errArg_iff (n : Nat) : exec (.rdsr n) s = .next (raise .errArg s) ↔ 6 ≤ n := by
  rw [← statusRegister_eq_none_iff s n]
  rcases hv : statusRegister n s with _ | v
  · exact iff_of_true (exec_rdsr_of_none hv) rfl
  · rw [exec_rdsr_of_some hv]
    exact iff_of_false (next_respond_ne_errArg s _ _ _) (Option.some_ne_none v)

/-- R250: CPRD refuses no operand; what it raises is CPR_BAND or CPR_LAT. -/
theorem exec_cprd_ne_errArg (xze yze xzo yzo : Nat) (odd : Bool) :
    exec (.cprd xze yze xzo yzo odd) s ≠ .next (raise .errArg s) := by
  rcases h : cprDecode Config.cprParams xze yze xzo yzo odd with ⟨lat32, lon32⟩ | _ | _
  · rw [exec_cprd_of_position s h]
    exact next_respond_ne_errArg s _ _ _
  · rw [exec_cprd_of_band s h]
    exact next_raise_ne_errArg s (by decide)
  · rw [exec_cprd_of_latitude s h]
    exact next_raise_ne_errArg s (by decide)

/-- R272: POPF has no operand; what it raises is ERR_EMPTY. -/
theorem exec_popf_ne_errArg : exec .popf s ≠ .next (raise .errArg s) := by
  rcases hf : s.fifo with _ | ⟨e, rest⟩
  · rw [exec_popf_of_nil hf]
    exact next_raise_ne_errArg s (status := .errEmpty) (by decide)
  · rw [exec_popf_of_cons hf]
    exact next_respond_ne_errArg s e.ts e.frame { s with fifo := rest }

end

/-- Settles O16: R291's table, command by command. -/
theorem errArgConditions : Obligations.ErrArgConditions := fun s =>
  ⟨exec_xtru_eq_errArg_iff s, exec_tbit_eq_errArg_iff s, exec_blen_eq_errArg_iff s, exec_bat_eq_errArg_iff s,
    exec_brng_eq_errArg_iff s, exec_crc_eq_errArg_iff s, exec_wget_eq_errArg_iff s, exec_rdsr_eq_errArg_iff s,
    exec_cprd_ne_errArg s, exec_popf_ne_errArg s⟩

/-! ### A next state, always (R292, R298) -/

/-- R292: an operation has an effect on AJRX's state, whatever the inputs are. -/
theorem exec_has_next (i : Instr) (s : State) : ∃ t, exec i s = .next t := by
  obtain ⟨a, h, -⟩ := exec_inputs i s.toAjrx s.toInputs s.toInputs
  exact ⟨⟨a, s.toInputs⟩, h⟩

/-- R9, R292: whatever a step does, it is a reset, COR's turn, an idle turn, a refused opcode or an operation. -/
theorem step_has_next (s : State) : ∃ t, step s = .next t := by
  rcases step_cases (s := s) rfl with ⟨_, h⟩ | ⟨_, h⟩ | ⟨_, _, h⟩ | ⟨b, bs, _, _, h⟩ | ⟨_, _, h⟩ | ⟨c, cs, err, _, _, _, h⟩ |
    ⟨c, cs, i, _, _, _, h⟩
  · -- reset
    exact ⟨_, h⟩
  · -- COR
    exact ⟨_, h⟩
  · -- SRC, nothing on offer
    exact ⟨_, h⟩
  · -- SRC, a beat
    rw [h]
    exact exec_has_next _ _
  · -- HOST, nothing on offer
    exact ⟨_, h⟩
  · -- HOST, a reserved opcode
    exact ⟨_, h⟩
  · -- HOST, a command
    rw [h]
    exact exec_has_next _ _

/-- Settles O7: every operation has a next state, and a step without one is a reset, COR's turn or idle, or refuses an opcode. -/
theorem everyStepHasANextState : Obligations.EveryStepHasANextState := ⟨exec_has_next, step_has_next⟩

end Sys2Proof.Machine
end

section
/-! The reset (10_state.md R38, 70_reset_and_hazards.md R320): the outputs and STATUS right after it. -/

namespace Sys2Proof.Machine

/-- R30: an empty queue is not full, since FIFO_DEPTH is at least 1. -/
theorem ffullFlagAt_of_empty (depth : FifoDepth) {s : State} (h : s.fifo = []) : ffullFlagAt depth s = false := by
  by_contra hfull
  rw [Bool.not_eq_false, ffullFlagAt, fifoIsFull_iff] at hfull
  obtain ⟨d, -, hd⟩ := hfull
  have hpos : 1 ≤ d.val := d.property
  rw [fcnt, h, List.length_nil] at hd
  omega

/-- R32, R38: STATUS reads 0 after a reset, whatever FIFO_DEPTH is. -/
theorem statusWordAt_resetState (depth : FifoDepth) (s : State) : statusWordAt depth (resetState s) = 0 := by
  have hfull : ffullFlagAt depth (resetState s) = false := ffullFlagAt_of_empty depth (resetState_fifo s)
  have hne : fneFlag (resetState s) = false := rfl
  have hdone : doneFlag (resetState s) = false := rfl
  rw [statusWordAt, hfull, hne, hdone, resetState_sph, resetState_bph, resetState_srng, resetState_eos]
  decide

/-- Settles O8: a reset loads AJRX's reset state, and of the outputs only STATUS depends on more than that state, on FIFO_DEPTH. -/
theorem resetRestoresEveryField : Obligations.ResetRestoresEveryField := by
  intro s ts hturn
  refine ⟨_, step_of_turns_cons hturn, ?_⟩
  exact ⟨rfl, rfl, rfl, rfl, rfl, rfl, rfl, rfl, rfl, rfl, rfl, rfl, rfl, rfl, rfl, rfl, statusWordAt_resetState _ _⟩

end Sys2Proof.Machine
end

section
/-! The frames that R174's loop puts out (70_reset_and_hazards.md R337, R338; 42_correlator_slicer.md R175): none from a stream
without a whole window, and any two at least a window apart. -/

namespace Sys2Proof.Machine

/-- R338: the timestamps put out are 120 000 ns apart and lie at least as far below the position the loop has come to. -/
structure OutputsSpaced (d : DemodState) : Prop where
  belowPosition : ∀ e ∈ d.out, e.ts.toNat + 120000 ≤ 100 * d.p
  spaced : d.out.Pairwise fun e f => e.ts.toNat + 120000 ≤ f.ts.toNat

theorem outputsSpaced_demodStart : OutputsSpaced demodStart where
  belowPosition := by simp [demodStart]
  spaced := .nil

section
variable {d : DemodState} (h : OutputsSpaced d)
include h

/-- R170: a rejection puts out nothing and moves the position on. -/
theorem OutputsSpaced.of_rejection (prev : Nat) : OutputsSpaced ⟨d.out, d.p + 1, prev⟩ where
  belowPosition := fun e he => (h.belowPosition e he).trans (Nat.mul_le_mul_left 100 (Nat.le_succ d.p))
  spaced := h.spaced

/-- R169, R171: an acceptance puts out the timestamp of the position, which lies 1200 below the position after it. -/
theorem OutputsSpaced.of_acceptance (hwrap : d.p * 100 < 2 ^ 64) (frame : Wide) (prev : Nat) :
    OutputsSpaced ⟨d.out ++ [⟨BitVec.ofNat 64 (d.p * 100), frame⟩], d.p + 1200, prev⟩ := by
  have hts : (BitVec.ofNat 64 (d.p * 100)).toNat = d.p * 100 :=
    (BitVec.toNat_ofNat _ _).trans (Nat.mod_eq_of_lt hwrap)
  constructor
  case belowPosition =>
    intro e he
    rcases List.mem_append.1 he with he | he
    · have hbelow := h.belowPosition e he
      dsimp only
      omega
    · obtain rfl := List.mem_singleton.1 he
      dsimp only
      omega
  case spaced =>
    refine List.pairwise_append.2 ⟨h.spaced, List.pairwise_singleton _ _, fun e he f hf => ?_⟩
    obtain rfl := List.mem_singleton.1 hf
    have hbelow := h.belowPosition e he
    dsimp only
    omega

theorem OutputsSpaced.of_demodStep (hwrap : d.p * 100 < 2 ^ 64) (powers : List Nat) :
    OutputsSpaced (demodStep powers d) := by
  rcases hc : candidateFrame (windowAt powers d.p) d.prev with _ | frame
  · rw [demodStep_of_none hc]
    exact h.of_rejection _
  · rw [demodStep_of_some hc]
    exact h.of_acceptance hwrap frame 0

end

/-- The loop evaluates positions below the end of the power sequence only, whose timestamps do not wrap. -/
theorem OutputsSpaced.of_demodLoop {powers : List Nat} (hwrap : powers.length * 100 < 2 ^ 64) (k : Nat) {d : DemodState}
    (h : OutputsSpaced d) : OutputsSpaced (demodLoop k powers d) := by
  induction k generalizing d with
  | zero => exact h
  | succ k ih =>
    rw [demodLoop]
    split
    · next hwindow => exact ih (h.of_demodStep (by omega) powers)
    · exact h

/-- R337: a power sequence that holds no whole window is left at its start. -/
theorem demod_of_short {powers : List Nat} (h : powers.length < 1200) : demod powers = demodStart :=
  demodLoop_of_short (by simpa [demodStart] using h) _

/-- Settles O59: the loop has no window to evaluate, or keeps its outputs spaced. -/
theorem demodFramesDoNotOverlap : Obligations.DemodFramesDoNotOverlap := fun powers =>
  ⟨fun hshort => by rw [demod_of_short hshort]; rfl, fun hwrap => (outputsSpaced_demodStart.of_demodLoop hwrap _).spaced⟩

end Sys2Proof.Machine
end
